-- ==== Sys2Proof/Word.lean ====
section
/-! DEFINITION. The words of HUFFCORE and their plainest arithmetic (spec/00_scope.md R7, R12, R13).
Every value of the spec is unsigned (R12: "No value in this spec is signed"). -/

namespace Sys2Proof

/-- A command or response word (R90, R93: 64 bits, transferred whole). -/
abbrev Word64 := BitVec 64

/-- The `data` field of a response word (R93: 56 bits). -/
abbrev Data := BitVec 56

/-- A byte: an opcode, an `a` field, or one byte of the encoded stream (R91, R92). -/
abbrev Byte := BitVec 8

/-- A symbol, "an integer 0 to 127", the document's 7-bit code point (R7 `SYM_W`, R16). -/
abbrev Sym := BitVec 7

/-- A weight (R8): an unsigned integer of `WGT_W` = 32 bits. -/
abbrev Wgt := BitVec 32

/-- The contents of a control and status register as read (R32: 32 bits wide). -/
abbrev CsrWord := BitVec 32

/-- The index of an entry of `NODE` (R46). `NIL` is not an index: a reference that may be `NIL` is an
`Option NodeIdx`, `none` standing for `NIL` (R60: "NIL | 0..254"). -/
abbrev NodeIdx := Nat

/-- A bit sequence (R13), first element first. -/
abbrev Bits := List Bool

end Sys2Proof
end

