-- ==== Sys2Proof/Syntax.lean ====
section
/-! DEFINITION. The commands of HUFFCORE: one constructor for each of the fifteen rows of spec/opcode_table.json
(spec/30_encoding.md R96). An operand's type is exactly its legal range (R92). -/

namespace Sys2Proof

/-- The fifteen mnemonics of R96, as the table spells them. -/
inductive Mnemonic where
  | NOP | CLEAR | FA_SYM | FA_FIN | LEAF_PUSH | BUILD | GEN | ENC_SYM | ENC_FIN | DEC_BYTE | DEC_FIN
  | RD_CSR | RD_NODE | RD_CODE | RD_CNT
  deriving DecidableEq, Repr

/-- A command with its operands (R92, R96). -/
inductive Instr where
  | nop
  | clear
  | faSym (s : Sym)
  | faFin
  | leafPush (s : Sym) (v : Wgt)
  | build
  | gen
  | encSym (s : Sym)
  | encFin
  | decByte (b : Byte)
  | decFin
  | rdCsr (n : Byte)
  | rdNode (i : Byte)
  | rdCode (s : Sym) (k : BitVec 2)
  | rdCnt (s : Sym)
  deriving DecidableEq, Repr

/-- The row of R96 a command belongs to. -/
def Instr.mnemonic : Instr → Mnemonic
  | .nop => .NOP
  | .clear => .CLEAR
  | .faSym _ => .FA_SYM
  | .faFin => .FA_FIN
  | .leafPush _ _ => .LEAF_PUSH
  | .build => .BUILD
  | .gen => .GEN
  | .encSym _ => .ENC_SYM
  | .encFin => .ENC_FIN
  | .decByte _ => .DEC_BYTE
  | .decFin => .DEC_FIN
  | .rdCsr _ => .RD_CSR
  | .rdNode _ => .RD_NODE
  | .rdCode _ _ => .RD_CODE
  | .rdCnt _ => .RD_CNT

/-- The nine working commands (R201, "the same nine commands"): those that check `FAULT`, `PHASE` and `ACT`. -/
def Instr.working : Instr → Bool
  | .faSym _ | .faFin | .leafPush _ _ | .build | .gen | .encSym _ | .encFin | .decByte _ | .decFin => true
  | .nop | .clear | .rdCsr _ | .rdNode _ | .rdCode _ _ | .rdCnt _ => false

/-- The commands that change nothing: `NOP` and the four `RD_*` (R79). -/
def Instr.readOnly : Instr → Bool
  | .nop | .rdCsr _ | .rdNode _ | .rdCode _ _ | .rdCnt _ => true
  | .clear | .faSym _ | .faFin | .leafPush _ _ | .build | .gen | .encSym _ | .encFin | .decByte _ | .decFin => false

end Sys2Proof
end

