-- ==== Sys2Proof/WellFormed.lean ====
section
/-! DEFINITION. Well-formedness: the operand kinds and legal values of spec/30_encoding.md R92. A command as
written down (a mnemonic and numbers, R99) is checked here and turned into an `Instr`; the operand types of `Instr` are
exactly the legal ranges, so every `Instr` is the image of a well-formed written command. -/

namespace Sys2Proof

/-- The operand kinds of R92. -/
inductive OperandKind where
  | sym | byte | idx | csr | wgt | chunk
  deriving DecidableEq, Repr

/-- The legal values of an operand kind (R92, column "legal values"). -/
def OperandKind.legal : OperandKind → Nat → Bool
  | .sym, v => decide (v < 128)
  | .byte, v => decide (v < 256)
  | .idx, v => decide (v < 256)
  | .csr, v => decide (v < 256)
  | .wgt, v => decide (v < 2 ^ 32)
  | .chunk, v => decide (v < 4)

/-- The operands of each command, `a` then `w` (R96, column "operands"). -/
def Mnemonic.operands : Mnemonic → List OperandKind
  | .NOP | .CLEAR | .FA_FIN | .BUILD | .GEN | .ENC_FIN | .DEC_FIN => []
  | .FA_SYM | .ENC_SYM | .RD_CNT => [.sym]
  | .LEAF_PUSH => [.sym, .wgt]
  | .DEC_BYTE => [.byte]
  | .RD_CSR => [.csr]
  | .RD_NODE => [.idx]
  | .RD_CODE => [.sym, .chunk]

/-- A command as written in a script (R99): a mnemonic and its operands as numbers. -/
structure AsmCmd where
  mnem : Mnemonic
  args : List Nat
  deriving DecidableEq, Repr

/-- Operands agree with their kinds in number and in value. -/
def argsLegal : List OperandKind → List Nat → Bool
  | [], [] => true
  | k :: ks, v :: vs => k.legal v && argsLegal ks vs
  | _ :: _, [] => false
  | [], _ :: _ => false

/-- A written command is well formed when it has its row's operands, each legal; otherwise it is "an assembly
error" (R99). -/
def AsmCmd.wellFormed (c : AsmCmd) : Bool := argsLegal c.mnem.operands c.args

/-- The command a written command stands for, before the check of its operands. -/
def AsmCmd.build (c : AsmCmd) : Instr :=
  let a := c.args.getD 0 0
  let w := c.args.getD 1 0
  match c.mnem with
  | .NOP => .nop
  | .CLEAR => .clear
  | .FA_SYM => .faSym (BitVec.ofNat 7 a)
  | .FA_FIN => .faFin
  | .LEAF_PUSH => .leafPush (BitVec.ofNat 7 a) (BitVec.ofNat 32 w)
  | .BUILD => .build
  | .GEN => .gen
  | .ENC_SYM => .encSym (BitVec.ofNat 7 a)
  | .ENC_FIN => .encFin
  | .DEC_BYTE => .decByte (BitVec.ofNat 8 a)
  | .DEC_FIN => .decFin
  | .RD_CSR => .rdCsr (BitVec.ofNat 8 a)
  | .RD_NODE => .rdNode (BitVec.ofNat 8 a)
  | .RD_CODE => .rdCode (BitVec.ofNat 7 a) (BitVec.ofNat 2 w)
  | .RD_CNT => .rdCnt (BitVec.ofNat 7 a)

/-- A well-formed written command's `Instr`; `none` for an ill-formed one. -/
def AsmCmd.toInstr (c : AsmCmd) : Option Instr :=
  if c.wellFormed then some c.build else none

/-- A command written down, operands as numbers. -/
def Instr.toAsm (i : Instr) : AsmCmd :=
  AsmCmd.mk i.mnemonic <|
    match i with
    | .nop | .clear | .faFin | .build | .gen | .encFin | .decFin => []
    | .faSym s | .encSym s | .rdCnt s => [s.toNat]
    | .leafPush s v => [s.toNat, v.toNat]
    | .decByte b => [b.toNat]
    | .rdCsr n => [n.toNat]
    | .rdNode i => [i.toNat]
    | .rdCode s k => [s.toNat, k.toNat]

/-- Every operand of the command lies in its legal range (R92). -/
def Instr.wellFormed (i : Instr) : Bool := i.toAsm.wellFormed

end Sys2Proof
end

