-- ==== Sys2Proof/Decode.lean ====
section
/-! DEFINITION. The decoder and the encoder (spec/30_encoding.md R90 to R97). Decoding follows R95: find the row of R96
whose match and mask the word satisfies, then extract the operands by R92; it is total on all 2^64 words and rejects
by name. The encoder assembles format `C` (R91) from the same opcode numbers. -/

namespace Sys2Proof

/-- Field `op`, bits 63:56 (R91). -/
def fieldOp (w : Word64) : Byte := w.extractLsb' 56 8

/-- Field `rsv`, bits 55:40 (R91). -/
def fieldRsv (w : Word64) : BitVec 16 := w.extractLsb' 40 16

/-- Field `a`, bits 39:32 (R91). -/
def fieldA (w : Word64) : Byte := w.extractLsb' 32 8

/-- Field `w`, bits 31:0 (R91). -/
def fieldW (w : Word64) : BitVec 32 := w.extractLsb' 0 32

/-- A row of the opcode map (R96). -/
structure OpcodeRow where
  mnem : Mnemonic
  pattern : Word64
  mask : Word64
  deriving DecidableEq, Repr

/-- The complete opcode map, row by row as R96 and spec/opcode_table.json give it. -/
def opcodeTable : List OpcodeRow :=
  [ ⟨.NOP,       0x0000000000000000#64, 0xFFFFFFFFFFFFFFFF#64⟩,
    ⟨.CLEAR,     0x0100000000000000#64, 0xFFFFFFFFFFFFFFFF#64⟩,
    ⟨.FA_SYM,    0x1000000000000000#64, 0xFFFFFF80FFFFFFFF#64⟩,
    ⟨.FA_FIN,    0x1100000000000000#64, 0xFFFFFFFFFFFFFFFF#64⟩,
    ⟨.LEAF_PUSH, 0x2000000000000000#64, 0xFFFFFF8000000000#64⟩,
    ⟨.BUILD,     0x2100000000000000#64, 0xFFFFFFFFFFFFFFFF#64⟩,
    ⟨.GEN,       0x3000000000000000#64, 0xFFFFFFFFFFFFFFFF#64⟩,
    ⟨.ENC_SYM,   0x4000000000000000#64, 0xFFFFFF80FFFFFFFF#64⟩,
    ⟨.ENC_FIN,   0x4100000000000000#64, 0xFFFFFFFFFFFFFFFF#64⟩,
    ⟨.DEC_BYTE,  0x5000000000000000#64, 0xFFFFFF00FFFFFFFF#64⟩,
    ⟨.DEC_FIN,   0x5100000000000000#64, 0xFFFFFFFFFFFFFFFF#64⟩,
    ⟨.RD_CSR,    0x6000000000000000#64, 0xFFFFFF00FFFFFFFF#64⟩,
    ⟨.RD_NODE,   0x6100000000000000#64, 0xFFFFFF00FFFFFFFF#64⟩,
    ⟨.RD_CODE,   0x6200000000000000#64, 0xFFFFFF80FFFFFFFC#64⟩,
    ⟨.RD_CNT,    0x6300000000000000#64, 0xFFFFFF80FFFFFFFF#64⟩ ]

/-- R94: a word is a row's command exactly when `(cw AND mask) = match`. -/
def OpcodeRow.matches (r : OpcodeRow) (w : Word64) : Bool := w &&& r.mask == r.pattern

/-- The command-word bits an operand occupies: `sym` is `a[6:0]`, `byte`, `idx` and `csr` are `a[7:0]`, `wgt` is `w[31:0]`,
`chunk` is `w[1:0]` (R91, R92). -/
def OperandKind.holdsBit (o : OperandKind) (k : Nat) : Bool :=
  match o with
  | .sym => decide (32 ≤ k ∧ k ≤ 38)
  | .byte | .idx | .csr => decide (32 ≤ k ∧ k ≤ 39)
  | .wgt => decide (k ≤ 31)
  | .chunk => decide (k ≤ 1)

/-- Operand `sym` is `a[6:0]` (R92). -/
def operandSym (w : Word64) : Sym := (fieldA w).extractLsb' 0 7

/-- Operand `chunk` is `w[1:0]` (R92). -/
def operandChunk (w : Word64) : BitVec 2 := (fieldW w).extractLsb' 0 2

/-- The command of a row with the operands of a word (R92, R96). -/
def instrOf (m : Mnemonic) (w : Word64) : Instr :=
  match m with
  | .NOP => .nop
  | .CLEAR => .clear
  | .FA_SYM => .faSym (operandSym w)
  | .FA_FIN => .faFin
  | .LEAF_PUSH => .leafPush (operandSym w) (fieldW w)
  | .BUILD => .build
  | .GEN => .gen
  | .ENC_SYM => .encSym (operandSym w)
  | .ENC_FIN => .encFin
  | .DEC_BYTE => .decByte (fieldA w)
  | .DEC_FIN => .decFin
  | .RD_CSR => .rdCsr (fieldA w)
  | .RD_NODE => .rdNode (fieldA w)
  | .RD_CODE => .rdCode (operandSym w) (operandChunk w)
  | .RD_CNT => .rdCnt (operandSym w)

/-- Why a word does not decode (the cases R97 lists). The machine answers all of them alike, with `ERR_ILLEGAL`. -/
inductive Reject where
  /-- the opcode is not in the table -/
  | unlistedOpcode
  /-- the opcode is listed and `rsv` is nonzero -/
  | reservedBits
  /-- the opcode is listed, `rsv` is zero, and a bit of `a` or `w` outside the command's operands is set -/
  | operandBits
  deriving DecidableEq, Repr

/-- The name of the reason a word that matches no row is illegal (R97). -/
def rejectReason (w : Word64) : Reject :=
  if opcodeTable.any (fun r => fieldOp r.pattern == fieldOp w) then
    if fieldRsv w = 0 then .operandBits else .reservedBits
  else .unlistedOpcode

/-- R95: the row the word satisfies, with the word's operands; otherwise the word is illegal (R97). -/
def decode (w : Word64) : Except Reject Instr :=
  match opcodeTable.find? (fun r => r.matches w) with
  | some r => .ok (instrOf r.mnem w)
  | none => .error (rejectReason w)

/-- The opcode numbers of R96. -/
def opcodeOf : Mnemonic → Byte
  | .NOP => 0x00#8
  | .CLEAR => 0x01#8
  | .FA_SYM => 0x10#8
  | .FA_FIN => 0x11#8
  | .LEAF_PUSH => 0x20#8
  | .BUILD => 0x21#8
  | .GEN => 0x30#8
  | .ENC_SYM => 0x40#8
  | .ENC_FIN => 0x41#8
  | .DEC_BYTE => 0x50#8
  | .DEC_FIN => 0x51#8
  | .RD_CSR => 0x60#8
  | .RD_NODE => 0x61#8
  | .RD_CODE => 0x62#8
  | .RD_CNT => 0x63#8

/-- Format `C`: `cw = {op, rsv, a, w}` with `rsv` = 0 (R91). -/
def commandWord (op a : Byte) (w : BitVec 32) : Word64 := op ++ (0#16 ++ (a ++ w))

/-- A symbol in the `a` field, `a[7]` = 0 (R92). -/
def symField (s : Sym) : Byte := s.setWidth 8

/-- The `a` field of a command, zero where the command has no `a` operand (R91). -/
def Instr.aField : Instr → Byte
  | .faSym s | .leafPush s _ | .encSym s | .rdCode s _ | .rdCnt s => symField s
  | .decByte b => b
  | .rdCsr n => n
  | .rdNode i => i
  | .nop | .clear | .faFin | .build | .gen | .encFin | .decFin => 0#8

/-- The `w` field of a command, zero where the command has no `w` operand (R91). -/
def Instr.wField : Instr → BitVec 32
  | .leafPush _ v => v
  | .rdCode _ k => k.setWidth 32
  | .nop | .clear | .faSym _ | .faFin | .build | .gen | .encSym _ | .encFin | .decByte _ | .decFin | .rdCsr _
  | .rdNode _ | .rdCnt _ => 0#32

/-- The command word of a command (R91, R96). -/
def encode (i : Instr) : Word64 := commandWord (opcodeOf i.mnemonic) i.aField i.wField

/-- The command word of a table word: command words are 64-bit values transferred whole, with no byte order (R74), so
bit 0 of `w` is bit 0 of the command word; bits at and above `nbits` are zero. -/
def tableWord (nbits w : Nat) : Word64 := BitVec.ofNat 64 (w % 2 ^ nbits)

/-- The command the decoder reads from a table word. -/
def decodeTableWord (nbits w : Nat) : Option Instr :=
  match decode (tableWord nbits w) with
  | .ok i => some i
  | .error _ => none

end Sys2Proof
end

