-- ==== Sys2Proof/Config.lean ====
section
/-! DEFINITION. The implementation parameters of spec/00_scope.md R7. Every parameter but `BITBUF_MAX` has one
value; `BITBUF_MAX` is the open one, so it is a constant field of the machine's state (State.bitbufMax), and only its
default stands here. The spec leaves no result open, so there is no free value here (notes/assumptions/11.md). -/

namespace Sys2Proof.Config

/-- `NSYMBOLS`: the size of the alphabet. -/
abbrev nSymbols : Nat := 128

/-- `NLEAF_MAX`: most leaves a tree can have. -/
abbrev nLeafMax : Nat := 128

/-- `NNODE_MAX`: entries of the node array. -/
abbrev nNodeMax : Nat := 255

/-- `CW_MAX`: most bits in a codeword. -/
abbrev cwMax : Nat := 127

/-- `NIL`: the 8-bit value a host reads for "no node". -/
abbrev nilByte : Byte := 0xFF#8

/-- The largest value of a 32-bit weight, total or counter (`WGT_W`, `CNT_W`). -/
abbrev max32 : Nat := 2 ^ 32 - 1

/-- `ID_VALUE`: what `RD_CSR 0` reads (R37). -/
abbrev idValue : CsrWord := 0x48554631#32

/-- The default of the open parameter `BITBUF_MAX` (R7: "OPEN, default 65536"). -/
abbrev bitbufMaxDefault : CsrWord := 65536#32

end Sys2Proof.Config
end

