-- ==== Sys2Proof/Machine/State.lean ====
section
/-! DEFINITION. The whole state of HUFFCORE (spec/10_state.md R60, with the two output streams of R56 to R58, the
constant `BITBUF_MAX`, and the command and response ports of spec/20_memory.md R77), its reset values (R59), and the
reasons a step can stop. -/

namespace Sys2Proof.Machine

open Sys2Proof

/-- `PHASE`, the pipeline phase (R35), values 0 to 3 in this order. -/
inductive Phase where
  | load | leaves | tree | codes
  deriving DecidableEq, Repr

/-- `ACT`, the activity in flight (R36): 0, 1, 2; the value 3 never occurs. -/
inductive Act where
  | idle | encoding | decoding
  deriving DecidableEq, Repr

/-- One entry of `NODE` that holds a value (R46, R48). A leaf has its symbol set and both children absent (`NIL`);
an internal node has no symbol (its `sym` field reads 0) and exactly two children. -/
inductive NodeEntry where
  | leaf (sym : Sym) (wgt : Wgt)
  | inner (wgt : Wgt) (left right : NodeIdx)
  deriving DecidableEq, Repr

/-- One valid entry of `CODE` (R50): the codeword's first bit is bit `len` − 1 of `val`, its last bit is bit 0. -/
structure Codeword where
  len : BitVec 7
  val : BitVec 127
  deriving DecidableEq, Repr

/-- The twelve response codes (R201, R202). -/
inductive RspCode where
  | ok | errIllegal | errFaulted | errSeq | errIndex | errDup | errOrder | errWovf | errNleaf | errCntovf
  | fltNocode | fltBufovf
  deriving DecidableEq, Repr

/-- The state of the machine at a command boundary. `NNODE` is `node.length` (R39), `BITLEN` is `b.length` (R44, R60)
and `CODE[s].valid` is whether the entry is present (R60): each is stored once. -/
structure State where
  /-- `STATUS[1:0]`, R35 -/
  phase : Phase
  /-- `STATUS[2]`, R34: 1 = the engine is in the fault state -/
  fault : Bool
  /-- `STATUS[4:3]`, R36 -/
  act : Act
  /-- `STATUS[5]`, R34: `FA_FIN` injected the phantom leaf -/
  phantom : Bool
  /-- `STATUS[8]`, R34 -/
  nosent : Bool
  /-- `STATUS[9]`, R34 -/
  trunc : Bool
  /-- `STATUS[10]`, R34 -/
  dempty : Bool
  /-- `STATUS[11]`, R34 -/
  notree : Bool
  /-- `NLEAF`, R38 -/
  nleaf : Nat
  /-- `ROOT`, R40 (`none` = `NIL`) -/
  root : Option NodeIdx
  /-- `CUR`, the decoder's walk position, R41 (`none` = `NIL`) -/
  cur : Option NodeIdx
  /-- `TOTAL`, R42 -/
  total : BitVec 32
  /-- `NSYM`, R43 -/
  nsym : BitVec 32
  /-- `ERRCODE`, R45 -/
  errcode : Byte
  /-- `ERRINFO`, R45 -/
  errinfo : BitVec 16
  /-- `BITBUF_MAX`, the constant of CSR 11 (R7, R32): no command writes it -/
  bitbufMax : BitVec 32
  /-- `NODE` (R46): the entries 0 to `NNODE` − 1; those at and above `NNODE` hold no value and are absent (R47) -/
  node : List NodeEntry
  /-- `CODE` (R50), indexed by symbol; `none` = not valid -/
  code : Vector (Option Codeword) 128
  /-- `CNT` (R52), indexed by symbol -/
  cnt : Vector (BitVec 32) 128
  /-- `B`, the encoder's bit buffer (R53) -/
  b : Bits
  /-- `OUT_BYTES` (R57), oldest first -/
  outBytes : List Byte
  /-- `OUT_SYMS` (R58), oldest first -/
  outSyms : List Sym
  /-- the command port (R77): command words the host has issued and the engine has not taken, next first -/
  cmdIn : List Word64
  /-- the response port (R77): the response words given so far, oldest first (R11) -/
  rspOut : List Word64
  deriving DecidableEq, Repr

/-- Why a step stops with a fault of the MODEL. HUFFCORE's own faults (R204) are no stops: they are next states.
Neither of these can arise in a state that meets the invariants of R61 (Safety.lean, `Inv`). -/
inductive Fault where
  /-- `LEAF_PUSH`, `BUILD` or `DEC_BYTE` would read a `NODE` entry that holds no value, or descend from a leaf: R47
  gives such an entry no value and R71 says it is never dereferenced. Safe: the model stops. -/
  | absentNode
  /-- `GEN` meets a `NODE` entry that holds no value, or a path longer than the node array, that is a cycle: R48 says
  there is none. Safe: the model stops. -/
  | brokenTree
  deriving DecidableEq, Repr

/-- Why a step has no meaning. No step of this model is refused: every command of the table has its meaning. -/
inductive Refusal where
  /-- an instruction whose arm is still rejected by name; no arm is. Safe: the model stops. -/
  | notModelled (mnemonic : String)
  deriving DecidableEq, Repr

/-- The state after hardware reset of a block whose `BITBUF_MAX` is `m` (R59, R230). -/
def State.resetWith (m : BitVec 32) : State where
  phase := .load
  fault := false
  act := .idle
  phantom := false
  nosent := false
  trunc := false
  dempty := false
  notree := false
  nleaf := 0
  root := none
  cur := none
  total := 0#32
  nsym := 0#32
  errcode := 0#8
  errinfo := 0#16
  bitbufMax := m
  node := []
  code := Vector.replicate 128 none
  cnt := Vector.replicate 128 0#32
  b := []
  outBytes := []
  outSyms := []
  cmdIn := []
  rspOut := []

/-- The state after hardware reset with `BITBUF_MAX` at its default (R7, R59; notes/assumptions/1.md). -/
def State.reset : State := State.resetWith Config.bitbufMaxDefault

end Sys2Proof.Machine
end

