-- ==== Sys2Proof/Machine/Ops.lean ====
section
/-! DEFINITION. The shared operations: bits and bytes (spec/00_scope.md R13), the arrays, the four ways a command word
ends (spec/60_exceptions.md R200), entering the fault state as ONE operation (R204, `raise`) and the way back out of it
(R214, `clearState`), and the order of the checks every working command makes (R206). -/

namespace Sys2Proof.Machine

open Sys2Proof

/-- What a command's meaning answers. -/
abbrev Result := Host.Outcome State Fault Refusal

/-! ### Bits and bytes -/

/-- `bits8(b)` = `[b[7], ..., b[0]]`, most significant bit first (R13, R72). -/
def bits8 (b : Byte) : Bits := (List.range 8).map fun k => b.getLsbD (7 - k)

/-- `value(S)` = Σ over k of `S[k]` × 2^(len − 1 − k): the first bit is the most significant (R143, R157). -/
def bitsValue (S : Bits) : Nat := S.foldl (fun v t => 2 * v + t.toNat) 0

/-- `byte(S)` of an 8-element sequence: the byte whose bit 7 − k is `S[k]` (R13). -/
def byteOf (S : Bits) : Byte := BitVec.ofNat 8 (bitsValue S)

/-- The bytes `byte(E[8k .. 8k+7])` for k = 0 .. n − 1 (R72, R155, R157). -/
def packBytes : Nat → Bits → List Byte
  | 0, _ => []
  | n + 1, E => byteOf (E.take 8) :: packBytes n (E.drop 8)

/-! ### Arrays indexed by symbol -/

/-- Reading an array of 128 entries at a symbol. -/
def getSym {α : Type} (t : Vector α 128) (s : Sym) : α := t[s.toNat]'s.isLt

/-- Writing an array of 128 entries at a symbol. -/
def setSym {α : Type} (t : Vector α 128) (s : Sym) (x : α) : Vector α 128 := t.set s.toNat x s.isLt

/-- The 128 symbols in ascending order. -/
def allSyms : List Sym := (List.range 128).map (BitVec.ofNat 7)

/-! ### Node entries, read by their fields (R46) -/

/-- Field `leaf`. -/
def NodeEntry.isLeaf : NodeEntry → Bool
  | .leaf _ _ => true
  | .inner _ _ _ => false

/-- Field `sym`: 0 in an internal node. -/
def NodeEntry.sym : NodeEntry → Sym
  | .leaf s _ => s
  | .inner _ _ _ => 0#7

/-- Field `wgt`. -/
def NodeEntry.wgt : NodeEntry → Wgt
  | .leaf _ w => w
  | .inner w _ _ => w

/-- Field `left`: `NIL` in a leaf. -/
def NodeEntry.left : NodeEntry → Option NodeIdx
  | .leaf _ _ => none
  | .inner _ l _ => some l

/-- Field `right`: `NIL` in a leaf. -/
def NodeEntry.right : NodeEntry → Option NodeIdx
  | .leaf _ _ => none
  | .inner _ _ r => some r

/-- The codeword as a bit sequence, `cw(s)` = `[val[len−1], ..., val[0]]` (R50). -/
def Codeword.bits (c : Codeword) : Bits :=
  (List.range c.len.toNat).map fun k => c.val.getLsbD (c.len.toNat - 1 - k)

/-- What `GEN` records for a path: `len` = `len(path)`, `val` = `value(path)` (R143). -/
def codewordOf (path : Bits) : Codeword :=
  { len := BitVec.ofNat 7 path.length, val := BitVec.ofNat 127 (bitsValue path) }

/-! ### Derived registers -/

/-- `NNODE`, the number of entries of `NODE` that hold a value (R39). -/
def State.nnode (s : State) : Nat := s.node.length

/-- `BITLEN` = `len(B)` (R44). -/
def State.bitlen (s : State) : Nat := s.b.length

/-! ### Responses -/

/-- The value of a response code (R201). -/
def RspCode.byte : RspCode → Byte
  | .ok => 0x00#8
  | .errIllegal => 0x01#8
  | .errFaulted => 0x02#8
  | .errSeq => 0x03#8
  | .errIndex => 0x04#8
  | .errDup => 0x05#8
  | .errOrder => 0x06#8
  | .errWovf => 0x07#8
  | .errNleaf => 0x08#8
  | .errCntovf => 0x09#8
  | .fltNocode => 0x10#8
  | .fltBufovf => 0x11#8

/-- Format `R`: `rw = {code, data}` (R93). -/
def rspWord (c : RspCode) (d : Data) : Word64 := c.byte ++ d

/-- The state with one more response word given (R90, R93: exactly one per command word). -/
def State.answer (s : State) (r : Word64) : State := { s with rspOut := s.rspOut ++ [r] }

/-- `respond(d)`: the command completes with `OK` and data `d` (R14). -/
def respond (d : Data) (s : State) : Result := .next (s.answer (rspWord .ok d))

/-- `refuse(E)`: response `{E, 0}`, and no item of state changes (R203). -/
def refuse (e : RspCode) (s : State) : Result := .next (s.answer (rspWord e 0#56))

/-- The state on entry to the fault state (R204): `FAULT` ← 1, `ERRCODE` ← F, `ERRINFO` ← op × 256 + a; nothing else. -/
def State.faulted (s : State) (f : RspCode) (op a : Byte) : State :=
  { s with fault := true, errcode := f.byte, errinfo := op ++ a }

/-- `fault(F)` by a command with opcode `op` and operand field `a` (R204, R213): the saved registers are written, the
response is `{F, 0}`, and control goes nowhere, since the block runs no handler. -/
def raise (f : RspCode) (op a : Byte) (s : State) : Result :=
  .next ((s.faulted f op a).answer (rspWord f 0#56))

/-- The way out of the fault state (R214): what `CLEAR` does to the state (R182, R231). Every item takes its reset
value, but the constant `BITBUF_MAX`, the two output streams and what stands at the host's ports. -/
def State.clearState (s : State) : State :=
  { State.resetWith s.bitbufMax with
    outBytes := s.outBytes, outSyms := s.outSyms, cmdIn := s.cmdIn, rspOut := s.rspOut }

/-! ### The checks of a working command -/

/-- Steps 3 and 4 of the order of checks (R206): `FAULT` = 1 gives `ERR_FAULTED`; a false `PHASE`/`ACT` condition (R210)
gives `ERR_SEQ`; otherwise the command's own body runs. -/
def working (cond : Prop) [Decidable cond] (s : State) (body : Result) : Result :=
  if s.fault = true then refuse .errFaulted s
  else if cond then body
  else refuse .errSeq s

/-- R210, rows `FA_SYM` and `FA_FIN`. -/
abbrev seqFrequency (s : State) : Prop := s.phase = .load ∧ s.nleaf = 0

/-- R210, row `LEAF_PUSH`. -/
abbrev seqLeafPush (s : State) : Prop := s.phase = .load ∧ s.nsym = 0#32

/-- R210, row `BUILD`. -/
abbrev seqBuild (s : State) : Prop := s.phase = .leaves ∨ (s.phase = .load ∧ s.nsym = 0#32)

/-- R210, row `GEN`. -/
abbrev seqGen (s : State) : Prop := s.phase = .tree

/-- R210, rows `ENC_SYM` and `ENC_FIN`. -/
abbrev seqEncode (s : State) : Prop := s.phase = .codes ∧ (s.act = .idle ∨ s.act = .encoding)

/-- R210, rows `DEC_BYTE` and `DEC_FIN`. -/
abbrev seqDecode (s : State) : Prop :=
  (s.phase = .tree ∨ s.phase = .codes) ∧ (s.act = .idle ∨ s.act = .decoding)

/-! ### The output streams -/

/-- `emit_byte` of each byte in order (R14, R57). -/
def State.emitBytes (s : State) (bs : List Byte) : State := { s with outBytes := s.outBytes ++ bs }

/-- `emit_sym` of each symbol in order (R14, R58). -/
def State.emitSyms (s : State) (ss : List Sym) : State := { s with outSyms := s.outSyms ++ ss }

end Sys2Proof.Machine
end

