-- ==== Sys2Proof/Machine/Flags.lean ====
section
/-! DEFINITION. The status flags: the `STATUS` word (spec/10_state.md R34) and the four decode flags
(spec/44_bit_unpacker_decode.md R167, R171). The block has no arithmetic condition codes (R34). -/

namespace Sys2Proof.Machine

open Sys2Proof

/-- The value of `PHASE` (R35). -/
def Phase.value : Phase → BitVec 2
  | .load => 0#2
  | .leaves => 1#2
  | .tree => 2#2
  | .codes => 3#2

/-- The value of `ACT` (R36). -/
def Act.value : Act → BitVec 2
  | .idle => 0#2
  | .encoding => 1#2
  | .decoding => 2#2

/-- The four decode flags as `DEC_FIN` answers them, `STATUS[11:8]`: `{NOTREE, DEMPTY, TRUNC, NOSENT}` (R171). -/
def State.decodeFlags (s : State) : BitVec 4 :=
  BitVec.ofBool s.notree ++ (BitVec.ofBool s.dempty ++ (BitVec.ofBool s.trunc ++ BitVec.ofBool s.nosent))

/-- `STATUS`, assembled from its fields; bits 7:6 and 31:12 read as zero (R34, R183). -/
def State.statusWord (s : State) : CsrWord :=
  0#20 ++ (s.decodeFlags ++
    (0#2 ++ (BitVec.ofBool s.phantom ++ (s.act.value ++ (BitVec.ofBool s.fault ++ s.phase.value)))))

/-- The four decode flags cleared, as at the start of a decode stream (R167). -/
def State.clearDecodeFlags (s : State) : State :=
  { s with nosent := false, trunc := false, dempty := false, notree := false }

end Sys2Proof.Machine
end

