-- ==== Sys2Proof/Machine/Operands.lean ====
section
/-! DEFINITION. What a command's operand selects: a control and status register by number (spec/10_state.md R32), a
`NODE` entry by index (spec/45_control_and_access.md R184), a chunk of a codeword (R185), a counter (R186); and how each
is laid out in a response. -/

namespace Sys2Proof.Machine

open Sys2Proof

/-- A node reference as the host reads it: the index, or `NIL` = 0xFF (R32, R46). -/
def refByte : Option NodeIdx → Byte
  | some i => BitVec.ofNat 8 i
  | none => Config.nilByte

/-- The twelve control and status registers by number; 12 to 255 name no register (R32). -/
def State.csr (s : State) (n : Byte) : Option CsrWord :=
  match n.toNat with
  | 0 => some Config.idValue
  | 1 => some s.statusWord
  | 2 => some (BitVec.ofNat 32 s.nleaf)
  | 3 => some (BitVec.ofNat 32 s.nnode)
  | 4 => some ((refByte s.root).setWidth 32)
  | 5 => some s.total
  | 6 => some s.nsym
  | 7 => some (BitVec.ofNat 32 s.bitlen)
  | 8 => some ((refByte s.cur).setWidth 32)
  | 9 => some (s.errcode.setWidth 32)
  | 10 => some (s.errinfo.setWidth 32)
  | 11 => some s.bitbufMax
  | _ => none

/-- A `NODE` entry packed as `{leaf, sym, left, right, wgt}` (R184). -/
def NodeEntry.packed (e : NodeEntry) : Data :=
  BitVec.ofBool e.isLeaf ++ (e.sym ++ (refByte e.left ++ (refByte e.right ++ e.wgt)))

/-- Chunk `k` of a codeword value: `v128[32k+31 : 32k]` of `val` zero-extended to 128 bits (R74, R185). -/
def codeChunk (val : BitVec 127) (k : BitVec 2) : BitVec 32 :=
  (val.setWidth 128).extractLsb' (32 * k.toNat) 32

/-- A `CODE` entry as `RD_CODE` answers it: `{valid, len, 0, chunk}`, all zero for an absent entry (R185). -/
def codeData (e : Option Codeword) (k : BitVec 2) : Data :=
  match e with
  | none => 0#56
  | some c => 1#1 ++ (c.len ++ (0#16 ++ codeChunk c.val k))

end Sys2Proof.Machine
end

