-- ==== Sys2Proof/Machine/Access.lean ====
section
/-! DEFINITION. The read-access commands `RD_CSR`, `RD_NODE`, `RD_CODE`, `RD_CNT` (spec/45_control_and_access.md R183 to
R187): legal in every phase, with any activity, and in the fault state. -/

namespace Sys2Proof.Machine

open Sys2Proof

/-- `RD_CSR n` reads control and status register `n` (R183). -/
def execRdCsr (n : Byte) (s : State) : Result :=
  match s.csr n with
  | some v => respond (v.setWidth 56) s
  | none => refuse .errIndex s

/-- `RD_NODE i` reads entry `i` of the node array; `i` ≥ `NNODE` is refused (R184). -/
def execRdNode (i : Byte) (s : State) : Result :=
  match s.node[i.toNat]? with
  | some e => respond e.packed s
  | none => refuse .errIndex s

/-- `RD_CODE s, k` reads the code-table entry of symbol `s` and chunk `k` of its value (R185). -/
def execRdCode (sym : Sym) (k : BitVec 2) (s : State) : Result :=
  respond (codeData (getSym s.code sym) k) s

/-- `RD_CNT s` reads the occurrence counter of symbol `s` (R186). -/
def execRdCnt (sym : Sym) (s : State) : Result :=
  respond ((getSym s.cnt sym).setWidth 56) s

end Sys2Proof.Machine
end

