-- ==== Sys2Proof/Machine/CodeGenerator.lean ====
section
/-! DEFINITION. The code generator: `GEN`, the depth-first walk of the tree (spec/42_code_generator.md). -/

namespace Sys2Proof.Machine

open Sys2Proof

/-- The traversal of R141 and R142: each leaf's symbol with its path from the start, left before right. `none`: an entry
that holds no value is met, or the path is longer than `fuel`. -/
def walkTree (node : List NodeEntry) : Nat → NodeIdx → Bits → Option (List (Sym × Bits))
  | 0, _, _ => none
  | fuel + 1, i, path =>
    match node[i]? with
    | none => none
    | some (.leaf s _) => some [(s, path)]
    | some (.inner _ l r) =>
      match walkTree node fuel l (path ++ [false]), walkTree node fuel r (path ++ [true]) with
      | some a, some b => some (a ++ b)
      | _, _ => none

/-- The symbols and codewords of the tree with root `root`; none where there is no tree (R146). -/
def treePaths (node : List NodeEntry) (root : Option NodeIdx) : Option (List (Sym × Bits)) :=
  match root with
  | none => some []
  | some r => walkTree node node.length r []

/-- The code table in which each leaf's symbol has its path as codeword, every other entry absent (R141, R143, R51). -/
def codeTable (paths : List (Sym × Bits)) : Vector (Option Codeword) 128 :=
  paths.foldl (fun t p => setSym t p.1 (some (codewordOf p.2))) (Vector.replicate 128 none)

/-- `GEN` fills the code table from the tree (R141, R146). -/
def execGen (s : State) : Result :=
  working (seqGen s) s <|
    match treePaths s.node s.root with
    | none => .fault .brokenTree
    | some paths =>
      respond (BitVec.ofNat 56 paths.length) { s with code := codeTable paths, phase := .codes }

end Sys2Proof.Machine
end

