-- ==== Sys2Proof/Machine/Control.lean ====
section
/-! DEFINITION. The control commands `NOP` and `CLEAR` (spec/45_control_and_access.md R180 to R182): legal in every
phase, with any activity, and in the fault state. -/

namespace Sys2Proof.Machine

open Sys2Proof

/-- `NOP` does nothing (R181). -/
def execNop (s : State) : Result := respond 0#56 s

/-- `CLEAR` returns the engine to its reset state, leaving the output streams as they are (R182). -/
def execClear (s : State) : Result := respond 0#56 s.clearState

end Sys2Proof.Machine
end

