-- ==== Sys2Proof/Machine/Decoder.lean ====
section
/-! DEFINITION. The bit unpacker and the decode tree walk: `DEC_BYTE` and `DEC_FIN`
(spec/44_bit_unpacker_decode.md). -/

namespace Sys2Proof.Machine

open Sys2Proof

/-- The payload bits of the first byte of a stream: those after its first 1 bit; none where there is none (R168, R169). -/
def firstPayload (b : Byte) : Bits :=
  if b = 0#8 then [] else (bits8 b).drop ((bits8 b).findIdx id + 1)

/-- What the walk carries from bit to bit (R166): `CUR`, `NOTREE`, and the symbols emitted by this command. -/
structure Walk where
  cur : Option NodeIdx
  notree : Bool
  syms : List Sym
  deriving DecidableEq, Repr

/-- The child a payload bit descends to: 0 left, 1 right (R170). -/
def childOf (node : List NodeEntry) (cur : Option NodeIdx) (t : Bool) : Option NodeIdx :=
  match cur with
  | none => none
  | some i =>
    match node[i]? with
    | none => none
    | some e => if t then e.right else e.left

/-- One payload bit (R166, R170, R174). `none`: the descent would read an entry that holds no value. -/
def walkBit (node : List NodeEntry) (root : Option NodeIdx) (w : Walk) (t : Bool) : Option Walk :=
  match root with
  | none => some { w with notree := true }
  | some _ =>
    match childOf node w.cur t with
    | none => none
    | some c =>
      match node[c]? with
      | none => none
      | some (.leaf s _) => some { w with cur := root, syms := w.syms ++ [s] }
      | some (.inner _ _ _) => some { w with cur := some c }

/-- The payload bits in order (R166). -/
def walkBits (node : List NodeEntry) (root : Option NodeIdx) : Walk → Bits → Option Walk
  | w, [] => some w
  | w, t :: ts =>
    match walkBit node root w t with
    | none => none
    | some w' => walkBits node root w' ts

/-- The state in which a byte's payload bits are walked, and those bits (R166 to R169): the first byte of a stream
clears the decode flags and carries the sentinel; a later byte is all payload. -/
def State.openByte (s : State) (b : Byte) : State × Bits :=
  if s.act = .idle then
    ({ s.clearDecodeFlags with nosent := decide (b = 0#8), act := .decoding }, firstPayload b)
  else (s, bits8 b)

/-- `DEC_BYTE b` decodes one byte of the encoded stream (R166). -/
def execDecByte (b : Byte) (s : State) : Result :=
  working (seqDecode s) s <|
    let (s, bits) := s.openByte b
    match walkBits s.node s.root { cur := s.cur, notree := s.notree, syms := [] } bits with
    | none => .fault .absentNode
    | some w =>
      respond (BitVec.ofNat 56 w.syms.length) { s.emitSyms w.syms with cur := w.cur, notree := w.notree }

/-- The state after the decode stream ends (R171): a stream of no byte sets `DEMPTY` (R175), a stream that stops inside a
codeword sets `TRUNC` (R172), and the walk returns to the root. -/
def State.closeStream (s : State) : State :=
  let s := if s.act = .idle then { s.clearDecodeFlags with dempty := true } else s
  { s with trunc := if s.cur ≠ s.root then true else s.trunc, cur := s.root, act := .idle }

/-- `DEC_FIN` ends the decode stream and answers the four decode flags (R171). -/
def execDecFin (s : State) : Result :=
  working (seqDecode s) s <|
    respond (s.closeStream.decodeFlags.setWidth 56) s.closeStream

end Sys2Proof.Machine
end

