-- ==== Sys2Proof/Machine/Encoder.lean ====
section
/-! DEFINITION. The bit packer, encode path: `ENC_SYM` and `ENC_FIN` (spec/43_bit_packer_encode.md). -/

namespace Sys2Proof.Machine

open Sys2Proof

/-- `ENC_SYM s` appends the codeword of `s` to the bit buffer (R151); no codeword faults with `FLT_NOCODE` (R153), a
codeword that does not fit with `FLT_BUFOVF` (R154). -/
def execEncSym (sym : Sym) (s : State) : Result :=
  working (seqEncode s) s <|
    match getSym s.code sym with
    | none => raise .fltNocode (opcodeOf .ENC_SYM) (symField sym) s
    | some c =>
      if s.bitlen + c.len.toNat > s.bitbufMax.toNat then
        raise .fltBufovf (opcodeOf .ENC_SYM) (symField sym) s
      else
        let b := s.b ++ c.bits
        respond (BitVec.ofNat 56 b.length) { s with b := b, act := .encoding }

/-- `padding` = 8 − (`len(B)` mod 8), in 1 to 8 (R156). -/
def padding (n : Nat) : Nat := 8 - n % 8

/-- `E` = 0^(padding − 1) ++ "1" ++ B (R155, R156). -/
def framed (B : Bits) : Bits := List.replicate (padding B.length - 1) false ++ [true] ++ B

/-- The bytes of a message (R155, R157). -/
def messageBytes (B : Bits) : List Byte := packBytes ((framed B).length / 8) (framed B)

/-- `ENC_FIN` ends the message: it pads, packs and emits `B`, then empties it (R155, R158). -/
def execEncFin (s : State) : Result :=
  working (seqEncode s) s <|
    let bytes := messageBytes s.b
    respond (BitVec.ofNat 56 bytes.length) { s.emitBytes bytes with b := [], act := .idle }

end Sys2Proof.Machine
end

