-- ==== Sys2Proof/Machine/Frequency.lean ====
section
/-! DEFINITION. The frequency front end: `FA_SYM` and `FA_FIN` (spec/40_frequency_analyzer.md). -/

namespace Sys2Proof.Machine

open Sys2Proof

/-- `FA_SYM s` counts one occurrence of symbol `s` (R111, R112). -/
def execFaSym (sym : Sym) (s : State) : Result :=
  working (seqFrequency s) s <|
    if s.nsym.toNat < Config.max32 then
      let n := getSym s.cnt sym + 1#32
      respond (n.setWidth 56) { s with cnt := setSym s.cnt sym n, nsym := s.nsym + 1#32 }
    else refuse .errCntovf s

/-- The sort order of `FA_FIN` on pairs of a symbol and its count: count ascending, then symbol ascending (R114). -/
abbrev leafBefore (x y : Sym × Wgt) : Prop := x.2 < y.2 ∨ (x.2 = y.2 ∧ x.1 ≤ y.1)

/-- The symbols with `CNT[s]` > 0 and their counts, sorted by R114. -/
def countedLeaves (cnt : Vector (BitVec 32) 128) : List (Sym × Wgt) :=
  ((allSyms.map fun s => (s, getSym cnt s)).filter fun p => p.2 ≠ 0#32).insertionSort leafBefore

/-- `next(c)` = 1 if c = 127, else c + 1 (R115). -/
def nextSym (c : Sym) : Sym := if c = 127#7 then 1#7 else c + 1#7

/-- The leaf list `L` of R113 and whether a phantom was injected: with exactly one distinct symbol the phantom leaf,
of weight 0, stands first (R115). -/
def leafList : List (Sym × Wgt) → List (Sym × Wgt) × Bool
  | [(c, n)] => ([(nextSym c, 0#32), (c, n)], true)
  | D => (D, false)

/-- `FA_FIN` ends the source sequence and builds the sorted leaf list (R113). -/
def execFaFin (s : State) : Result :=
  working (seqFrequency s) s <|
    let L := leafList (countedLeaves s.cnt)
    respond (BitVec.ofNat 56 L.1.length)
      { s with
        node := L.1.map fun p => .leaf p.1 p.2
        nleaf := L.1.length
        total := s.nsym
        phantom := L.2 || s.phantom
        phase := .leaves }

end Sys2Proof.Machine
end

