-- ==== Sys2Proof/Machine/TreeBuilder.lean ====
section
/-! DEFINITION. The tree builder: `LEAF_PUSH` and `BUILD`, the two-queue merge (spec/41_tree_builder.md). -/

namespace Sys2Proof.Machine

open Sys2Proof

/-- The order check of `LEAF_PUSH`: `NLEAF` = 0 or `NODE[NLEAF−1].wgt` ≤ v (R121). `none`: the last leaf's entry holds
no value. -/
def State.orderOk (s : State) (v : Wgt) : Option Bool :=
  if s.nleaf = 0 then some true
  else (s.node[s.nleaf - 1]?).map fun e => decide (e.wgt ≤ v)

/-- The duplicate check of `LEAF_PUSH`: some i < `NLEAF` has `NODE[i].sym` = s (R121). -/
def State.leavesHold (s : State) (x : Sym) : Bool := (s.node.take s.nleaf).any fun e => e.sym == x

/-- `LEAF_PUSH s, v` appends one leaf with symbol `s` and weight `v` to the leaf list (R121, R122). -/
def execLeafPush (sym : Sym) (v : Wgt) (s : State) : Result :=
  working (seqLeafPush s) s <|
    if s.leavesHold sym = true then refuse .errDup s
    else
      match s.orderOk v with
      | none => .fault .absentNode
      | some false => refuse .errOrder s
      | some true =>
        if s.total.toNat + v.toNat ≤ Config.max32 then
          respond (BitVec.ofNat 56 s.nleaf)
            { s with
              node := s.node.take s.nleaf ++ [.leaf sym v]
              total := s.total + v
              nleaf := s.nleaf + 1 }
        else refuse .errWovf s

/-- The two queues of `BUILD` as index ranges of the node array (R126): `source` is `sh` .. `nleaf` − 1, `target` is `th`
.. `tt` − 1, where `TT` is the number of entries written so far. -/
structure Queues where
  node : List NodeEntry
  nleaf : Nat
  sh : Nat
  th : Nat
  deriving DecidableEq, Repr

/-- `TT`, the index at which the next internal node is written (R126). -/
def Queues.tt (q : Queues) : Nat := q.node.length

/-- Dequeuing the front of `source` (R126). -/
def Queues.takeSource (q : Queues) : NodeIdx × Queues := (q.sh, { q with sh := q.sh + 1 })

/-- Dequeuing the front of `target` (R126). -/
def Queues.takeTarget (q : Queues) : NodeIdx × Queues := (q.th, { q with th := q.th + 1 })

/-- `take()` (R128): source is preferred on ties. `none`: a front entry holds no value. -/
def Queues.take (q : Queues) : Option (NodeIdx × Queues) :=
  if q.sh = q.nleaf then some q.takeTarget
  else if q.th = q.tt then some q.takeSource
  else
    match q.node[q.sh]?, q.node[q.th]? with
    | some a, some b => some (if a.wgt ≤ b.wgt then q.takeSource else q.takeTarget)
    | _, _ => none

/-- One iteration (R127 to R129): take `left`, then `right`, then write the new internal node at `TT`, its weight the
sum of the two weights (R125). -/
def Queues.mergeOne (q : Queues) : Option Queues := do
  let (l, q) ← q.take
  let (r, q) ← q.take
  let a ← q.node[l]?
  let b ← q.node[r]?
  some { q with node := q.node ++ [.inner (a.wgt + b.wgt) l r] }

/-- The loop's end test: `source` is empty and `target` holds exactly one node (R127). -/
def Queues.done (q : Queues) : Bool := q.sh == q.nleaf && q.tt - q.th == 1

/-- The loop (R127), for at most `fuel` iterations; R130: `NLEAF` − 1 iterations are made. -/
def Queues.merge : Nat → Queues → Option Queues
  | 0, q => if q.done then some q else none
  | fuel + 1, q => if q.done then some q else q.mergeOne.bind (Queues.merge fuel)

/-- The node array `BUILD` makes of a leaf list of length `n` (R126 to R130). -/
def buildNodes (node : List NodeEntry) (n : Nat) : Option (List NodeEntry) :=
  (Queues.merge n { node := node.take n, nleaf := n, sh := 0, th := n }).map Queues.node

/-- `BUILD` runs the two-queue merge over the leaf list and makes the tree final (R123, R124). -/
def execBuild (s : State) : Result :=
  working (seqBuild s) s <|
    if s.nleaf = 1 then refuse .errNleaf s
    else if s.nleaf = 0 then
      respond 0xFF#56 { s with root := none, cur := none, node := [], phase := .tree }
    else
      match buildNodes s.node s.nleaf with
      | none => .fault .absentNode
      | some node =>
        let root := some (node.length - 1)
        respond ((refByte root).setWidth 56) { s with root := root, cur := root, node := node, phase := .tree }

end Sys2Proof.Machine
end

