-- ==== Sys2Proof/Machine/Dispatch.lean ====
section
/-! DEFINITION. The dispatch: one arm per command (spec/30_encoding.md R96). -/

namespace Sys2Proof.Machine

open Sys2Proof

def exec (i : Instr) (s : State) : Host.Outcome State Fault Refusal :=
  match i with
  | .nop => Sys2Proof.Machine.execNop s
  | .clear => Sys2Proof.Machine.execClear s
  | .faSym sym => Sys2Proof.Machine.execFaSym sym s
  | .faFin => Sys2Proof.Machine.execFaFin s
  | .leafPush sym v => Sys2Proof.Machine.execLeafPush sym v s
  | .build => Sys2Proof.Machine.execBuild s
  | .gen => Sys2Proof.Machine.execGen s
  | .encSym sym => Sys2Proof.Machine.execEncSym sym s
  | .encFin => Sys2Proof.Machine.execEncFin s
  | .decByte b => Sys2Proof.Machine.execDecByte b s
  | .decFin => Sys2Proof.Machine.execDecFin s
  | .rdCsr n => Sys2Proof.Machine.execRdCsr n s
  | .rdNode k => Sys2Proof.Machine.execRdNode k s
  | .rdCode sym k => Sys2Proof.Machine.execRdCode sym k s
  | .rdCnt sym => Sys2Proof.Machine.execRdCnt sym s

end Sys2Proof.Machine
end

