-- ==== Sys2Proof/Machine/Fetch.lean ====
section
/-! DEFINITION. Taking a command word from the command port and running it (spec/20_memory.md R77, R81,
spec/30_encoding.md R90, R95). The block stores no commands and has no program counter (spec/10_state.md R31): the words
the host has issued and the engine has not taken stand in `cmdIn`, in the order issued. -/

namespace Sys2Proof.Machine

open Sys2Proof

/-- The next command word of the port, and the state in which it has been taken. -/
def State.takeCommand (s : State) : Option (Word64 × State) :=
  match s.cmdIn with
  | [] => none
  | w :: ws => some (w, { s with cmdIn := ws })

/-- The state in which the host has issued the command word `w` behind those already at the port (R81). -/
def State.issue (s : State) (w : Word64) : State := { s with cmdIn := s.cmdIn ++ [w] }

/-- The state in which `w` stands ahead of the words already at the port. -/
def State.issueFirst (s : State) (w : Word64) : State := { s with cmdIn := w :: s.cmdIn }

/-- Between commands the engine is idle and holds its state (R225, R232). -/
def idle (s : State) : Result := .next s

/-- A taken command word, decoded and executed; a word that does not decode is answered `{ERR_ILLEGAL, 0}` and changes
nothing, in every state (R95, R97, R205). -/
def runWord (w : Word64) (s : State) : Result :=
  match decode w with
  | .ok i => exec i s
  | .error _ => refuse .errIllegal s

end Sys2Proof.Machine
end

