-- ==== Sys2Proof/Machine/Step.lean ====
section
/-! DEFINITION. One step: the engine takes one command word from the command port, decodes it, executes it to
completion and answers exactly one response word (spec/00_scope.md R10, spec/30_encoding.md R90). -/

namespace Sys2Proof.Machine

open Sys2Proof

/-- One step: the word at the head of the command port runs; with none there the engine is idle (R225, R232). -/
def step (s : State) : Host.Outcome State Fault Refusal :=
  match s.takeCommand with
  | none => idle s
  | some (w, s) => runWord w s

/-- The state with one command word issued ahead of those already at the port: the word the next step takes. -/
def State.withFetchWord (s : State) (nbits w : Nat) : State := s.issueFirst (tableWord nbits w)

end Sys2Proof.Machine
end

