-- ==== Sys2Proof/Machine/Assembly.lean ====
section
/-! DEFINITION. Command scripts: the assembler syntax of spec/30_encoding.md R99 and the five pseudo-commands of R100,
expanded as spec/46_composite_operations_and_properties.md R195 to R199 say. The machine itself sees command words
only; neither the decoder nor the step uses this file. -/

namespace Sys2Proof

/-! ### Pseudo-commands (R195 to R199) -/

/-- `BUILD_FREQ s0, ..., s(n−1)`: `FA_SYM` of each, then `FA_FIN` (R195). -/
def buildFreq (S : List Sym) : List Instr := S.map .faSym ++ [.faFin]

/-- `BUILD_TREE`: the one command `BUILD` (R196). -/
def buildTree : List Instr := [.build]

/-- `BUILD_CODES`: the one command `GEN` (R197). -/
def buildCodes : List Instr := [.gen]

/-- `ENCODE s0, ..., s(n−1)`: `ENC_SYM` of each, then `ENC_FIN` (R198). -/
def encodeMessage (S : List Sym) : List Instr := S.map .encSym ++ [.encFin]

/-- `DECODE b0, ..., b(m−1)`: `DEC_BYTE` of each, then `DEC_FIN` (R199). -/
def decodeStream (Y : List Byte) : List Instr := Y.map .decByte ++ [.decFin]

/-! ### The text of one line (R99) -/

/-- What a line is made of: a run of letters, digits and underscores; a comma; a quoted character. -/
inductive Token where
  | word (cs : List Char)
  | comma
  | quoted (c : Char)
  deriving DecidableEq, Repr

/-- A printable character (R99): a 7-bit code from the space to the tilde. -/
def printable (c : Char) : Bool := decide (32 ≤ c.toNat) && decide (c.toNat ≤ 126)

def wordChar (c : Char) : Bool := c.isAlphanum || c == '_'

/-- The word collected so far (last character first), if any, ahead of the tokens that follow. -/
def flush (acc : List Char) (ts : List Token) : List Token :=
  match acc with
  | [] => ts
  | _ :: _ => .word acc.reverse :: ts

/-- The tokens of a line; `#` outside a quoted character starts a comment that runs to the end of the line. -/
def tokens (acc : List Char) : List Char → Option (List Token)
  | [] => some (flush acc [])
  | '\'' :: c :: '\'' :: rest =>
    if printable c then (tokens [] rest).map fun ts => flush acc (.quoted c :: ts) else none
  | c :: rest =>
    if c = '#' then some (flush acc [])
    else if c = ',' then (tokens [] rest).map fun ts => flush acc (.comma :: ts)
    else if c.isWhitespace then (tokens [] rest).map (flush acc)
    else if wordChar c then tokens (c :: acc) rest
    else none

/-- The value of a digit in the given base. -/
def digitOf (base : Nat) (c : Char) : Option Nat :=
  let v := if c.isDigit then c.toNat - 48
    else if 'a' ≤ c ∧ c ≤ 'f' then c.toNat - 87
    else if 'A' ≤ c ∧ c ≤ 'F' then c.toNat - 55
    else base
  if v < base then some v else none

def digitsFrom (base : Nat) : Nat → List Char → Option Nat
  | v, [] => some v
  | v, c :: cs => (digitOf base c).bind fun d => digitsFrom base (base * v + d) cs

/-- A number: decimal, or hexadecimal after `0x` (R99). -/
def numberOf : List Char → Option Nat
  | [] => none
  | '0' :: 'x' :: c :: cs => digitsFrom 16 0 (c :: cs)
  | c :: cs => digitsFrom 10 0 (c :: cs)

/-- An operand as written: a number, or a character, which only a symbol operand may be (R99). -/
inductive Operand where
  | number (v : Nat)
  | char (v : Nat)
  deriving DecidableEq, Repr

def operandOf : Token → Option Operand
  | .word cs => (numberOf cs).map .number
  | .quoted c => some (.char c.toNat)
  | .comma => none

/-- The operands of a line, separated by commas. -/
def operandList : List Token → Option (List Operand)
  | [] => some []
  | [t] => (operandOf t).map fun o => [o]
  | t :: .comma :: t' :: ts => (operandOf t).bind fun o => (operandList (t' :: ts)).map fun os => o :: os
  | _ :: _ => none

def Operand.value : Operand → Nat
  | .number v => v
  | .char v => v

/-- The operand of a kind: a character is allowed where the kind is a symbol. -/
def operandFits : OperandKind → Operand → Bool
  | .sym, _ => true
  | _, .number _ => true
  | _, .char _ => false

def operandsFit : List OperandKind → List Operand → Bool
  | k :: ks, o :: os => operandFits k o && operandsFit ks os
  | _, [] => true
  | [], _ :: _ => false

/-- The mnemonic a word names (R96, R99: in capitals). -/
def mnemonicOf (cs : List Char) : Option Mnemonic :=
  match String.ofList cs with
  | "NOP" => some .NOP
  | "CLEAR" => some .CLEAR
  | "FA_SYM" => some .FA_SYM
  | "FA_FIN" => some .FA_FIN
  | "LEAF_PUSH" => some .LEAF_PUSH
  | "BUILD" => some .BUILD
  | "GEN" => some .GEN
  | "ENC_SYM" => some .ENC_SYM
  | "ENC_FIN" => some .ENC_FIN
  | "DEC_BYTE" => some .DEC_BYTE
  | "DEC_FIN" => some .DEC_FIN
  | "RD_CSR" => some .RD_CSR
  | "RD_NODE" => some .RD_NODE
  | "RD_CODE" => some .RD_CODE
  | "RD_CNT" => some .RD_CNT
  | _ => none

/-- The symbols written as a pseudo-command's operands. -/
def symbolsOf : List Operand → Option (List Sym)
  | [] => some []
  | o :: os =>
    if OperandKind.sym.legal o.value then (symbolsOf os).map fun S => BitVec.ofNat 7 o.value :: S else none

/-- The bytes written as a pseudo-command's operands. -/
def bytesOf : List Operand → Option (List Byte)
  | [] => some []
  | .number v :: os =>
    if OperandKind.byte.legal v then (bytesOf os).map fun Y => BitVec.ofNat 8 v :: Y else none
  | .char _ :: _ => none

/-- The commands of a pseudo-command (R100), `none` where the word names none or an operand is illegal. -/
def pseudo (cs : List Char) (ops : List Operand) : Option (List Instr) :=
  match String.ofList cs, ops with
  | "BUILD_FREQ", ops => (symbolsOf ops).map buildFreq
  | "BUILD_TREE", [] => some buildTree
  | "BUILD_CODES", [] => some buildCodes
  | "ENCODE", ops => (symbolsOf ops).map encodeMessage
  | "DECODE", ops => (bytesOf ops).map decodeStream
  | _, _ => none

/-- One line of a script: no command on an empty or comment line, one for a command, several for a pseudo-command;
`none` is an assembly error. -/
def assembleLine (line : List Char) : Option (List Instr) := do
  match ← tokens [] line with
  | [] => some []
  | .word cs :: ts =>
    let ops ← operandList ts
    match mnemonicOf cs with
    | some m =>
      if operandsFit m.operands ops then
        (AsmCmd.mk m (ops.map Operand.value)).toInstr.map fun i => [i]
      else none
    | none => pseudo cs ops
  | _ :: _ => none

/-- A script: its lines in order. -/
def assemble : List (List Char) → Option (List Instr)
  | [] => some []
  | l :: ls => (assembleLine l).bind fun is => (assemble ls).map fun js => is ++ js

/-- The command words of a script, in order. -/
def assembleWords (lines : List (List Char)) : Option (List Word64) := (assemble lines).map (List.map encode)

end Sys2Proof
end

