-- ==== Sys2Proof/Safety.lean ====
section
/-! DEFINITION. What a good state is: the invariants of spec/10_state.md R61 with the tree structure of R48, as one
predicate `Inv`, which `invCheck` decides; and runs of several commands, as the pseudo-commands of
spec/46_composite_operations_and_properties.md R195 to R199 need them. -/

namespace Sys2Proof.Machine

open Sys2Proof

/-! ### The invariants of R61 -/

/-- The leaf list: the first `NLEAF` entries of `NODE` (R49). -/
def State.leaves (s : State) : List NodeEntry := s.node.take s.nleaf

/-- The parameter's range: 1 ≤ `BITBUF_MAX` (R7), and `BITLEN` ≤ `BITBUF_MAX` (R44). -/
abbrev InvBuffer (s : State) : Prop := 1 ≤ s.bitbufMax.toNat ∧ s.bitlen ≤ s.bitbufMax.toNat

/-- R61 item 11 (R42, R49): the leaves are leaves, with distinct symbols and non-decreasing weights, and `TOTAL` is
their sum. -/
abbrev InvLeaves (s : State) : Prop :=
  s.nleaf ≤ s.nnode ∧ (∀ e ∈ s.leaves, e.isLeaf = true) ∧ (s.leaves.map NodeEntry.sym).Nodup ∧
  s.leaves.Pairwise (fun a b => a.wgt ≤ b.wgt) ∧
  (s.leaves.map fun e => e.wgt.toNat).sum = s.total.toNat

/-- R61 item 2: before `BUILD` there is only the leaf list. -/
abbrev InvEarly (s : State) : Prop :=
  s.phase = .load ∨ s.phase = .leaves →
    s.nnode = s.nleaf ∧ s.root = none ∧ s.cur = none ∧ s.code = Vector.replicate 128 none ∧ s.act = .idle

/-- R61 items 3, 4 and 12: `NSYM` is the sum of the counters, and how it stands to the leaf list. -/
abbrev InvCounts (s : State) : Prop :=
  s.nsym.toNat = (s.cnt.toList.map BitVec.toNat).sum ∧
  (s.phase = .load → (s.nsym = 0#32 ∨ s.nleaf = 0) ∧ s.phantom = false) ∧
  (s.phase = .leaves → s.nleaf ≠ 1 ∧ s.total = s.nsym)

/-- R48 for one internal node: both children have smaller indices, and its weight is the sum of theirs. -/
def innerOk (node : List NodeEntry) (i : NodeIdx) : Bool :=
  match node[i]? with
  | some (.inner w l r) =>
    decide (l < i) && decide (r < i) &&
      match node[l]?, node[r]? with
      | some a, some b => w.toNat == a.wgt.toNat + b.wgt.toNat
      | _, _ => false
  | _ => false

/-- The child references of a node, left first. -/
def NodeEntry.children : NodeEntry → List NodeIdx
  | .leaf _ _ => []
  | .inner _ l r => [l, r]

/-- R48: with `n` leaves the entries from `n` up to 2n − 2 are internal nodes, and every index but the last is the child
of exactly one of them. -/
abbrev TreeOk (node : List NodeEntry) (n : Nat) : Prop :=
  node.length = 2 * n - 1 ∧ (∀ i, i < node.length → n ≤ i → innerOk node i = true) ∧
  ((node.drop n).flatMap NodeEntry.children).Perm (List.range (2 * n - 2))

/-- R61 item 5: after `BUILD` there is the finished tree, or none. -/
abbrev InvTree (s : State) : Prop :=
  s.phase = .tree ∨ s.phase = .codes →
    s.nleaf ≠ 1 ∧ (s.nleaf = 0 → s.node = [] ∧ s.root = none) ∧
    (2 ≤ s.nleaf → TreeOk s.node s.nleaf ∧ s.root = some (s.nnode - 1))

/-- R61 item 6 (R51): no code before `GEN`; after it the table of the tree's paths. -/
abbrev InvCode (s : State) : Prop :=
  (s.phase = .tree → s.code = Vector.replicate 128 none) ∧
  (s.phase = .codes → (treePaths s.node s.root).map codeTable = some s.code)

/-- R61 items 7 and 8 (R36, R41, R44): what is in flight. -/
abbrev InvActivity (s : State) : Prop :=
  (s.act = .encoding → s.phase = .codes ∧ s.b ≠ []) ∧ (s.act ≠ .encoding → s.b = []) ∧
  (s.act = .decoding → s.phase = .tree ∨ s.phase = .codes) ∧ (s.act ≠ .decoding → s.cur = s.root)

/-- R61 item 9 (R41): the walk position is `NIL` exactly when there is no tree, and otherwise an internal node. -/
abbrev InvCursor (s : State) : Prop :=
  (s.cur = none ↔ s.root = none) ∧ ∀ i ∈ s.cur, (s.node[i]?).map NodeEntry.isLeaf = some false

/-- R61 item 10 (R204): the fault registers. -/
abbrev InvFault (s : State) : Prop :=
  (s.fault = false → s.errcode = 0#8 ∧ s.errinfo = 0#16) ∧
  (s.fault = true →
    (s.errcode = 0x10#8 ∨ s.errcode = 0x11#8) ∧ s.phase = .codes ∧ s.act ≠ .decoding ∧
    s.errinfo.extractLsb' 8 8 = 0x40#8)

/-- The invariants that hold at every command boundary, from reset on (R61). -/
structure Inv (s : State) : Prop where
  buffer : InvBuffer s
  leafList : InvLeaves s
  early : InvEarly s
  counts : InvCounts s
  tree : InvTree s
  code : InvCode s
  activity : InvActivity s
  cursor : InvCursor s
  faults : InvFault s

/-- `Inv`, computed. -/
def invCheck (s : State) : Bool :=
  decide (InvBuffer s) && decide (InvLeaves s) && decide (InvEarly s) && decide (InvCounts s) && decide (InvTree s) &&
  decide (InvCode s) && decide (InvActivity s) && decide (InvCursor s) && decide (InvFault s)

/-! ### Runs of commands -/

/-- Several commands, one after another, stopping where the model stops (R81). -/
def execAll : List Instr → State → Result
  | [], s => .next s
  | i :: is, s =>
    match exec i s with
    | .next t => execAll is t
    | .fault r => .fault r
    | .refused r => .refused r

/-- What a command that completes leaves and answers: the next state and the `data` of its response; `none` where it answers
another code than `OK` or the model stops. -/
def okAnswer : Result → Option (State × Data)
  | .next t =>
    match t.rspOut.getLast? with
    | some r => if r.extractLsb' 56 8 = RspCode.ok.byte then some (t, r.extractLsb' 0 56) else none
    | none => none
  | .fault _ => none
  | .refused _ => none

/-- A run of commands all of which answer `OK`: the state after it and the `data` of each response. -/
def execOk : List Instr → State → Option (State × List Data)
  | [], s => some (s, [])
  | i :: is, s => (okAnswer (exec i s)).bind fun p => (execOk is p.1).map fun q => (q.1, p.2 :: q.2)

/-! ### The two-queue merge, iteration by iteration -/

/-- The queues at the start of the loop: `SH` = 0, `TH` = `TT` = `NLEAF` (R126). -/
def State.queues (s : State) : Queues := { node := s.leaves, nleaf := s.nleaf, sh := 0, th := s.nleaf }

/-- The queues after `n` iterations of the loop's body (R127). -/
def Queues.iterate : Nat → Queues → Option Queues
  | 0, q => some q
  | n + 1, q => q.mergeOne.bind (Queues.iterate n)

/-! ### Whole messages and whole streams -/

/-- The bits a message's codewords make, one after another (R160): `none` where a symbol has no codeword. -/
def payloadOf (code : Vector (Option Codeword) 128) : List Sym → Option Bits
  | [] => some []
  | s :: ss =>
    match getSym code s with
    | none => none
    | some c => (payloadOf code ss).map fun bs => c.bits ++ bs

/-- The payload of a whole encoded stream, as the document computes it (R176): all bytes unpacked, then the first 8 bits
scanned for the first 1; the bits up to and including it are dropped, or the first 8 bits where there is none. -/
def streamPayload (Y : List Byte) : Bits :=
  let U := Y.flatMap bits8
  if (U.take 8).any id then U.drop ((U.take 8).findIdx id + 1) else U.drop 8

/-- Following a path of turns down the tree from a node (R143): 0 left, 1 right. -/
def descend (node : List NodeEntry) : NodeIdx → Bits → Option NodeIdx
  | i, [] => some i
  | i, t :: ts =>
    match childOf node (some i) t with
    | none => none
    | some c => descend node c ts

/-- `D` lists exactly the symbols with `CNT[s]` > 0, with their counts, in the strict total order of R114. -/
def SortedCounts (cnt : Vector (BitVec 32) 128) (D : List (Sym × Wgt)) : Prop :=
  D.Pairwise (fun x y => x.2 < y.2 ∨ (x.2 = y.2 ∧ x.1 < y.1)) ∧
  ∀ p, p ∈ D ↔ p.2 = getSym cnt p.1 ∧ p.2 ≠ 0#32

/-! ### The tables of R207 and R210 -/

/-- R210, column "condition". -/
def seqCond (s : State) : Instr → Prop
  | .faSym _ | .faFin => s.phase = .load ∧ s.nleaf = 0
  | .leafPush _ _ => s.phase = .load ∧ s.nsym = 0#32
  | .build => s.phase = .leaves ∨ (s.phase = .load ∧ s.nsym = 0#32)
  | .gen => s.phase = .tree
  | .encSym _ | .encFin => s.phase = .codes ∧ (s.act = .idle ∨ s.act = .encoding)
  | .decByte _ | .decFin => (s.phase = .tree ∨ s.phase = .codes) ∧ (s.act = .idle ∨ s.act = .decoding)
  | .nop | .clear | .rdCsr _ | .rdNode _ | .rdCode _ _ | .rdCnt _ => True

/-- R210, column "`PHASE` after". -/
def phaseAfter (s : State) : Instr → Phase
  | .faSym _ | .leafPush _ _ | .clear => .load
  | .faFin => .leaves
  | .build => .tree
  | .gen | .encSym _ | .encFin => .codes
  | .decByte _ | .decFin | .nop | .rdCsr _ | .rdNode _ | .rdCode _ _ | .rdCnt _ => s.phase

/-- R210, column "`ACT` after". -/
def actAfter (s : State) : Instr → Act
  | .faSym _ | .faFin | .leafPush _ _ | .build | .encFin | .decFin | .clear => .idle
  | .encSym _ => .encoding
  | .decByte _ => .decoding
  | .gen | .nop | .rdCsr _ | .rdNode _ | .rdCode _ _ | .rdCnt _ => s.act

/-- R207: the codes other than `OK` each command can return. -/
def codesOf : Mnemonic → List RspCode
  | .NOP | .CLEAR | .RD_CODE | .RD_CNT => []
  | .RD_CSR | .RD_NODE => [.errIndex]
  | .FA_SYM => [.errFaulted, .errSeq, .errCntovf]
  | .FA_FIN | .GEN | .ENC_FIN | .DEC_BYTE | .DEC_FIN => [.errFaulted, .errSeq]
  | .LEAF_PUSH => [.errFaulted, .errSeq, .errDup, .errOrder, .errWovf]
  | .BUILD => [.errFaulted, .errSeq, .errNleaf]
  | .ENC_SYM => [.errFaulted, .errSeq, .fltNocode, .fltBufovf]

/-- The code of the last response given, as a byte. -/
def State.lastCode (s : State) : Option Byte := s.rspOut.getLast?.map fun r => r.extractLsb' 56 8

/-- The same state with more already emitted on the two output streams. -/
def State.behind (s : State) (p : List Byte) (q : List Sym) : State :=
  { s with outBytes := p ++ s.outBytes, outSyms := q ++ s.outSyms }

end Sys2Proof.Machine
end

