-- ==== Sys2Proof/Certificates/Slice0/Obligations.lean ====
section
/-! DEFINITION. The statements for the provers, in the order of OBLIGATIONS.json. A response is written with the shared
operation `State.answer`, which appends one response word; `rspWord c d` is `{c, d}` (spec/30_encoding.md R93). -/

open Sys2Proof Sys2Proof.Machine

/-! ### Encoding and the step -/

/-- R96, R99: words written out from the encoding table decode to the commands they stand for. -/
def Obligations.KnownWordsDecode : Prop :=
  decode 0x0000000000000000#64 = .ok .nop ∧
  decode 0x0100000000000000#64 = .ok .clear ∧
  decode 0x1000006100000000#64 = .ok (.faSym 97#7) ∧
  decode 0x1100000000000000#64 = .ok .faFin ∧
  decode 0x20000006FFFFFFFF#64 = .ok (.leafPush 6#7 0xFFFFFFFF#32) ∧
  decode 0x2100000000000000#64 = .ok .build ∧
  decode 0x3000000000000000#64 = .ok .gen ∧
  decode 0x4000007A00000000#64 = .ok (.encSym 122#7) ∧
  decode 0x4100000000000000#64 = .ok .encFin ∧
  decode 0x500000FF00000000#64 = .ok (.decByte 0xFF#8) ∧
  decode 0x5100000000000000#64 = .ok .decFin ∧
  decode 0x6000000B00000000#64 = .ok (.rdCsr 11#8) ∧
  decode 0x610000FE00000000#64 = .ok (.rdNode 254#8) ∧
  decode 0x6200000100000003#64 = .ok (.rdCode 1#7 3#2) ∧
  decode 0x6300004100000000#64 = .ok (.rdCnt 65#7)

/-- R91, R95, R96: decoding an encoded command gives the command back, whatever its operands. -/
def Obligations.EncodeThenDecode : Prop :=
  ∀ i : Instr, decode (encode i) = .ok i

/-- R91, R95: a word that decodes is the encoding of what it decodes to, so no bit of it is dropped. -/
def Obligations.DecodeThenEncode : Prop :=
  ∀ (w : Word64) (i : Instr), decode w = .ok i → encode i = w

/-- R94: a word is a row's command exactly when it satisfies the row; a mask has a 1 at every bit that is not an operand's;
a word satisfies at most one row. -/
def Obligations.WordIsAtMostOneRow : Prop :=
  opcodeTable.length = 15 ∧
  (∀ r ∈ opcodeTable, ∀ k < 64, r.mask.getLsbD k = !(r.mnem.operands.any fun o => o.holdsBit k)) ∧
  ∀ w : Word64,
    (∀ r ∈ opcodeTable, w &&& r.mask = r.pattern ↔ ∃ i, decode w = .ok i ∧ i.mnemonic = r.mnem) ∧
    ∀ r ∈ opcodeTable, ∀ r' ∈ opcodeTable, w &&& r.mask = r.pattern → w &&& r'.mask = r'.pattern → r = r'

/-- R205: a word that matches no row is answered `{ERR_ILLEGAL, 0}` and changes nothing, in every state. -/
def Obligations.UnmatchedWordIsIllegal : Prop :=
  ∀ (s : State) (w : Word64) (ws : List Word64), s.cmdIn = w :: ws →
    (∀ r ∈ opcodeTable, w &&& r.mask ≠ r.pattern) →
    step s = .next (State.answer { s with cmdIn := ws } 0x0100000000000000#64)

/-- R10, R95: a step takes the next command word and runs the command it decodes to. -/
def Obligations.StepRunsDecodedCommand : Prop :=
  ∀ (s : State) (w : Word64) (ws : List Word64) (i : Instr), s.cmdIn = w :: ws → decode w = .ok i →
    step s = exec i { s with cmdIn := ws }

/-- R225: with no command word at the port the engine is idle and holds its state. -/
def Obligations.IdleEngineHoldsState : Prop :=
  ∀ s : State, s.cmdIn = [] → step s = .next s

/-- R81, R90, R243: in every state that meets the invariants, a step with a command word at the port takes that word and
answers exactly one response word; no step stops. -/
def Obligations.EveryWordGetsOneResponse : Prop :=
  ∀ (s : State) (w : Word64) (ws : List Word64), Inv s → s.cmdIn = w :: ws →
    ∃ (t : State) (r : Word64), step s = .next t ∧ t.cmdIn = ws ∧ t.rspOut = s.rspOut ++ [r]

/-- R61, R48: every step keeps the invariants. -/
def Obligations.StepKeepsInvariants : Prop :=
  ∀ s t : State, Inv s → step s = .next t → Inv t

/-! ### Reset, `NOP`, `CLEAR` -/

/-- R61: the invariants hold after reset, for every value of the parameter `BITBUF_MAX` in its range (R7); the value
65536 of `State.reset` is the parameter's default, the model's choice of an open parameter (notes/assumptions/1.md). -/
def Obligations.ResetMeetsInvariants : Prop :=
  (∀ m : BitVec 32, 1 ≤ m.toNat → Inv (State.resetWith m)) ∧ Inv State.reset

/-- R59: every item of state after hardware reset, and after `CLEAR`, which differs only in leaving the output streams. -/
def Obligations.ResetAndClearState : Prop :=
  (∀ m : BitVec 32,
    let s := State.resetWith m
    s.csr 0#8 = some 0x48554631#32 ∧ s.csr 1#8 = some 0#32 ∧ s.csr 2#8 = some 0#32 ∧ s.csr 3#8 = some 0#32 ∧
    s.csr 4#8 = some 0xFF#32 ∧ s.csr 5#8 = some 0#32 ∧ s.csr 6#8 = some 0#32 ∧ s.csr 7#8 = some 0#32 ∧
    s.csr 8#8 = some 0xFF#32 ∧ s.csr 9#8 = some 0#32 ∧ s.csr 10#8 = some 0#32 ∧ s.csr 11#8 = some m ∧
    s.phase = .load ∧ s.fault = false ∧ s.act = .idle ∧ s.phantom = false ∧ s.nosent = false ∧ s.trunc = false ∧
    s.dempty = false ∧ s.notree = false ∧ s.root = none ∧ s.cur = none ∧
    (∀ i : Nat, s.node[i]? = none) ∧ (∀ x, getSym s.code x = none) ∧ (∀ x, getSym s.cnt x = 0#32) ∧ s.b = [] ∧
    s.outBytes = [] ∧ s.outSyms = []) ∧
  ∀ s : State, ∃ t, exec .clear s = .next t ∧ t.outBytes = s.outBytes ∧ t.outSyms = s.outSyms ∧
    { t with outBytes := [], outSyms := [], cmdIn := [], rspOut := [] } = State.resetWith s.bitbufMax

/-- R181: in any state the all-zero word answers zero and the state is unchanged. -/
def Obligations.NopAnswersZero : Prop :=
  ∀ s : State, exec .nop s = .next (s.answer 0#64) ∧ runWord 0x0000000000000000#64 s = .next (s.answer 0#64)

/-- R231: after `CLEAR` the state is the reset state but for the two output streams, and the answer is 0. What stands at
the host's ports stays too (the model's own fields, notes/assumptions/2.md). -/
def Obligations.ClearReturnsToReset : Prop :=
  ∀ s : State, exec .clear s = .next (State.answer
    { State.resetWith s.bitbufMax with
      outBytes := s.outBytes, outSyms := s.outSyms, cmdIn := s.cmdIn, rspOut := s.rspOut } 0#64)

/-! ### The frequency front end -/

/-- R111: `FA_SYM s` counts one occurrence of `s`; its refusals in the order of test. -/
def Obligations.FaSymCountsOneOccurrence : Prop :=
  ∀ (x : Sym) (s : State),
    (encode (.faSym x)).toNat = 0x1000000000000000 + x.toNat * 2 ^ 32 ∧
    (s.fault = true → exec (.faSym x) s = .next (s.answer (rspWord .errFaulted 0#56))) ∧
    (s.fault = false → ¬(s.phase = .load ∧ s.nleaf = 0) →
      exec (.faSym x) s = .next (s.answer (rspWord .errSeq 0#56))) ∧
    (s.fault = false → s.phase = .load → s.nleaf = 0 → s.nsym.toNat = 2 ^ 32 - 1 →
      exec (.faSym x) s = .next (s.answer (rspWord .errCntovf 0#56))) ∧
    (s.fault = false → s.phase = .load → s.nleaf = 0 → s.nsym.toNat < 2 ^ 32 - 1 →
      exec (.faSym x) s = .next (State.answer
        { s with cnt := setSym s.cnt x (getSym s.cnt x + 1#32), nsym := s.nsym + 1#32 }
        (rspWord .ok ((getSym s.cnt x + 1#32).setWidth 56))))

/-- R113 to R116: `FA_FIN` makes the leaf list: the counted symbols in the one order of R114, at most 128 of them, with a
phantom leaf first where there is exactly one distinct symbol; its refusals. -/
def Obligations.FaFinBuildsSortedLeafList : Prop :=
  ∀ s : State,
    (encode .faFin).toNat = 0x1100000000000000 ∧
    (s.fault = true → exec .faFin s = .next (s.answer (rspWord .errFaulted 0#56))) ∧
    (s.fault = false → ¬(s.phase = .load ∧ s.nleaf = 0) → exec .faFin s = .next (s.answer (rspWord .errSeq 0#56))) ∧
    (∃! D, SortedCounts s.cnt D) ∧ (∀ D, SortedCounts s.cnt D → D.length ≤ 128) ∧
    ∀ D, SortedCounts s.cnt D → s.fault = false → s.phase = .load → s.nleaf = 0 →
      (D.length ≠ 1 →
        exec .faFin s = .next (State.answer
          { s with
            node := D.map fun p => NodeEntry.leaf p.1 p.2
            nleaf := D.length
            total := s.nsym
            phase := .leaves }
          (rspWord .ok (BitVec.ofNat 56 D.length)))) ∧
      ∀ c n, D = [(c, n)] →
        exec .faFin s = .next (State.answer
          { s with
            node := [NodeEntry.leaf (if c = 127#7 then 1#7 else c + 1#7) 0#32, NodeEntry.leaf c n]
            nleaf := 2
            total := s.nsym
            phantom := true
            phase := .leaves }
          (rspWord .ok 2#56))

/-! ### The tree builder -/

/-- R121: `LEAF_PUSH s, v` appends one leaf, or refuses, in the order of test; in states that meet the invariants. -/
def Obligations.LeafPushAppendsOneLeaf : Prop :=
  ∀ (x : Sym) (v : Wgt) (s : State), Inv s →
    (encode (.leafPush x v)).toNat = 0x2000000000000000 + x.toNat * 2 ^ 32 + v.toNat ∧
    (s.fault = true → exec (.leafPush x v) s = .next (s.answer (rspWord .errFaulted 0#56))) ∧
    (s.fault = false → ¬(s.phase = .load ∧ s.nsym = 0#32) →
      exec (.leafPush x v) s = .next (s.answer (rspWord .errSeq 0#56))) ∧
    (s.fault = false → s.phase = .load → s.nsym = 0#32 →
      ((∃ e ∈ s.node, e.sym = x) → exec (.leafPush x v) s = .next (s.answer (rspWord .errDup 0#56))) ∧
      ((∀ e ∈ s.node, e.sym ≠ x) →
        ((∃ e, s.node.getLast? = some e ∧ v < e.wgt) →
          exec (.leafPush x v) s = .next (s.answer (rspWord .errOrder 0#56))) ∧
        ((∀ e, s.node.getLast? = some e → e.wgt ≤ v) →
          (s.total.toNat + v.toNat > 2 ^ 32 - 1 →
            exec (.leafPush x v) s = .next (s.answer (rspWord .errWovf 0#56))) ∧
          (s.total.toNat + v.toNat ≤ 2 ^ 32 - 1 →
            exec (.leafPush x v) s = .next (State.answer
              { s with node := s.node ++ [.leaf x v], total := s.total + v, nleaf := s.nleaf + 1 }
              (rspWord .ok (BitVec.ofNat 56 s.nleaf)))))))

/-- R123, R124: `BUILD` with no leaf makes no tree and answers 0xFF, with one leaf it is refused, and after `FA_FIN` the
one-leaf case does not arise; its other refusals. -/
def Obligations.BuildOfNoLeafAndOfOneLeaf : Prop :=
  ∀ s : State,
    (s.fault = true → exec .build s = .next (s.answer (rspWord .errFaulted 0#56))) ∧
    (s.fault = false → ¬(s.phase = .leaves ∨ (s.phase = .load ∧ s.nsym = 0#32)) →
      exec .build s = .next (s.answer (rspWord .errSeq 0#56))) ∧
    (s.fault = false → (s.phase = .leaves ∨ (s.phase = .load ∧ s.nsym = 0#32)) → s.nleaf = 1 →
      exec .build s = .next (s.answer (rspWord .errNleaf 0#56))) ∧
    (s.fault = false → (s.phase = .leaves ∨ (s.phase = .load ∧ s.nsym = 0#32)) → s.nleaf = 0 →
      exec .build s = .next (State.answer
        { s with root := none, cur := none, node := [], phase := .tree } (rspWord .ok 0xFF#56))) ∧
    (Inv s → s.phase = .leaves → s.nleaf ≠ 1)

/-- R123, R125 to R130, R48: `BUILD` of n ≥ 2 leaves makes the node array of the two-queue merge: exactly n − 1 iterations
of the loop's body, which `TakePrefersSourceOnTies` gives, the loop's end test false before each and true after the last. It
keeps the leaves and adds n − 1 internal nodes that make one tree, its root the last, of weight `TOTAL`. -/
def Obligations.BuildMakesTheTree : Prop :=
  ∀ s : State, Inv s → s.fault = false → (s.phase = .leaves ∨ (s.phase = .load ∧ s.nsym = 0#32)) → 2 ≤ s.nleaf →
    ∃ inner : List NodeEntry,
      exec .build s = .next (State.answer
        { s with
          node := s.node ++ inner
          root := some (2 * s.nleaf - 2)
          cur := some (2 * s.nleaf - 2)
          phase := .tree }
        (rspWord .ok (BitVec.ofNat 56 (2 * s.nleaf - 2)))) ∧
      Queues.iterate (s.nleaf - 1) s.queues =
        some { node := s.node ++ inner, nleaf := s.nleaf, sh := s.nleaf, th := 2 * s.nleaf - 2 } ∧
      (∀ k < s.nleaf - 1, ∃ q, Queues.iterate k s.queues = some q ∧
        ¬(q.sh = q.nleaf ∧ q.node.length = q.th + 1)) ∧
      inner.length = s.nleaf - 1 ∧ TreeOk (s.node ++ inner) s.nleaf ∧
      (inner.getLast?).map NodeEntry.wgt = some s.total

/-- R131: the internal nodes stand in non-decreasing order of weight, in the order of their creation; since an entry is
never rewritten, `target` was sorted at every point of the loop. -/
def Obligations.TargetQueueStaysSorted : Prop :=
  ∀ s t : State, Inv s → s.fault = false → (s.phase = .leaves ∨ (s.phase = .load ∧ s.nsym = 0#32)) →
    exec .build s = .next t → ∀ (i : Nat) (a b : NodeEntry), s.nleaf ≤ i →
      t.node[i]? = some a → t.node[i + 1]? = some b → a.wgt ≤ b.wgt

/-- R128, R129: `take()`: from `target` where `source` is empty, from `source` where `target` is empty, otherwise from
`source` exactly where its front's weight is at most that of `target`'s front. One iteration takes twice, the second time from
the queues as the first left them, and appends an internal node: the first taken is its left child, the second its right, and
its weight the sum of theirs. -/
def Obligations.TakePrefersSourceOnTies : Prop :=
  ∀ q : Queues,
    (q.sh = q.nleaf → q.take = some (q.th, { q with th := q.th + 1 })) ∧
    (q.sh ≠ q.nleaf → q.th = q.node.length → q.take = some (q.sh, { q with sh := q.sh + 1 })) ∧
    (q.sh ≠ q.nleaf → q.th ≠ q.node.length → ∀ a b, q.node[q.sh]? = some a → q.node[q.th]? = some b →
      (a.wgt.toNat ≤ b.wgt.toNat → q.take = some (q.sh, { q with sh := q.sh + 1 })) ∧
      (b.wgt.toNat < a.wgt.toNat → q.take = some (q.th, { q with th := q.th + 1 }))) ∧
    ∀ l r q1 q2 a b, q.take = some (l, q1) → q1.take = some (r, q2) → q.node[l]? = some a → q.node[r]? = some b →
      q.mergeOne = some { q2 with node := q.node ++ [.inner (a.wgt + b.wgt) l r] }

/-- R132: `BUILD` is a function of the leaf list alone. -/
def Obligations.BuildDependsOnLeafListAlone : Prop :=
  ∀ s s' t t' : State, s.nleaf = s'.nleaf → s.leaves = s'.leaves → s.fault = false → s'.fault = false →
    seqCond s .build → seqCond s' .build → s.nleaf ≠ 1 → exec .build s = .next t → exec .build s' = .next t' →
    t.node = t'.node ∧ t.root = t'.root ∧ t.cur = t'.cur

/-! ### The code generator -/

/-- R141, R51: `GEN` answers `NLEAF`, writes only `CODE` and `PHASE`, and gives a codeword exactly to the symbols of the
leaves; its refusals. -/
def Obligations.GenWritesOneCodePerLeaf : Prop :=
  ∀ s : State,
    (s.fault = true → exec .gen s = .next (s.answer (rspWord .errFaulted 0#56))) ∧
    (s.fault = false → s.phase ≠ .tree → exec .gen s = .next (s.answer (rspWord .errSeq 0#56))) ∧
    (Inv s → s.fault = false → s.phase = .tree →
      ∃ code : Vector (Option Codeword) 128,
        exec .gen s = .next (State.answer { s with code := code, phase := .codes }
          (rspWord .ok (BitVec.ofNat 56 s.nleaf))) ∧
        ∀ x, (getSym code x).isSome = true ↔ ∃ e ∈ s.leaves, e.sym = x)

/-- R143: a codeword is the path of turns from the root to its leaf, and no higher bit of `val` is set (R50). -/
def Obligations.CodewordIsThePathToItsLeaf : Prop :=
  ∀ s : State, Inv s → s.phase = .codes → ∀ x c, getSym s.code x = some c →
    c.val.toNat < 2 ^ c.len.toNat ∧ c.val.toNat = bitsValue c.bits ∧ c.bits.length = c.len.toNat ∧
    (∀ k < c.len.toNat, c.bits[k]? = some (c.val.getLsbD (c.len.toNat - 1 - k))) ∧
    ∃ r j w, s.root = some r ∧ descend s.node r c.bits = some j ∧ s.node[j]? = some (.leaf x w)

/-- R253: no codeword is a prefix of another; also as R253 states it on the fields. -/
def Obligations.CodesArePrefixFree : Prop :=
  ∀ s : State, Inv s → s.phase = .codes → ∀ x y c d, x ≠ y → getSym s.code x = some c → getSym s.code y = some d →
    ¬ c.bits <+: d.bits ∧ c.bits ≠ d.bits ∧
    (c.len.toNat ≤ d.len.toNat → d.val >>> (d.len.toNat - c.len.toNat) ≠ c.val)

/-- R145: 1 ≤ `len` ≤ `NLEAF` − 1 ≤ 127. -/
def Obligations.CodewordLengthBounds : Prop :=
  ∀ s : State, Inv s → s.phase = .codes → ∀ x c, getSym s.code x = some c →
    1 ≤ c.len.toNat ∧ c.len.toNat ≤ s.nleaf - 1 ∧ s.nleaf - 1 ≤ 127

/-- R255: the Kraft sum of the code table is 1. -/
def Obligations.KraftSumIsOne : Prop :=
  ∀ s : State, Inv s → s.phase = .codes → 2 ≤ s.nleaf →
    (allSyms.map fun x =>
      match getSym s.code x with
      | some c => (1 / 2 : ℚ) ^ c.len.toNat
      | none => 0).sum = 1

/-! ### The encoder -/

/-- R151: `ENC_SYM s` appends the codeword of `s`, or refuses or faults, in the order of test. -/
def Obligations.EncSymAppendsTheCodeword : Prop :=
  ∀ (x : Sym) (s : State),
    (encode (.encSym x)).toNat = 0x4000000000000000 + x.toNat * 2 ^ 32 ∧
    (s.fault = true → exec (.encSym x) s = .next (s.answer (rspWord .errFaulted 0#56))) ∧
    (s.fault = false → ¬(s.phase = .codes ∧ (s.act = .idle ∨ s.act = .encoding)) →
      exec (.encSym x) s = .next (s.answer (rspWord .errSeq 0#56))) ∧
    (s.fault = false → s.phase = .codes → s.act = .idle ∨ s.act = .encoding →
      (getSym s.code x = none →
        exec (.encSym x) s = .next (State.answer
          { s with fault := true, errcode := 0x10#8, errinfo := BitVec.ofNat 16 (0x40 * 256 + x.toNat) }
          (rspWord .fltNocode 0#56))) ∧
      ∀ c, getSym s.code x = some c →
        (s.b.length + c.len.toNat > s.bitbufMax.toNat →
          exec (.encSym x) s = .next (State.answer
            { s with fault := true, errcode := 0x11#8, errinfo := BitVec.ofNat 16 (0x40 * 256 + x.toNat) }
            (rspWord .fltBufovf 0#56))) ∧
        (s.b.length + c.len.toNat ≤ s.bitbufMax.toNat →
          exec (.encSym x) s = .next (State.answer { s with b := s.b ++ c.bits, act := .encoding }
            (rspWord .ok (BitVec.ofNat 56 (s.b.length + c.len.toNat))))))

/-- R153, R204, R214: in the fault state no run of commands without `CLEAR` changes anything but the responses: the fault
registers keep the first fault and nothing is emitted. -/
def Obligations.FaultHoldsUntilClear : Prop :=
  ∀ (is : List Instr) (s : State), s.fault = true → Instr.clear ∉ is →
    ∃ rs : List Word64, rs.length = is.length ∧ execAll is s = .next { s with rspOut := s.rspOut ++ rs }

/-- R155 to R157, R160: `ENC_FIN` emits floor(`BITLEN`/8) + 1 bytes that unpack to 7 − (`BITLEN` mod 8) zeros, a one, and `B`;
the first byte is not zero; then `B` is empty; its refusals. -/
def Obligations.EncFinEmitsTheFramedMessage : Prop :=
  ∀ s : State,
    (encode .encFin).toNat = 0x4100000000000000 ∧
    (s.fault = true → exec .encFin s = .next (s.answer (rspWord .errFaulted 0#56))) ∧
    (s.fault = false → ¬(s.phase = .codes ∧ (s.act = .idle ∨ s.act = .encoding)) →
      exec .encFin s = .next (s.answer (rspWord .errSeq 0#56))) ∧
    (s.fault = false → s.phase = .codes → s.act = .idle ∨ s.act = .encoding →
      ∃ bytes : List Byte,
        exec .encFin s = .next (State.answer
          { s with outBytes := s.outBytes ++ bytes, b := [], act := .idle }
          (rspWord .ok (BitVec.ofNat 56 bytes.length))) ∧
        bytes.length = s.b.length / 8 + 1 ∧ bytes.head? ≠ some 0#8 ∧
        bytes.flatMap bits8 = List.replicate (7 - s.b.length % 8) false ++ [true] ++ s.b)

/-- R158, R159: the empty message is the one byte 0x01; a payload of a whole number of bytes still gets the full padding
byte 0x01 in front. -/
def Obligations.WholeBytesGetAFullPaddingByte : Prop :=
  ∀ s : State, s.fault = false → s.phase = .codes → s.act = .idle ∨ s.act = .encoding →
    (s.b = [] → exec .encFin s = .next (State.answer
      { s with outBytes := s.outBytes ++ [0x01#8], act := .idle } (rspWord .ok 1#56))) ∧
    (s.b.length % 8 = 0 → ∃ t bytes, exec .encFin s = .next t ∧ t.outBytes = s.outBytes ++ 0x01#8 :: bytes ∧
      bytes.flatMap bits8 = s.b)

/-- R160, R254: encoding a message adds to `B` exactly its codewords, in order; before `ENC_FIN`, `BITLEN` has grown by the
sum of their lengths. -/
def Obligations.EncodingAddsTheCodewordLengths : Prop :=
  ∀ (S : List Sym) (s : State) (P : Bits), s.fault = false → s.phase = .codes → s.act = .idle ∨ s.act = .encoding →
    payloadOf s.code S = some P → s.b.length + P.length ≤ s.bitbufMax.toNat →
    (∃ t ds, execOk (S.map .encSym) s = some (t, ds) ∧ ds.length = S.length ∧
      t = { s with b := s.b ++ P, act := if S = [] then s.act else .encoding, rspOut := t.rspOut }) ∧
    P.length = (S.map fun x => ((getSym s.code x).map fun c => c.len.toNat).getD 0).sum

/-! ### The decoder -/

/-- R168, R169: the payload of a first byte is what follows its first 1 bit, 7 − p bits, p told by the byte's value; a byte
without a 1 has none; only the first byte of a stream is scanned, every bit of a later byte is payload. -/
def Obligations.SentinelIsRemoved : Prop :=
  (∀ (s : State) (b : Byte), (s.act = .idle → (s.openByte b).2 = firstPayload b) ∧
    (s.act ≠ .idle → (s.openByte b).2 = bits8 b)) ∧
  (∀ b : Byte, (bits8 b).length = 8 ∧ ∀ k < 8, (bits8 b)[k]? = some (b.getLsbD (7 - k))) ∧
  firstPayload 0#8 = [] ∧
  ∀ (b : Byte) (p : Nat), p < 8 → 2 ^ (7 - p) ≤ b.toNat → b.toNat < 2 ^ (8 - p) →
    bits8 b = List.replicate p false ++ true :: firstPayload b ∧ (firstPayload b).length = 7 - p

/-- R166, R170, R174: in states that meet the invariants `DEC_BYTE` walks the payload bits of its byte from `CUR` and emits
the symbols reached; the first byte of a stream is stripped of its sentinel and clears the flags first; its refusals. One bit of
the walk descends left on 0 and right on 1; at a leaf it emits the symbol and returns to the root; with no tree it sets
`NOTREE`. -/
def Obligations.DecByteWalksThePayload : Prop :=
  (∀ (node : List NodeEntry) (root : Option NodeIdx) (w : Walk) (t : Bool) (ts : Bits),
    walkBits node root w [] = some w ∧
    walkBits node root w (t :: ts) = (walkBit node root w t).bind fun w' => walkBits node root w' ts) ∧
  (∀ (node : List NodeEntry) (w : Walk) (t : Bool), walkBit node none w t = some { w with notree := true }) ∧
  (∀ (node : List NodeEntry) (root i l r : NodeIdx) (wt : Wgt) (w : Walk) (t : Bool),
    w.cur = some i → node[i]? = some (.inner wt l r) →
    let c := if t then r else l
    (∀ x v, node[c]? = some (.leaf x v) →
      walkBit node (some root) w t = some { w with cur := some root, syms := w.syms ++ [x] }) ∧
    (∀ v l' r', node[c]? = some (.inner v l' r') → walkBit node (some root) w t = some { w with cur := some c })) ∧
  ∀ (b : Byte) (s : State),
    (encode (.decByte b)).toNat = 0x5000000000000000 + b.toNat * 2 ^ 32 ∧
    (s.fault = true → exec (.decByte b) s = .next (s.answer (rspWord .errFaulted 0#56))) ∧
    (s.fault = false → ¬((s.phase = .tree ∨ s.phase = .codes) ∧ (s.act = .idle ∨ s.act = .decoding)) →
      exec (.decByte b) s = .next (s.answer (rspWord .errSeq 0#56))) ∧
    (Inv s → s.fault = false → s.phase = .tree ∨ s.phase = .codes →
      (s.act = .idle → ∃ w,
        walkBits s.node s.root { cur := s.cur, notree := false, syms := [] } (firstPayload b) = some w ∧
        exec (.decByte b) s = .next (State.answer
          { s with
            cur := w.cur, notree := w.notree, outSyms := s.outSyms ++ w.syms, act := .decoding
            nosent := decide (b = 0#8), trunc := false, dempty := false }
          (rspWord .ok (BitVec.ofNat 56 w.syms.length)))) ∧
      (s.act = .decoding → ∃ w,
        walkBits s.node s.root { cur := s.cur, notree := s.notree, syms := [] } (bits8 b) = some w ∧
        exec (.decByte b) s = .next (State.answer
          { s with cur := w.cur, notree := w.notree, outSyms := s.outSyms ++ w.syms }
          (rspWord .ok (BitVec.ofNat 56 w.syms.length)))))

/-- R167, R169, R173, R174: the decode flags after an accepted `DEC_BYTE`: cleared at the start of a stream, `NOSENT` where the
first byte has no 1, `NOTREE` exactly where a payload bit arrived and there is no tree; then nothing is emitted and `CUR`
stays `NIL`. -/
def Obligations.DecByteSetsTheFlags : Prop :=
  ∀ (b : Byte) (s t : State), Inv s → s.fault = false → s.phase = .tree ∨ s.phase = .codes →
    s.act = .idle ∨ s.act = .decoding → exec (.decByte b) s = .next t →
    (s.act = .idle → t.nosent = decide (b = 0#8) ∧ t.trunc = false ∧ t.dempty = false ∧
      (t.notree = true ↔ s.root = none ∧ firstPayload b ≠ [])) ∧
    (s.act = .decoding → t.nosent = s.nosent ∧ t.trunc = s.trunc ∧ t.dempty = s.dempty ∧
      (t.notree = true ↔ s.notree = true ∨ s.root = none)) ∧
    (s.root = none → t.outSyms = s.outSyms ∧ t.cur = none)

/-- R176: decoding a stream byte by byte emits exactly the symbols the document's walk of the whole payload emits. -/
def Obligations.StreamDecodesAsAWhole : Prop :=
  ∀ (Y : List Byte) (s : State), Inv s → s.fault = false → s.phase = .tree ∨ s.phase = .codes → s.act = .idle →
    Y ≠ [] → ∃ w t ds,
      walkBits s.node s.root { cur := s.root, notree := false, syms := [] } (streamPayload Y) = some w ∧
      execOk (Y.map .decByte) s = some (t, ds) ∧ t.outSyms = s.outSyms ++ w.syms ∧ t.cur = w.cur ∧
      t.notree = w.notree ∧ (ds.map BitVec.toNat).sum = w.syms.length

/-- R177: one `DEC_BYTE` emits at most 8 symbols, at most 7 on the first byte of a stream; a stream of m bytes at most
8m − 1. -/
def Obligations.DecodedSymbolsAreBounded : Prop :=
  (∀ (b : Byte) (s t : State), exec (.decByte b) s = .next t →
    t.outSyms.length ≤ s.outSyms.length + 8 ∧ (s.act = .idle → t.outSyms.length ≤ s.outSyms.length + 7)) ∧
  ∀ (Y : List Byte) (s t : State) (ds : List Data), s.act = .idle → Y ≠ [] →
    execOk (Y.map .decByte) s = some (t, ds) → t.outSyms.length ≤ s.outSyms.length + (8 * Y.length - 1)

/-- R171: `DEC_FIN` ends the stream: `TRUNC` where the walk stands inside a codeword, `DEMPTY` where there was no byte; it
answers the four flags, `NOTREE`·8 + `DEMPTY`·4 + `TRUNC`·2 + `NOSENT`; its refusals. -/
def Obligations.DecFinAnswersTheFlags : Prop :=
  ∀ s : State,
    (encode .decFin).toNat = 0x5100000000000000 ∧
    (s.fault = true → exec .decFin s = .next (s.answer (rspWord .errFaulted 0#56))) ∧
    (s.fault = false → ¬((s.phase = .tree ∨ s.phase = .codes) ∧ (s.act = .idle ∨ s.act = .decoding)) →
      exec .decFin s = .next (s.answer (rspWord .errSeq 0#56))) ∧
    (s.fault = false → s.phase = .tree ∨ s.phase = .codes → s.act = .idle →
      exec .decFin s = .next (State.answer
        { s with nosent := false, notree := false, dempty := true, trunc := decide (s.cur ≠ s.root), cur := s.root }
        (rspWord .ok (BitVec.ofNat 56 (4 + 2 * (decide (s.cur ≠ s.root)).toNat))))) ∧
    (s.fault = false → s.phase = .tree ∨ s.phase = .codes → s.act = .decoding →
      exec .decFin s = .next (State.answer
        { s with trunc := decide (s.cur ≠ s.root) || s.trunc, cur := s.root, act := .idle }
        (rspWord .ok (BitVec.ofNat 56 (8 * s.notree.toNat + 4 * s.dempty.toNat +
          2 * (decide (s.cur ≠ s.root) || s.trunc).toNat + s.nosent.toNat)))))

/-- R144, R170: every payload is the codewords of a message followed by a proper prefix of a codeword, and the walk from
the root emits exactly that message. -/
def Obligations.EveryPayloadIsCodewordsAndAPartialOne : Prop :=
  ∀ (s : State) (P : Bits), Inv s → s.phase = .codes → s.root ≠ none →
    ∃ S R r w, payloadOf s.code S = some R ∧ P = R ++ r ∧
      (∃ x c, getSym s.code x = some c ∧ r <+: c.bits ∧ r ≠ c.bits) ∧
      walkBits s.node s.root { cur := s.root, notree := false, syms := [] } P = some w ∧ w.syms = S ∧
      (w.cur = s.root ↔ r = [])

/-! ### The whole pipeline -/

/-- R250, R257: a message encoded on an engine and decoded on any engine with an equal tree comes back, every command
answers `OK`, and `DEC_FIN` answers 0; the bytes are never none and the first is not zero. -/
def Obligations.RoundTrip : Prop :=
  ∀ (S : List Sym) (P : Bits) (s : State), Inv s → s.phase = .codes → s.fault = false → s.act = .idle →
    payloadOf s.code S = some P → P.length ≤ s.bitbufMax.toNat →
    ∃ t ds Y, execOk (encodeMessage S) s = some (t, ds) ∧ t.outBytes = s.outBytes ++ Y ∧
      Y.length = P.length / 8 + 1 ∧ Y.head? ≠ some 0#8 ∧
      t = { s with outBytes := s.outBytes ++ Y, rspOut := t.rspOut } ∧
      ∀ u : State, Inv u → u.phase = .tree ∨ u.phase = .codes → u.fault = false → u.act = .idle →
        u.node = s.node → u.root = s.root →
        ∃ u' es, execOk (decodeStream Y) u = some (u', es) ∧ u'.outSyms = u.outSyms ++ S ∧
          es.getLast? = some 0#56 ∧ u'.act = .idle ∧ u'.cur = u.root

/-- R195 to R197, R250, R251, R254: from the reset state, counting any source of at most 2^32 − 1 symbols, building the
tree and the codes all answer `OK`; every symbol of the source then has a codeword, the counters hold its counts, `NSYM` and
`TOTAL` its length, and the payload's length is the sum of count times codeword length. -/
def Obligations.PipelineFromResetCompletes : Prop :=
  ∀ (S : List Sym) (s : State), s.clearState = s → 1 ≤ s.bitbufMax.toNat → S.length ≤ 2 ^ 32 - 1 →
    ∃ t ds, execOk (buildFreq S ++ buildTree ++ buildCodes) s = some (t, ds) ∧ ds.length = S.length + 3 ∧
      Inv t ∧ t.phase = .codes ∧ t.fault = false ∧ t.act = .idle ∧
      t.nsym.toNat = S.length ∧ t.total.toNat = S.length ∧ (∀ x, (getSym t.cnt x).toNat = S.count x) ∧
      ∃ P, payloadOf t.code S = some P ∧
        P.length = (allSyms.map fun x =>
          S.count x * ((getSym t.code x).map fun c => c.len.toNat).getD 0).sum

/-- R42, R251: while a tree stands, the root's weight is `TOTAL`. -/
def Obligations.RootWeightIsTotal : Prop :=
  ∀ s : State, Inv s → s.phase = .tree ∨ s.phase = .codes → ∀ r e, s.root = some r → s.node[r]? = some e →
    e.wgt = s.total

/-! ### The read commands -/

/-- R183, R34, R32: `RD_CSR` reads each of the twelve registers, `STATUS` assembled from its fields; other numbers are
refused. -/
def Obligations.RdCsrReadsTheRegisters : Prop :=
  ∀ s : State, Inv s →
    (∀ n : Byte, (encode (.rdCsr n)).toNat = 0x6000000000000000 + n.toNat * 2 ^ 32) ∧
    let reads := fun (n : Byte) (v : Nat) => exec (.rdCsr n) s = .next (s.answer (rspWord .ok (BitVec.ofNat 56 v)))
    reads 0#8 0x48554631 ∧
    reads 1#8 (s.phase.value.toNat + 4 * s.fault.toNat + 8 * s.act.value.toNat + 32 * s.phantom.toNat +
      256 * s.nosent.toNat + 512 * s.trunc.toNat + 1024 * s.dempty.toNat + 2048 * s.notree.toNat) ∧
    reads 2#8 s.nleaf ∧ reads 3#8 s.node.length ∧ reads 4#8 (s.root.getD 0xFF) ∧ reads 5#8 s.total.toNat ∧
    reads 6#8 s.nsym.toNat ∧ reads 7#8 s.b.length ∧ reads 8#8 (s.cur.getD 0xFF) ∧ reads 9#8 s.errcode.toNat ∧
    reads 10#8 s.errinfo.toNat ∧ reads 11#8 s.bitbufMax.toNat ∧
    ∀ n : Byte, n.toNat > 11 → exec (.rdCsr n) s = .next (s.answer (rspWord .errIndex 0#56))

/-- R184: `RD_NODE i` reads an entry as `leaf`·2^55 + `sym`·2^48 + `left`·2^40 + `right`·2^32 + `wgt`; an index at or above
`NNODE` is refused, 255 always. -/
def Obligations.RdNodeReadsThePackedEntry : Prop :=
  ∀ (i : Byte) (s : State),
    (encode (.rdNode i)).toNat = 0x6100000000000000 + i.toNat * 2 ^ 32 ∧
    (s.node.length ≤ i.toNat → exec (.rdNode i) s = .next (s.answer (rspWord .errIndex 0#56))) ∧
    (∀ x w, s.node[i.toNat]? = some (.leaf x w) →
      exec (.rdNode i) s = .next (s.answer (rspWord .ok (BitVec.ofNat 56
        (2 ^ 55 + x.toNat * 2 ^ 48 + 0xFF * 2 ^ 40 + 0xFF * 2 ^ 32 + w.toNat))))) ∧
    (∀ w l r, s.node[i.toNat]? = some (.inner w l r) → l < 255 → r < 255 →
      exec (.rdNode i) s = .next (s.answer (rspWord .ok (BitVec.ofNat 56 (l * 2 ^ 40 + r * 2 ^ 32 + w.toNat))))) ∧
    (Inv s → exec (.rdNode 255#8) s = .next (s.answer (rspWord .errIndex 0#56)))

/-- R185: `RD_CODE s, k` reads 2^55 + `len`·2^48 + chunk `k` of `val`, and 0 for an absent entry. -/
def Obligations.RdCodeReadsAChunk : Prop :=
  ∀ (x : Sym) (k : BitVec 2) (s : State),
    (encode (.rdCode x k)).toNat = 0x6200000000000000 + x.toNat * 2 ^ 32 + k.toNat ∧
    (getSym s.code x = none → exec (.rdCode x k) s = .next (s.answer 0#64)) ∧
    (∀ c, getSym s.code x = some c →
      exec (.rdCode x k) s = .next (s.answer (rspWord .ok (BitVec.ofNat 56
        (2 ^ 55 + c.len.toNat * 2 ^ 48 + c.val.toNat / 2 ^ (32 * k.toNat) % 2 ^ 32)))))

/-- R186: `RD_CNT s` reads the counter. -/
def Obligations.RdCntReadsTheCounter : Prop :=
  ∀ (x : Sym) (s : State),
    (encode (.rdCnt x)).toNat = 0x6300000000000000 + x.toNat * 2 ^ 32 ∧
    exec (.rdCnt x) s = .next (s.answer (rspWord .ok (BitVec.ofNat 56 (getSym s.cnt x).toNat)))

/-- R79: `NOP` and the reads change nothing, in every state; repeated, they give the same response. -/
def Obligations.ReadsDisturbNothing : Prop :=
  ∀ (i : Instr) (s : State), i.readOnly = true →
    ∃ r, exec i s = .next (s.answer r) ∧ exec i (s.answer r) = .next ((s.answer r).answer r)

/-! ### Refusals, faults, sequencing -/

/-- R203: a refused command changes no item of state and answers `{E, 0}`. -/
def Obligations.RefusalsChangeNothing : Prop :=
  ∀ (i : Instr) (s t : State) (e : RspCode), e ≠ .ok → e ≠ .fltNocode → e ≠ .fltBufovf → exec i s = .next t →
    t.lastCode = some e.byte → t = s.answer (rspWord e 0#56)

/-- R204: only `ENC_SYM` faults; a fault writes `FAULT`, `ERRCODE` and `ERRINFO` and nothing else. -/
def Obligations.OnlyEncSymFaultsAndPrecisely : Prop :=
  ∀ (i : Instr) (s t : State), s.fault = false → exec i s = .next t → t.fault = true →
    ∃ (x : Sym) (f : RspCode), i = .encSym x ∧ (f = .fltNocode ∨ f = .fltBufovf) ∧
      t = State.answer
        { s with fault := true, errcode := f.byte, errinfo := BitVec.ofNat 16 (0x40 * 256 + x.toNat) }
        (rspWord f 0#56)

/-- R204, R206: in the fault state every working command is refused with `ERR_FAULTED`. -/
def Obligations.FaultedEngineRefusesWorkingCommands : Prop :=
  ∀ (i : Instr) (s : State), i.working = true → s.fault = true →
    exec i s = .next (s.answer (rspWord .errFaulted 0#56))

/-- R210: a working command whose condition is false is refused with `ERR_SEQ`; one that completes had its condition, and
leaves `PHASE` and `ACT` as the table says; any other leaves them unchanged. -/
def Obligations.SequencingTable : Prop :=
  ∀ (i : Instr) (s : State), Inv s →
    (i.working = true → s.fault = false → ¬seqCond s i → exec i s = .next (s.answer (rspWord .errSeq 0#56))) ∧
    ∀ t, exec i s = .next t →
      (t.lastCode = some RspCode.ok.byte → seqCond s i ∧ t.phase = phaseAfter s i ∧ t.act = actAfter s i) ∧
      (t.lastCode ≠ some RspCode.ok.byte → t.phase = s.phase ∧ t.act = s.act)

/-- R207, R202: each command answers `OK` or one of its own codes; the commands of the build phases answer `ERR_FAULTED` only
where their condition is false as well. -/
def Obligations.ResponseCodesOfEachCommand : Prop :=
  ∀ (i : Instr) (s t : State), exec i s = .next t →
    (∃ e, (e = .ok ∨ e ∈ codesOf i.mnemonic) ∧ t.lastCode = some e.byte) ∧
    (Inv s → i.mnemonic ∈ [.FA_SYM, .FA_FIN, .LEAF_PUSH, .BUILD, .GEN] → t.lastCode = some RspCode.errFaulted.byte →
      ¬seqCond s i)

/-- R35: `PHASE` only increases, but for `CLEAR`. -/
def Obligations.PhaseOnlyIncreases : Prop :=
  ∀ (i : Instr) (s t : State), i ≠ .clear → exec i s = .next t → s.phase.value.toNat ≤ t.phase.value.toNat

/-- R56 to R58: the output streams only grow; `OUT_BYTES` by `ENC_FIN` alone, `OUT_SYMS` by `DEC_BYTE` alone. -/
def Obligations.OutputsOnlyGrow : Prop :=
  ∀ (i : Instr) (s t : State), exec i s = .next t →
    s.outBytes <+: t.outBytes ∧ s.outSyms <+: t.outSyms ∧
    (i.mnemonic ≠ .ENC_FIN → t.outBytes = s.outBytes) ∧ (i.mnemonic ≠ .DEC_BYTE → t.outSyms = s.outSyms)

/-- R56, R231: no rule reads the output streams: with more already emitted, every command does the same. -/
def Obligations.OutputsAreNeverRead : Prop :=
  ∀ (i : Instr) (s : State) (p : List Byte) (q : List Sym),
    exec i (s.behind p q) =
      match exec i s with
      | .next t => .next (t.behind p q)
      | .fault r => .fault r
      | .refused r => .refused r

/-! ### Frames -/

/-- R111, R113: `FA_SYM` writes the counter of its symbol and `NSYM`; `FA_FIN` writes the leaf list, `TOTAL`, `PHANTOM` and
`PHASE`; everything else is unchanged. -/
def Obligations.FrequencyFrame : Prop :=
  (∀ (x : Sym) (s t : State), exec (.faSym x) s = .next t →
    t = { s with cnt := t.cnt, nsym := t.nsym, rspOut := t.rspOut } ∧
    ∀ y, y ≠ x → getSym t.cnt y = getSym s.cnt y) ∧
  ∀ s t : State, exec .faFin s = .next t →
    t = { s with
      node := t.node, nleaf := t.nleaf, total := t.total, phantom := t.phantom, phase := t.phase, rspOut := t.rspOut }

/-- R121, R123: `LEAF_PUSH` writes one `NODE` entry, `NLEAF` and `TOTAL`; `BUILD` writes the internal nodes, `ROOT`, `CUR` and
`PHASE`; everything else is unchanged, the entries already in `NODE` included. -/
def Obligations.TreeBuilderFrame : Prop :=
  (∀ (x : Sym) (v : Wgt) (s t : State), Inv s → exec (.leafPush x v) s = .next t →
    t = { s with node := t.node, nleaf := t.nleaf, total := t.total, rspOut := t.rspOut } ∧ s.node <+: t.node) ∧
  ∀ s t : State, Inv s → exec .build s = .next t →
    t = { s with node := t.node, root := t.root, cur := t.cur, phase := t.phase, rspOut := t.rspOut } ∧
    s.node <+: t.node

/-- R141: `GEN` writes `CODE` and `PHASE`; everything else is unchanged. -/
def Obligations.GenFrame : Prop :=
  ∀ s t : State, exec .gen s = .next t → t = { s with code := t.code, phase := t.phase, rspOut := t.rspOut }

/-- R151, R155, R204: `ENC_SYM` writes `B` and `ACT`, or, on a fault, `FAULT`, `ERRCODE` and `ERRINFO`; `ENC_FIN` writes `B`,
`ACT` and `OUT_BYTES`; everything else is unchanged. -/
def Obligations.EncoderFrame : Prop :=
  (∀ (x : Sym) (s t : State), exec (.encSym x) s = .next t →
    t = { s with b := t.b, act := t.act, rspOut := t.rspOut } ∨
    t = { s with fault := t.fault, errcode := t.errcode, errinfo := t.errinfo, rspOut := t.rspOut }) ∧
  ∀ s t : State, exec .encFin s = .next t →
    t = { s with b := t.b, act := t.act, outBytes := t.outBytes, rspOut := t.rspOut }

/-- R166, R171: `DEC_BYTE` writes `CUR`, `ACT`, the decode flags and `OUT_SYMS`, and `TRUNC` and `DEMPTY` only at the start of a
stream; `DEC_FIN` writes `CUR`, `ACT` and the decode flags; everything else is unchanged. -/
def Obligations.DecoderFrame : Prop :=
  (∀ (b : Byte) (s t : State), exec (.decByte b) s = .next t →
    t = { s with
      cur := t.cur, act := t.act, nosent := t.nosent, trunc := t.trunc, dempty := t.dempty, notree := t.notree
      outSyms := t.outSyms, rspOut := t.rspOut } ∧
    (s.act ≠ .idle → t.nosent = s.nosent ∧ t.trunc = s.trunc ∧ t.dempty = s.dempty)) ∧
  ∀ s t : State, exec .decFin s = .next t →
    t = { s with
      cur := t.cur, act := t.act, nosent := t.nosent, trunc := t.trunc, dempty := t.dempty, notree := t.notree
      rspOut := t.rspOut } ∧
    (s.act ≠ .idle → t.nosent = s.nosent ∧ t.dempty = s.dempty ∧ t.notree = s.notree)

/-- R47, R51, R52, R38: built once, read-only afterward: but for `CLEAR`, no command rewrites a `NODE` entry; once `PHASE` has
left `LOAD` the leaf list and the counters stay; once there is a tree the node array and the root stay; after `GEN` the code
table stays. -/
def Obligations.BuiltOnceReadOnlyAfterward : Prop :=
  ∀ (i : Instr) (s t : State), Inv s → i ≠ .clear → exec i s = .next t →
    s.node <+: t.node ∧
    (s.phase ≠ .load → t.nleaf = s.nleaf ∧ t.total = s.total ∧ t.cnt = s.cnt ∧ t.nsym = s.nsym ∧ t.leaves = s.leaves) ∧
    (s.phase = .tree ∨ s.phase = .codes → t.node = s.node ∧ t.root = s.root) ∧
    (s.phase = .codes → t.code = s.code)
end

