-- ==== Sys2Proof/Laws/Bits.lean ====
section
/-! SUPPORT. Bits, bytes and codewords (spec/00_scope.md R13, spec/10_state.md R50, spec/20_memory.md R72): packing and
unpacking are inverse, and a codeword holds exactly its path. -/

namespace Sys2Proof.Machine

open Sys2Proof

@[simp] theorem bits8_length (b : Byte) : (bits8 b).length = 8 := by simp [bits8]

theorem bitsValue_foldl (S : Bits) (v : Nat) :
    S.foldl (fun v t => 2 * v + t.toNat) v = v * 2 ^ S.length + bitsValue S := by
  induction S generalizing v with
  | nil => simp [bitsValue]
  | cons t ts ih =>
    simp only [List.foldl_cons, bitsValue, List.length_cons]
    rw [ih, ih (2 * 0 + t.toNat)]
    ring

@[simp] theorem bitsValue_nil : bitsValue [] = 0 := rfl

theorem bitsValue_cons (t : Bool) (ts : Bits) : bitsValue (t :: ts) = t.toNat * 2 ^ ts.length + bitsValue ts := by
  rw [bitsValue, List.foldl_cons, bitsValue_foldl]
  simp

/-- R143: `value(p ++ "0") = 2 × value(p)`, `value(p ++ "1") = 2 × value(p) + 1`. -/
theorem bitsValue_concat (S : Bits) (t : Bool) : bitsValue (S ++ [t]) = 2 * bitsValue S + t.toNat := by
  simp [bitsValue]

theorem bitsValue_lt (S : Bits) : bitsValue S < 2 ^ S.length := by
  induction S with
  | nil => simp
  | cons t ts ih =>
    rw [bitsValue_cons, List.length_cons, pow_succ]
    cases t <;> simp <;> omega

theorem testBit_bitsValue (S : Bits) (k : Nat) (h : k < S.length) :
    (bitsValue S).testBit (S.length - 1 - k) = S[k] := by
  induction S generalizing k with
  | nil => simp at h
  | cons t ts ih =>
    have hlt := bitsValue_lt ts
    rw [bitsValue_cons]
    cases k with
    | zero =>
      have e : (t :: ts).length - 1 - 0 = ts.length := by simp
      rw [e, Nat.mul_comm, Nat.testBit_two_pow_mul_add _ hlt]
      cases t <;> simp
    | succ k =>
      have hk : k < ts.length := by simpa using h
      have e : (t :: ts).length - 1 - (k + 1) = ts.length - 1 - k := by simp; omega
      rw [e, Nat.mul_comm, Nat.testBit_two_pow_mul_add _ hlt, if_pos (by omega), ih k hk]
      simp

/-- `bits8` after `byte` on eight bits (R13: "is the inverse"). -/
theorem bits8_byteOf (S : Bits) (h : S.length = 8) : bits8 (byteOf S) = S := by
  apply List.ext_getElem
  · simp [h]
  · intro k h1 h2
    have hk : k < 8 := by simpa using h1
    have := testBit_bitsValue S k (by omega)
    simp only [bits8, List.getElem_map, List.getElem_range, byteOf, BitVec.getLsbD_ofNat]
    rw [← this, h]
    simp only [Bool.and_eq_right_iff_imp]
    intro _
    simp
    omega

theorem packBytes_length (n : Nat) (E : Bits) : (packBytes n E).length = n := by
  induction n generalizing E with
  | zero => rfl
  | succ n ih => simp [packBytes, ih]

/-- Unpacking the bytes of a bit sequence of whole bytes gives the sequence back (R72, R73). -/
theorem unpack_packBytes (n : Nat) (E : Bits) (h : E.length = 8 * n) : (packBytes n E).flatMap bits8 = E := by
  induction n generalizing E with
  | zero => simp [packBytes, List.length_eq_zero_iff.mp (by simpa using h)]
  | succ n ih =>
    rw [packBytes, List.flatMap_cons, ih _ (by rw [List.length_drop, h]; omega),
      bits8_byteOf _ (by rw [List.length_take, h]; omega),
      List.take_append_drop]

/-- A codeword holds exactly its path (R143), for a path of at most 127 bits (R145). -/
theorem codewordOf_bits (p : Bits) (h : p.length ≤ 127) : (codewordOf p).bits = p := by
  have hl : (codewordOf p).len.toNat = p.length := by
    simp only [codewordOf, BitVec.toNat_ofNat]
    omega
  apply List.ext_getElem
  · simp [Codeword.bits, hl]
  · intro k h1 h2
    simp only [Codeword.bits, hl, List.getElem_map, List.getElem_range]
    simp only [codewordOf, BitVec.getLsbD_ofNat]
    rw [testBit_bitsValue p k h2]
    simp only [Bool.and_eq_right_iff_imp]
    intro _
    simp
    omega

@[simp] theorem Codeword.bits_length (c : Codeword) : c.bits.length = c.len.toNat := by simp [Codeword.bits]

end Sys2Proof.Machine
end

