-- ==== Sys2Proof/Laws/State.lean ====
section
/-! SUPPORT. One lemma per field per named update of the state, so that no later proof unfolds a record update. -/

namespace Sys2Proof.Machine

open Sys2Proof

/-! ### `State.answer` -/

@[simp] theorem State.answer_phase (s : State) (r : Word64) : (s.answer r).phase = s.phase := rfl
@[simp] theorem State.answer_fault (s : State) (r : Word64) : (s.answer r).fault = s.fault := rfl
@[simp] theorem State.answer_act (s : State) (r : Word64) : (s.answer r).act = s.act := rfl
@[simp] theorem State.answer_phantom (s : State) (r : Word64) : (s.answer r).phantom = s.phantom := rfl
@[simp] theorem State.answer_nosent (s : State) (r : Word64) : (s.answer r).nosent = s.nosent := rfl
@[simp] theorem State.answer_trunc (s : State) (r : Word64) : (s.answer r).trunc = s.trunc := rfl
@[simp] theorem State.answer_dempty (s : State) (r : Word64) : (s.answer r).dempty = s.dempty := rfl
@[simp] theorem State.answer_notree (s : State) (r : Word64) : (s.answer r).notree = s.notree := rfl
@[simp] theorem State.answer_nleaf (s : State) (r : Word64) : (s.answer r).nleaf = s.nleaf := rfl
@[simp] theorem State.answer_root (s : State) (r : Word64) : (s.answer r).root = s.root := rfl
@[simp] theorem State.answer_cur (s : State) (r : Word64) : (s.answer r).cur = s.cur := rfl
@[simp] theorem State.answer_total (s : State) (r : Word64) : (s.answer r).total = s.total := rfl
@[simp] theorem State.answer_nsym (s : State) (r : Word64) : (s.answer r).nsym = s.nsym := rfl
@[simp] theorem State.answer_errcode (s : State) (r : Word64) : (s.answer r).errcode = s.errcode := rfl
@[simp] theorem State.answer_errinfo (s : State) (r : Word64) : (s.answer r).errinfo = s.errinfo := rfl
@[simp] theorem State.answer_bitbufMax (s : State) (r : Word64) : (s.answer r).bitbufMax = s.bitbufMax := rfl
@[simp] theorem State.answer_node (s : State) (r : Word64) : (s.answer r).node = s.node := rfl
@[simp] theorem State.answer_code (s : State) (r : Word64) : (s.answer r).code = s.code := rfl
@[simp] theorem State.answer_cnt (s : State) (r : Word64) : (s.answer r).cnt = s.cnt := rfl
@[simp] theorem State.answer_b (s : State) (r : Word64) : (s.answer r).b = s.b := rfl
@[simp] theorem State.answer_outBytes (s : State) (r : Word64) : (s.answer r).outBytes = s.outBytes := rfl
@[simp] theorem State.answer_outSyms (s : State) (r : Word64) : (s.answer r).outSyms = s.outSyms := rfl
@[simp] theorem State.answer_cmdIn (s : State) (r : Word64) : (s.answer r).cmdIn = s.cmdIn := rfl
@[simp] theorem State.answer_rspOut (s : State) (r : Word64) : (s.answer r).rspOut = s.rspOut ++ [r] := rfl

/-! ### `State.faulted` -/

@[simp] theorem State.faulted_phase (s : State) (f : RspCode) (op a : Byte) : (s.faulted f op a).phase = s.phase := rfl
@[simp] theorem State.faulted_fault (s : State) (f : RspCode) (op a : Byte) : (s.faulted f op a).fault = true := rfl
@[simp] theorem State.faulted_act (s : State) (f : RspCode) (op a : Byte) : (s.faulted f op a).act = s.act := rfl
@[simp] theorem State.faulted_phantom (s : State) (f : RspCode) (op a : Byte) : (s.faulted f op a).phantom = s.phantom := rfl
@[simp] theorem State.faulted_nosent (s : State) (f : RspCode) (op a : Byte) : (s.faulted f op a).nosent = s.nosent := rfl
@[simp] theorem State.faulted_trunc (s : State) (f : RspCode) (op a : Byte) : (s.faulted f op a).trunc = s.trunc := rfl
@[simp] theorem State.faulted_dempty (s : State) (f : RspCode) (op a : Byte) : (s.faulted f op a).dempty = s.dempty := rfl
@[simp] theorem State.faulted_notree (s : State) (f : RspCode) (op a : Byte) : (s.faulted f op a).notree = s.notree := rfl
@[simp] theorem State.faulted_nleaf (s : State) (f : RspCode) (op a : Byte) : (s.faulted f op a).nleaf = s.nleaf := rfl
@[simp] theorem State.faulted_root (s : State) (f : RspCode) (op a : Byte) : (s.faulted f op a).root = s.root := rfl
@[simp] theorem State.faulted_cur (s : State) (f : RspCode) (op a : Byte) : (s.faulted f op a).cur = s.cur := rfl
@[simp] theorem State.faulted_total (s : State) (f : RspCode) (op a : Byte) : (s.faulted f op a).total = s.total := rfl
@[simp] theorem State.faulted_nsym (s : State) (f : RspCode) (op a : Byte) : (s.faulted f op a).nsym = s.nsym := rfl
@[simp] theorem State.faulted_errcode (s : State) (f : RspCode) (op a : Byte) : (s.faulted f op a).errcode = f.byte := rfl
@[simp] theorem State.faulted_errinfo (s : State) (f : RspCode) (op a : Byte) : (s.faulted f op a).errinfo = op ++ a := rfl
@[simp] theorem State.faulted_bitbufMax (s : State) (f : RspCode) (op a : Byte) : (s.faulted f op a).bitbufMax = s.bitbufMax := rfl
@[simp] theorem State.faulted_node (s : State) (f : RspCode) (op a : Byte) : (s.faulted f op a).node = s.node := rfl
@[simp] theorem State.faulted_code (s : State) (f : RspCode) (op a : Byte) : (s.faulted f op a).code = s.code := rfl
@[simp] theorem State.faulted_cnt (s : State) (f : RspCode) (op a : Byte) : (s.faulted f op a).cnt = s.cnt := rfl
@[simp] theorem State.faulted_b (s : State) (f : RspCode) (op a : Byte) : (s.faulted f op a).b = s.b := rfl
@[simp] theorem State.faulted_outBytes (s : State) (f : RspCode) (op a : Byte) : (s.faulted f op a).outBytes = s.outBytes := rfl
@[simp] theorem State.faulted_outSyms (s : State) (f : RspCode) (op a : Byte) : (s.faulted f op a).outSyms = s.outSyms := rfl
@[simp] theorem State.faulted_cmdIn (s : State) (f : RspCode) (op a : Byte) : (s.faulted f op a).cmdIn = s.cmdIn := rfl
@[simp] theorem State.faulted_rspOut (s : State) (f : RspCode) (op a : Byte) : (s.faulted f op a).rspOut = s.rspOut := rfl

/-! ### `State.emitBytes` -/

@[simp] theorem State.emitBytes_phase (s : State) (bs : List Byte) : (s.emitBytes bs).phase = s.phase := rfl
@[simp] theorem State.emitBytes_fault (s : State) (bs : List Byte) : (s.emitBytes bs).fault = s.fault := rfl
@[simp] theorem State.emitBytes_act (s : State) (bs : List Byte) : (s.emitBytes bs).act = s.act := rfl
@[simp] theorem State.emitBytes_phantom (s : State) (bs : List Byte) : (s.emitBytes bs).phantom = s.phantom := rfl
@[simp] theorem State.emitBytes_nosent (s : State) (bs : List Byte) : (s.emitBytes bs).nosent = s.nosent := rfl
@[simp] theorem State.emitBytes_trunc (s : State) (bs : List Byte) : (s.emitBytes bs).trunc = s.trunc := rfl
@[simp] theorem State.emitBytes_dempty (s : State) (bs : List Byte) : (s.emitBytes bs).dempty = s.dempty := rfl
@[simp] theorem State.emitBytes_notree (s : State) (bs : List Byte) : (s.emitBytes bs).notree = s.notree := rfl
@[simp] theorem State.emitBytes_nleaf (s : State) (bs : List Byte) : (s.emitBytes bs).nleaf = s.nleaf := rfl
@[simp] theorem State.emitBytes_root (s : State) (bs : List Byte) : (s.emitBytes bs).root = s.root := rfl
@[simp] theorem State.emitBytes_cur (s : State) (bs : List Byte) : (s.emitBytes bs).cur = s.cur := rfl
@[simp] theorem State.emitBytes_total (s : State) (bs : List Byte) : (s.emitBytes bs).total = s.total := rfl
@[simp] theorem State.emitBytes_nsym (s : State) (bs : List Byte) : (s.emitBytes bs).nsym = s.nsym := rfl
@[simp] theorem State.emitBytes_errcode (s : State) (bs : List Byte) : (s.emitBytes bs).errcode = s.errcode := rfl
@[simp] theorem State.emitBytes_errinfo (s : State) (bs : List Byte) : (s.emitBytes bs).errinfo = s.errinfo := rfl
@[simp] theorem State.emitBytes_bitbufMax (s : State) (bs : List Byte) : (s.emitBytes bs).bitbufMax = s.bitbufMax := rfl
@[simp] theorem State.emitBytes_node (s : State) (bs : List Byte) : (s.emitBytes bs).node = s.node := rfl
@[simp] theorem State.emitBytes_code (s : State) (bs : List Byte) : (s.emitBytes bs).code = s.code := rfl
@[simp] theorem State.emitBytes_cnt (s : State) (bs : List Byte) : (s.emitBytes bs).cnt = s.cnt := rfl
@[simp] theorem State.emitBytes_b (s : State) (bs : List Byte) : (s.emitBytes bs).b = s.b := rfl
@[simp] theorem State.emitBytes_outBytes (s : State) (bs : List Byte) : (s.emitBytes bs).outBytes = s.outBytes ++ bs := rfl
@[simp] theorem State.emitBytes_outSyms (s : State) (bs : List Byte) : (s.emitBytes bs).outSyms = s.outSyms := rfl
@[simp] theorem State.emitBytes_cmdIn (s : State) (bs : List Byte) : (s.emitBytes bs).cmdIn = s.cmdIn := rfl
@[simp] theorem State.emitBytes_rspOut (s : State) (bs : List Byte) : (s.emitBytes bs).rspOut = s.rspOut := rfl

/-! ### `State.emitSyms` -/

@[simp] theorem State.emitSyms_phase (s : State) (ss : List Sym) : (s.emitSyms ss).phase = s.phase := rfl
@[simp] theorem State.emitSyms_fault (s : State) (ss : List Sym) : (s.emitSyms ss).fault = s.fault := rfl
@[simp] theorem State.emitSyms_act (s : State) (ss : List Sym) : (s.emitSyms ss).act = s.act := rfl
@[simp] theorem State.emitSyms_phantom (s : State) (ss : List Sym) : (s.emitSyms ss).phantom = s.phantom := rfl
@[simp] theorem State.emitSyms_nosent (s : State) (ss : List Sym) : (s.emitSyms ss).nosent = s.nosent := rfl
@[simp] theorem State.emitSyms_trunc (s : State) (ss : List Sym) : (s.emitSyms ss).trunc = s.trunc := rfl
@[simp] theorem State.emitSyms_dempty (s : State) (ss : List Sym) : (s.emitSyms ss).dempty = s.dempty := rfl
@[simp] theorem State.emitSyms_notree (s : State) (ss : List Sym) : (s.emitSyms ss).notree = s.notree := rfl
@[simp] theorem State.emitSyms_nleaf (s : State) (ss : List Sym) : (s.emitSyms ss).nleaf = s.nleaf := rfl
@[simp] theorem State.emitSyms_root (s : State) (ss : List Sym) : (s.emitSyms ss).root = s.root := rfl
@[simp] theorem State.emitSyms_cur (s : State) (ss : List Sym) : (s.emitSyms ss).cur = s.cur := rfl
@[simp] theorem State.emitSyms_total (s : State) (ss : List Sym) : (s.emitSyms ss).total = s.total := rfl
@[simp] theorem State.emitSyms_nsym (s : State) (ss : List Sym) : (s.emitSyms ss).nsym = s.nsym := rfl
@[simp] theorem State.emitSyms_errcode (s : State) (ss : List Sym) : (s.emitSyms ss).errcode = s.errcode := rfl
@[simp] theorem State.emitSyms_errinfo (s : State) (ss : List Sym) : (s.emitSyms ss).errinfo = s.errinfo := rfl
@[simp] theorem State.emitSyms_bitbufMax (s : State) (ss : List Sym) : (s.emitSyms ss).bitbufMax = s.bitbufMax := rfl
@[simp] theorem State.emitSyms_node (s : State) (ss : List Sym) : (s.emitSyms ss).node = s.node := rfl
@[simp] theorem State.emitSyms_code (s : State) (ss : List Sym) : (s.emitSyms ss).code = s.code := rfl
@[simp] theorem State.emitSyms_cnt (s : State) (ss : List Sym) : (s.emitSyms ss).cnt = s.cnt := rfl
@[simp] theorem State.emitSyms_b (s : State) (ss : List Sym) : (s.emitSyms ss).b = s.b := rfl
@[simp] theorem State.emitSyms_outBytes (s : State) (ss : List Sym) : (s.emitSyms ss).outBytes = s.outBytes := rfl
@[simp] theorem State.emitSyms_outSyms (s : State) (ss : List Sym) : (s.emitSyms ss).outSyms = s.outSyms ++ ss := rfl
@[simp] theorem State.emitSyms_cmdIn (s : State) (ss : List Sym) : (s.emitSyms ss).cmdIn = s.cmdIn := rfl
@[simp] theorem State.emitSyms_rspOut (s : State) (ss : List Sym) : (s.emitSyms ss).rspOut = s.rspOut := rfl

/-! ### `State.clearDecodeFlags` -/

@[simp] theorem State.clearDecodeFlags_phase (s : State) : (s.clearDecodeFlags).phase = s.phase := rfl
@[simp] theorem State.clearDecodeFlags_fault (s : State) : (s.clearDecodeFlags).fault = s.fault := rfl
@[simp] theorem State.clearDecodeFlags_act (s : State) : (s.clearDecodeFlags).act = s.act := rfl
@[simp] theorem State.clearDecodeFlags_phantom (s : State) : (s.clearDecodeFlags).phantom = s.phantom := rfl
@[simp] theorem State.clearDecodeFlags_nosent (s : State) : (s.clearDecodeFlags).nosent = false := rfl
@[simp] theorem State.clearDecodeFlags_trunc (s : State) : (s.clearDecodeFlags).trunc = false := rfl
@[simp] theorem State.clearDecodeFlags_dempty (s : State) : (s.clearDecodeFlags).dempty = false := rfl
@[simp] theorem State.clearDecodeFlags_notree (s : State) : (s.clearDecodeFlags).notree = false := rfl
@[simp] theorem State.clearDecodeFlags_nleaf (s : State) : (s.clearDecodeFlags).nleaf = s.nleaf := rfl
@[simp] theorem State.clearDecodeFlags_root (s : State) : (s.clearDecodeFlags).root = s.root := rfl
@[simp] theorem State.clearDecodeFlags_cur (s : State) : (s.clearDecodeFlags).cur = s.cur := rfl
@[simp] theorem State.clearDecodeFlags_total (s : State) : (s.clearDecodeFlags).total = s.total := rfl
@[simp] theorem State.clearDecodeFlags_nsym (s : State) : (s.clearDecodeFlags).nsym = s.nsym := rfl
@[simp] theorem State.clearDecodeFlags_errcode (s : State) : (s.clearDecodeFlags).errcode = s.errcode := rfl
@[simp] theorem State.clearDecodeFlags_errinfo (s : State) : (s.clearDecodeFlags).errinfo = s.errinfo := rfl
@[simp] theorem State.clearDecodeFlags_bitbufMax (s : State) : (s.clearDecodeFlags).bitbufMax = s.bitbufMax := rfl
@[simp] theorem State.clearDecodeFlags_node (s : State) : (s.clearDecodeFlags).node = s.node := rfl
@[simp] theorem State.clearDecodeFlags_code (s : State) : (s.clearDecodeFlags).code = s.code := rfl
@[simp] theorem State.clearDecodeFlags_cnt (s : State) : (s.clearDecodeFlags).cnt = s.cnt := rfl
@[simp] theorem State.clearDecodeFlags_b (s : State) : (s.clearDecodeFlags).b = s.b := rfl
@[simp] theorem State.clearDecodeFlags_outBytes (s : State) : (s.clearDecodeFlags).outBytes = s.outBytes := rfl
@[simp] theorem State.clearDecodeFlags_outSyms (s : State) : (s.clearDecodeFlags).outSyms = s.outSyms := rfl
@[simp] theorem State.clearDecodeFlags_cmdIn (s : State) : (s.clearDecodeFlags).cmdIn = s.cmdIn := rfl
@[simp] theorem State.clearDecodeFlags_rspOut (s : State) : (s.clearDecodeFlags).rspOut = s.rspOut := rfl

/-! ### `State.clearState` -/

@[simp] theorem State.clearState_phase (s : State) : (s.clearState).phase = .load := rfl
@[simp] theorem State.clearState_fault (s : State) : (s.clearState).fault = false := rfl
@[simp] theorem State.clearState_act (s : State) : (s.clearState).act = .idle := rfl
@[simp] theorem State.clearState_phantom (s : State) : (s.clearState).phantom = false := rfl
@[simp] theorem State.clearState_nosent (s : State) : (s.clearState).nosent = false := rfl
@[simp] theorem State.clearState_trunc (s : State) : (s.clearState).trunc = false := rfl
@[simp] theorem State.clearState_dempty (s : State) : (s.clearState).dempty = false := rfl
@[simp] theorem State.clearState_notree (s : State) : (s.clearState).notree = false := rfl
@[simp] theorem State.clearState_nleaf (s : State) : (s.clearState).nleaf = 0 := rfl
@[simp] theorem State.clearState_root (s : State) : (s.clearState).root = none := rfl
@[simp] theorem State.clearState_cur (s : State) : (s.clearState).cur = none := rfl
@[simp] theorem State.clearState_total (s : State) : (s.clearState).total = 0#32 := rfl
@[simp] theorem State.clearState_nsym (s : State) : (s.clearState).nsym = 0#32 := rfl
@[simp] theorem State.clearState_errcode (s : State) : (s.clearState).errcode = 0#8 := rfl
@[simp] theorem State.clearState_errinfo (s : State) : (s.clearState).errinfo = 0#16 := rfl
@[simp] theorem State.clearState_bitbufMax (s : State) : (s.clearState).bitbufMax = s.bitbufMax := rfl
@[simp] theorem State.clearState_node (s : State) : (s.clearState).node = [] := rfl
@[simp] theorem State.clearState_code (s : State) : (s.clearState).code = Vector.replicate 128 none := rfl
@[simp] theorem State.clearState_cnt (s : State) : (s.clearState).cnt = Vector.replicate 128 0#32 := rfl
@[simp] theorem State.clearState_b (s : State) : (s.clearState).b = [] := rfl
@[simp] theorem State.clearState_outBytes (s : State) : (s.clearState).outBytes = s.outBytes := rfl
@[simp] theorem State.clearState_outSyms (s : State) : (s.clearState).outSyms = s.outSyms := rfl
@[simp] theorem State.clearState_cmdIn (s : State) : (s.clearState).cmdIn = s.cmdIn := rfl
@[simp] theorem State.clearState_rspOut (s : State) : (s.clearState).rspOut = s.rspOut := rfl

/-! ### `State.resetWith` -/

@[simp] theorem State.resetWith_phase (m : BitVec 32) : (State.resetWith m).phase = .load := rfl
@[simp] theorem State.resetWith_fault (m : BitVec 32) : (State.resetWith m).fault = false := rfl
@[simp] theorem State.resetWith_act (m : BitVec 32) : (State.resetWith m).act = .idle := rfl
@[simp] theorem State.resetWith_phantom (m : BitVec 32) : (State.resetWith m).phantom = false := rfl
@[simp] theorem State.resetWith_nosent (m : BitVec 32) : (State.resetWith m).nosent = false := rfl
@[simp] theorem State.resetWith_trunc (m : BitVec 32) : (State.resetWith m).trunc = false := rfl
@[simp] theorem State.resetWith_dempty (m : BitVec 32) : (State.resetWith m).dempty = false := rfl
@[simp] theorem State.resetWith_notree (m : BitVec 32) : (State.resetWith m).notree = false := rfl
@[simp] theorem State.resetWith_nleaf (m : BitVec 32) : (State.resetWith m).nleaf = 0 := rfl
@[simp] theorem State.resetWith_root (m : BitVec 32) : (State.resetWith m).root = none := rfl
@[simp] theorem State.resetWith_cur (m : BitVec 32) : (State.resetWith m).cur = none := rfl
@[simp] theorem State.resetWith_total (m : BitVec 32) : (State.resetWith m).total = 0#32 := rfl
@[simp] theorem State.resetWith_nsym (m : BitVec 32) : (State.resetWith m).nsym = 0#32 := rfl
@[simp] theorem State.resetWith_errcode (m : BitVec 32) : (State.resetWith m).errcode = 0#8 := rfl
@[simp] theorem State.resetWith_errinfo (m : BitVec 32) : (State.resetWith m).errinfo = 0#16 := rfl
@[simp] theorem State.resetWith_bitbufMax (m : BitVec 32) : (State.resetWith m).bitbufMax = m := rfl
@[simp] theorem State.resetWith_node (m : BitVec 32) : (State.resetWith m).node = [] := rfl
@[simp] theorem State.resetWith_code (m : BitVec 32) : (State.resetWith m).code = Vector.replicate 128 none := rfl
@[simp] theorem State.resetWith_cnt (m : BitVec 32) : (State.resetWith m).cnt = Vector.replicate 128 0#32 := rfl
@[simp] theorem State.resetWith_b (m : BitVec 32) : (State.resetWith m).b = [] := rfl
@[simp] theorem State.resetWith_outBytes (m : BitVec 32) : (State.resetWith m).outBytes = [] := rfl
@[simp] theorem State.resetWith_outSyms (m : BitVec 32) : (State.resetWith m).outSyms = [] := rfl
@[simp] theorem State.resetWith_cmdIn (m : BitVec 32) : (State.resetWith m).cmdIn = [] := rfl
@[simp] theorem State.resetWith_rspOut (m : BitVec 32) : (State.resetWith m).rspOut = [] := rfl

/-! ### `State.issue` -/

@[simp] theorem State.issue_phase (s : State) (w : Word64) : (s.issue w).phase = s.phase := rfl
@[simp] theorem State.issue_fault (s : State) (w : Word64) : (s.issue w).fault = s.fault := rfl
@[simp] theorem State.issue_act (s : State) (w : Word64) : (s.issue w).act = s.act := rfl
@[simp] theorem State.issue_phantom (s : State) (w : Word64) : (s.issue w).phantom = s.phantom := rfl
@[simp] theorem State.issue_nosent (s : State) (w : Word64) : (s.issue w).nosent = s.nosent := rfl
@[simp] theorem State.issue_trunc (s : State) (w : Word64) : (s.issue w).trunc = s.trunc := rfl
@[simp] theorem State.issue_dempty (s : State) (w : Word64) : (s.issue w).dempty = s.dempty := rfl
@[simp] theorem State.issue_notree (s : State) (w : Word64) : (s.issue w).notree = s.notree := rfl
@[simp] theorem State.issue_nleaf (s : State) (w : Word64) : (s.issue w).nleaf = s.nleaf := rfl
@[simp] theorem State.issue_root (s : State) (w : Word64) : (s.issue w).root = s.root := rfl
@[simp] theorem State.issue_cur (s : State) (w : Word64) : (s.issue w).cur = s.cur := rfl
@[simp] theorem State.issue_total (s : State) (w : Word64) : (s.issue w).total = s.total := rfl
@[simp] theorem State.issue_nsym (s : State) (w : Word64) : (s.issue w).nsym = s.nsym := rfl
@[simp] theorem State.issue_errcode (s : State) (w : Word64) : (s.issue w).errcode = s.errcode := rfl
@[simp] theorem State.issue_errinfo (s : State) (w : Word64) : (s.issue w).errinfo = s.errinfo := rfl
@[simp] theorem State.issue_bitbufMax (s : State) (w : Word64) : (s.issue w).bitbufMax = s.bitbufMax := rfl
@[simp] theorem State.issue_node (s : State) (w : Word64) : (s.issue w).node = s.node := rfl
@[simp] theorem State.issue_code (s : State) (w : Word64) : (s.issue w).code = s.code := rfl
@[simp] theorem State.issue_cnt (s : State) (w : Word64) : (s.issue w).cnt = s.cnt := rfl
@[simp] theorem State.issue_b (s : State) (w : Word64) : (s.issue w).b = s.b := rfl
@[simp] theorem State.issue_outBytes (s : State) (w : Word64) : (s.issue w).outBytes = s.outBytes := rfl
@[simp] theorem State.issue_outSyms (s : State) (w : Word64) : (s.issue w).outSyms = s.outSyms := rfl
@[simp] theorem State.issue_cmdIn (s : State) (w : Word64) : (s.issue w).cmdIn = s.cmdIn ++ [w] := rfl
@[simp] theorem State.issue_rspOut (s : State) (w : Word64) : (s.issue w).rspOut = s.rspOut := rfl

/-! ### `State.issueFirst` -/

@[simp] theorem State.issueFirst_phase (s : State) (w : Word64) : (s.issueFirst w).phase = s.phase := rfl
@[simp] theorem State.issueFirst_fault (s : State) (w : Word64) : (s.issueFirst w).fault = s.fault := rfl
@[simp] theorem State.issueFirst_act (s : State) (w : Word64) : (s.issueFirst w).act = s.act := rfl
@[simp] theorem State.issueFirst_phantom (s : State) (w : Word64) : (s.issueFirst w).phantom = s.phantom := rfl
@[simp] theorem State.issueFirst_nosent (s : State) (w : Word64) : (s.issueFirst w).nosent = s.nosent := rfl
@[simp] theorem State.issueFirst_trunc (s : State) (w : Word64) : (s.issueFirst w).trunc = s.trunc := rfl
@[simp] theorem State.issueFirst_dempty (s : State) (w : Word64) : (s.issueFirst w).dempty = s.dempty := rfl
@[simp] theorem State.issueFirst_notree (s : State) (w : Word64) : (s.issueFirst w).notree = s.notree := rfl
@[simp] theorem State.issueFirst_nleaf (s : State) (w : Word64) : (s.issueFirst w).nleaf = s.nleaf := rfl
@[simp] theorem State.issueFirst_root (s : State) (w : Word64) : (s.issueFirst w).root = s.root := rfl
@[simp] theorem State.issueFirst_cur (s : State) (w : Word64) : (s.issueFirst w).cur = s.cur := rfl
@[simp] theorem State.issueFirst_total (s : State) (w : Word64) : (s.issueFirst w).total = s.total := rfl
@[simp] theorem State.issueFirst_nsym (s : State) (w : Word64) : (s.issueFirst w).nsym = s.nsym := rfl
@[simp] theorem State.issueFirst_errcode (s : State) (w : Word64) : (s.issueFirst w).errcode = s.errcode := rfl
@[simp] theorem State.issueFirst_errinfo (s : State) (w : Word64) : (s.issueFirst w).errinfo = s.errinfo := rfl
@[simp] theorem State.issueFirst_bitbufMax (s : State) (w : Word64) : (s.issueFirst w).bitbufMax = s.bitbufMax := rfl
@[simp] theorem State.issueFirst_node (s : State) (w : Word64) : (s.issueFirst w).node = s.node := rfl
@[simp] theorem State.issueFirst_code (s : State) (w : Word64) : (s.issueFirst w).code = s.code := rfl
@[simp] theorem State.issueFirst_cnt (s : State) (w : Word64) : (s.issueFirst w).cnt = s.cnt := rfl
@[simp] theorem State.issueFirst_b (s : State) (w : Word64) : (s.issueFirst w).b = s.b := rfl
@[simp] theorem State.issueFirst_outBytes (s : State) (w : Word64) : (s.issueFirst w).outBytes = s.outBytes := rfl
@[simp] theorem State.issueFirst_outSyms (s : State) (w : Word64) : (s.issueFirst w).outSyms = s.outSyms := rfl
@[simp] theorem State.issueFirst_cmdIn (s : State) (w : Word64) : (s.issueFirst w).cmdIn = w :: s.cmdIn := rfl
@[simp] theorem State.issueFirst_rspOut (s : State) (w : Word64) : (s.issueFirst w).rspOut = s.rspOut := rfl

/-! ### The taken command -/

theorem State.takeCommand_nil (s : State) (h : s.cmdIn = []) : s.takeCommand = none := by
  simp [State.takeCommand, h]

theorem State.takeCommand_cons (s : State) (w : Word64) (ws : List Word64) (h : s.cmdIn = w :: ws) :
    s.takeCommand = some (w, { s with cmdIn := ws }) := by
  simp [State.takeCommand, h]

@[simp] theorem State.takeCommand_issueFirst (s : State) (w : Word64) : (s.issueFirst w).takeCommand = some (w, s) := rfl

theorem State.withFetchWord_eq (s : State) (n w : Nat) : s.withFetchWord n w = s.issueFirst (tableWord n w) := rfl

/-! ### Derived registers -/

@[simp] theorem State.nnode_answer (s : State) (r : Word64) : (s.answer r).nnode = s.nnode := rfl
@[simp] theorem State.bitlen_answer (s : State) (r : Word64) : (s.answer r).bitlen = s.bitlen := rfl
@[simp] theorem State.nnode_clearState (s : State) : s.clearState.nnode = 0 := rfl
@[simp] theorem State.bitlen_clearState (s : State) : s.clearState.bitlen = 0 := rfl
@[simp] theorem State.statusWord_answer (s : State) (r : Word64) : (s.answer r).statusWord = s.statusWord := rfl
@[simp] theorem State.decodeFlags_answer (s : State) (r : Word64) : (s.answer r).decodeFlags = s.decodeFlags := rfl
@[simp] theorem State.clearState_clearState (s : State) : s.clearState.clearState = s.clearState := rfl

end Sys2Proof.Machine
end

