-- ==== Sys2Proof/Laws/Ops.lean ====
section
/-! SUPPORT. What the shared operations can do, said once each: the ways a command word ends (spec/60_exceptions.md
R200), the checks of a working command (R206), and the arrays indexed by symbol. -/

namespace Sys2Proof.Machine

open Sys2Proof

/-! ### The ways a command word ends -/

theorem respond_eq (d : Data) (s : State) : respond d s = .next (s.answer (rspWord .ok d)) := rfl

theorem refuse_eq (e : RspCode) (s : State) : refuse e s = .next (s.answer (rspWord e 0#56)) := rfl

theorem raise_eq (f : RspCode) (op a : Byte) (s : State) :
    raise f op a s = .next ((s.faulted f op a).answer (rspWord f 0#56)) := rfl

@[simp] theorem respond_next_iff (d : Data) (s t : State) :
    respond d s = .next t ↔ t = s.answer (rspWord .ok d) := by
  rw [respond_eq, Host.Outcome.next.injEq, eq_comm]

@[simp] theorem refuse_next_iff (e : RspCode) (s t : State) :
    refuse e s = .next t ↔ t = s.answer (rspWord e 0#56) := by
  rw [refuse_eq, Host.Outcome.next.injEq, eq_comm]

@[simp] theorem raise_next_iff (f : RspCode) (op a : Byte) (s t : State) :
    raise f op a s = .next t ↔ t = (s.faulted f op a).answer (rspWord f 0#56) := by
  rw [raise_eq, Host.Outcome.next.injEq, eq_comm]

/-! ### The response word -/

@[simp] theorem rspWord_code (c : RspCode) (d : Data) : (rspWord c d).extractLsb' 56 8 = c.byte := by
  show BitVec.extractLsb' 56 8 (c.byte ++ d : BitVec (8 + 56)) = c.byte
  rw [BitVec.extractLsb'_append_eq_of_le (by decide)]
  simp

@[simp] theorem rspWord_data (c : RspCode) (d : Data) : (rspWord c d).extractLsb' 0 56 = d := by
  show BitVec.extractLsb' 0 56 (c.byte ++ d : BitVec (8 + 56)) = d
  rw [BitVec.extractLsb'_append_eq_of_add_le (by decide)]
  simp

theorem RspCode.byte_injective (c c' : RspCode) (h : c.byte = c'.byte) : c = c' := by
  revert h
  cases c <;> cases c' <;> decide

@[simp] theorem State.answer_getLast? (s : State) (r : Word64) : (s.answer r).rspOut.getLast? = some r := by
  simp

/-! ### The checks of a working command -/

section
variable (c : Prop) [Decidable c] (s : State) (body : Result)

theorem working_faulted (h : s.fault = true) : working c s body = refuse .errFaulted s := by
  simp [working, h]

theorem working_out_of_sequence (h : s.fault = false) (hc : ¬c) : working c s body = refuse .errSeq s := by
  simp [working, h, hc]

theorem working_accepted (h : s.fault = false) (hc : c) : working c s body = body := by
  simp [working, h, hc]

/-- Everything a working command's checks can do (R206 steps 3 and 4). -/
theorem working_cases (t : State) (h : working c s body = .next t) :
    (s.fault = true ∧ t = s.answer (rspWord .errFaulted 0#56)) ∨
    (s.fault = false ∧ ¬c ∧ t = s.answer (rspWord .errSeq 0#56)) ∨
    (s.fault = false ∧ c ∧ body = .next t) := by
  cases hf : s.fault with
  | true =>
    rw [working_faulted c s body hf, refuse_next_iff] at h
    exact .inl ⟨rfl, h⟩
  | false =>
    by_cases hc : c
    · rw [working_accepted c s body hf hc] at h
      exact .inr (.inr ⟨rfl, hc, h⟩)
    · rw [working_out_of_sequence c s body hf hc, refuse_next_iff] at h
      exact .inr (.inl ⟨rfl, hc, h⟩)

end

/-! ### Arrays indexed by symbol -/

section
variable {α : Type} (t : Vector α 128)

@[simp] theorem getSym_setSym_same (s : Sym) (x : α) : getSym (setSym t s x) s = x := by
  simp [getSym, setSym]

theorem getSym_setSym_ne (s r : Sym) (x : α) (h : r ≠ s) : getSym (setSym t s x) r = getSym t r := by
  have : s.toNat ≠ r.toNat := fun e => h (BitVec.eq_of_toNat_eq e.symm)
  simp [getSym, setSym, this]

@[simp] theorem getSym_replicate (x : α) (s : Sym) : getSym (Vector.replicate 128 x) s = x := by
  simp [getSym]

/-- Two arrays are equal when they read alike at every symbol. -/
theorem sym_array_ext (t' : Vector α 128) (h : ∀ s, getSym t s = getSym t' s) : t = t' := by
  apply Vector.ext
  intro i hi
  have := h (BitVec.ofNat 7 i)
  have e : i % 128 = i := Nat.mod_eq_of_lt hi
  simpa [getSym, e] using this

end

theorem mem_allSyms (s : Sym) : s ∈ allSyms := by
  simp only [allSyms, List.mem_map, List.mem_range]
  exact ⟨s.toNat, s.isLt, by simp⟩

theorem allSyms_nodup : allSyms.Nodup := by
  unfold allSyms
  refine List.Nodup.map_on ?_ List.nodup_range
  intro x hx y hy h
  rw [List.mem_range] at hx hy
  have := congrArg BitVec.toNat h
  simp only [BitVec.toNat_ofNat] at this
  omega

/-! ### The walk of the decoder -/

/-- Walking a sequence is walking its parts one after the other (R176: "the walk's only memory between bits is `CUR`"). -/
theorem walkBits_append (node : List NodeEntry) (root : Option NodeIdx) (w : Walk) (S T : Bits) :
    walkBits node root w (S ++ T) = (walkBits node root w S).bind fun w' => walkBits node root w' T := by
  induction S generalizing w with
  | nil => rfl
  | cons t ts ih =>
    simp only [List.cons_append, walkBits]
    cases walkBit node root w t with
    | none => rfl
    | some w' => exact ih w'

/-- Where there is no tree every payload bit is dropped (R174). -/
theorem walkBit_no_tree (node : List NodeEntry) (w : Walk) (t : Bool) :
    walkBit node none w t = some { w with notree := true } := rfl

/-- The symbols already emitted stay in front of those a walk emits. -/
theorem walkBit_syms (node : List NodeEntry) (root : Option NodeIdx) (w : Walk) (t : Bool) (pre : List Sym) :
    walkBit node root { w with syms := pre ++ w.syms } t =
      (walkBit node root w t).map fun w' => { w' with syms := pre ++ w'.syms } := by
  simp only [walkBit]
  cases root with
  | none => rfl
  | some r =>
    simp only
    cases childOf node w.cur t with
    | none => rfl
    | some c =>
      simp only
      cases node[c]? with
      | none => rfl
      | some e => cases e <;> simp

theorem walkBits_syms (node : List NodeEntry) (root : Option NodeIdx) (w : Walk) (S : Bits) (pre : List Sym) :
    walkBits node root { w with syms := pre ++ w.syms } S =
      (walkBits node root w S).map fun w' => { w' with syms := pre ++ w'.syms } := by
  induction S generalizing w with
  | nil => rfl
  | cons t ts ih =>
    simp only [walkBits, walkBit_syms]
    cases walkBit node root w t with
    | none => rfl
    | some w' => exact ih w'

end Sys2Proof.Machine
end

