-- ==== Sys2Proof/Laws/Commands.lean ====
section
/-! SUPPORT. What each working command can do, said once: if its meaning answers `next t`, then one of these cases
holds. `Turned s t` is the case in which the checks of spec/60_exceptions.md R206 turn the command away. -/

namespace Sys2Proof.Machine

open Sys2Proof

/-- The command was refused and nothing but the response changed (R203). -/
def Turned (s t : State) : Prop := ∃ e : RspCode, e ≠ .ok ∧ e ≠ .fltNocode ∧ e ≠ .fltBufovf ∧ t = s.answer (rspWord e 0#56)

theorem Turned.of_refuse (s : State) (e : RspCode) (h1 : e ≠ .ok) (h2 : e ≠ .fltNocode) (h3 : e ≠ .fltBufovf) :
    Turned s (s.answer (rspWord e 0#56)) := ⟨e, h1, h2, h3, rfl⟩

/-- A working command is turned away, or it is accepted and its body answers. -/
theorem working_next (c : Prop) [Decidable c] (s t : State) (body : Result) (h : working c s body = .next t) :
    Turned s t ∨ (s.fault = false ∧ c ∧ body = .next t) := by
  rcases working_cases c s body t h with ⟨_, rfl⟩ | ⟨_, _, rfl⟩ | h
  · exact .inl (.of_refuse s _ (by decide) (by decide) (by decide))
  · exact .inl (.of_refuse s _ (by decide) (by decide) (by decide))
  · exact .inr h

theorem execFaSym_cases (x : Sym) (s t : State) (h : execFaSym x s = .next t) :
    Turned s t ∨ (s.fault = false ∧ seqFrequency s ∧ s.nsym.toNat < Config.max32 ∧
      t = State.answer
        { s with cnt := setSym s.cnt x (getSym s.cnt x + 1#32), nsym := s.nsym + 1#32 }
        (rspWord .ok ((getSym s.cnt x + 1#32).setWidth 56))) := by
  rcases working_next _ _ _ _ h with h | ⟨hf, hc, h⟩
  · exact .inl h
  · split at h
    · rw [respond_next_iff] at h
      exact .inr ⟨hf, hc, ‹_›, h⟩
    · rw [refuse_next_iff] at h
      exact .inl (h ▸ .of_refuse s _ (by decide) (by decide) (by decide))

theorem execFaFin_cases (s t : State) (h : execFaFin s = .next t) :
    Turned s t ∨ (s.fault = false ∧ seqFrequency s ∧
      t = State.answer
        { s with
          node := (leafList (countedLeaves s.cnt)).1.map fun p => NodeEntry.leaf p.1 p.2
          nleaf := (leafList (countedLeaves s.cnt)).1.length
          total := s.nsym
          phantom := (leafList (countedLeaves s.cnt)).2 || s.phantom
          phase := .leaves }
        (rspWord .ok (BitVec.ofNat 56 (leafList (countedLeaves s.cnt)).1.length))) := by
  rcases working_next _ _ _ _ h with h | ⟨hf, hc, h⟩
  · exact .inl h
  · exact .inr ⟨hf, hc, (respond_next_iff _ _ _).mp h⟩

theorem execLeafPush_cases (x : Sym) (v : Wgt) (s t : State) (h : execLeafPush x v s = .next t) :
    Turned s t ∨ (s.fault = false ∧ seqLeafPush s ∧ s.leavesHold x = false ∧ s.orderOk v = some true ∧
      s.total.toNat + v.toNat ≤ Config.max32 ∧
      t = State.answer
        { s with node := s.node.take s.nleaf ++ [.leaf x v], total := s.total + v, nleaf := s.nleaf + 1 }
        (rspWord .ok (BitVec.ofNat 56 s.nleaf))) := by
  rcases working_next _ _ _ _ h with h | ⟨hf, hc, h⟩
  · exact .inl h
  · split at h
    · rw [refuse_next_iff] at h
      exact .inl (h ▸ .of_refuse s _ (by decide) (by decide) (by decide))
    · rename_i hd
      split at h
      · cases h
      · rw [refuse_next_iff] at h
        exact .inl (h ▸ .of_refuse s _ (by decide) (by decide) (by decide))
      · rename_i ho
        split at h
        · rename_i hw
          rw [respond_next_iff] at h
          exact .inr ⟨hf, hc, by simpa using hd, ho, hw, h⟩
        · rw [refuse_next_iff] at h
          exact .inl (h ▸ .of_refuse s _ (by decide) (by decide) (by decide))

theorem execBuild_cases (s t : State) (h : execBuild s = .next t) :
    Turned s t ∨ (s.fault = false ∧ seqBuild s ∧ s.nleaf = 0 ∧
      t = State.answer { s with root := none, cur := none, node := [], phase := .tree } (rspWord .ok 0xFF#56)) ∨
    (s.fault = false ∧ seqBuild s ∧ s.nleaf ≠ 0 ∧ s.nleaf ≠ 1 ∧ ∃ node, buildNodes s.node s.nleaf = some node ∧
      t = State.answer
        { s with root := some (node.length - 1), cur := some (node.length - 1), node := node, phase := .tree }
        (rspWord .ok ((refByte (some (node.length - 1))).setWidth 56))) := by
  rcases working_next _ _ _ _ h with h | ⟨hf, hc, h⟩
  · exact .inl h
  · split at h
    · rw [refuse_next_iff] at h
      exact .inl (h ▸ .of_refuse s _ (by decide) (by decide) (by decide))
    · split at h
      · rw [respond_next_iff] at h
        exact .inr (.inl ⟨hf, hc, ‹_›, h⟩)
      · split at h
        · cases h
        · exact .inr (.inr ⟨hf, hc, ‹_›, ‹_›, _, ‹_›, (respond_next_iff _ _ _).mp h⟩)

theorem execGen_cases (s t : State) (h : execGen s = .next t) :
    Turned s t ∨ (s.fault = false ∧ seqGen s ∧ ∃ paths, treePaths s.node s.root = some paths ∧
      t = State.answer { s with code := codeTable paths, phase := .codes }
        (rspWord .ok (BitVec.ofNat 56 paths.length))) := by
  rcases working_next _ _ _ _ h with h | ⟨hf, hc, h⟩
  · exact .inl h
  · split at h
    · cases h
    · exact .inr ⟨hf, hc, _, ‹_›, (respond_next_iff _ _ _).mp h⟩

/-- `ENC_SYM` is turned away, faults (R204), or appends the codeword. -/
theorem execEncSym_cases (x : Sym) (s t : State) (h : execEncSym x s = .next t) :
    Turned s t ∨
    (s.fault = false ∧ seqEncode s ∧ ∃ f, (f = .fltNocode ∨ f = .fltBufovf) ∧
      t = (s.faulted f (opcodeOf .ENC_SYM) (symField x)).answer (rspWord f 0#56)) ∨
    (s.fault = false ∧ seqEncode s ∧ ∃ c, getSym s.code x = some c ∧ s.bitlen + c.len.toNat ≤ s.bitbufMax.toNat ∧
      t = State.answer { s with b := s.b ++ c.bits, act := .encoding }
        (rspWord .ok (BitVec.ofNat 56 (s.b ++ c.bits).length))) := by
  rcases working_next _ _ _ _ h with h | ⟨hf, hc, h⟩
  · exact .inl h
  · split at h
    · exact .inr (.inl ⟨hf, hc, _, .inl rfl, (raise_next_iff _ _ _ _ _).mp h⟩)
    · split at h
      · exact .inr (.inl ⟨hf, hc, _, .inr rfl, (raise_next_iff _ _ _ _ _).mp h⟩)
      · exact .inr (.inr ⟨hf, hc, _, ‹_›, by omega, (respond_next_iff _ _ _).mp h⟩)

theorem execEncFin_cases (s t : State) (h : execEncFin s = .next t) :
    Turned s t ∨ (s.fault = false ∧ seqEncode s ∧
      t = State.answer { s.emitBytes (messageBytes s.b) with b := [], act := .idle }
        (rspWord .ok (BitVec.ofNat 56 (messageBytes s.b).length))) := by
  rcases working_next _ _ _ _ h with h | ⟨hf, hc, h⟩
  · exact .inl h
  · exact .inr ⟨hf, hc, (respond_next_iff _ _ _).mp h⟩

theorem execDecByte_cases (b : Byte) (s t : State) (h : execDecByte b s = .next t) :
    Turned s t ∨ (s.fault = false ∧ seqDecode s ∧ ∃ w,
      walkBits (s.openByte b).1.node (s.openByte b).1.root
        { cur := (s.openByte b).1.cur, notree := (s.openByte b).1.notree, syms := [] } (s.openByte b).2 = some w ∧
      t = State.answer { (s.openByte b).1.emitSyms w.syms with cur := w.cur, notree := w.notree }
        (rspWord .ok (BitVec.ofNat 56 w.syms.length))) := by
  rcases working_next _ _ _ _ h with h | ⟨hf, hc, h⟩
  · exact .inl h
  · simp only at h
    split at h
    · cases h
    · exact .inr ⟨hf, hc, _, ‹_›, (respond_next_iff _ _ _).mp h⟩

theorem execDecFin_cases (s t : State) (h : execDecFin s = .next t) :
    Turned s t ∨ (s.fault = false ∧ seqDecode s ∧
      t = s.closeStream.answer (rspWord .ok (s.closeStream.decodeFlags.setWidth 56))) := by
  rcases working_next _ _ _ _ h with h | ⟨hf, hc, h⟩
  · exact .inl h
  · exact .inr ⟨hf, hc, (respond_next_iff _ _ _).mp h⟩

/-- A read command or `NOP` changes nothing but the responses (R79). -/
theorem exec_readOnly_cases (i : Instr) (hi : i.readOnly = true) (s : State) : ∃ r, exec i s = .next (s.answer r) := by
  cases i <;> simp only [Instr.readOnly, Bool.false_eq_true] at hi
  case nop => exact ⟨_, rfl⟩
  case rdCsr n =>
    simp only [exec, execRdCsr]
    split <;> exact ⟨_, rfl⟩
  case rdNode k =>
    simp only [exec, execRdNode]
    split <;> exact ⟨_, rfl⟩
  case rdCode x k => exact ⟨_, rfl⟩
  case rdCnt x => exact ⟨_, rfl⟩

/-! ### The step -/

theorem step_idle (s : State) (h : s.cmdIn = []) : step s = .next s := by
  rw [step, s.takeCommand_nil h]
  rfl

/-- Everything a step can do: it is idle, or it runs the word it takes. -/
theorem step_cases (s : State) :
    (s.cmdIn = [] ∧ step s = .next s) ∨
    (∃ w ws, s.cmdIn = w :: ws ∧ step s = runWord w { s with cmdIn := ws }) := by
  cases h : s.cmdIn with
  | nil => exact .inl ⟨rfl, step_idle s h⟩
  | cons w ws => exact .inr ⟨w, ws, rfl, by rw [step, s.takeCommand_cons w ws h]⟩

end Sys2Proof.Machine
end

