-- ==== Sys2Proof/Laws/Decode.lean ====
section
/-! SUPPORT. The fields of a command word (spec/30_encoding.md R91), and what it means for a word to satisfy a row. -/

namespace Sys2Proof

/-! ### The fields of a command word assembled by R91 -/

@[simp] theorem fieldOp_commandWord (op a : Byte) (w : BitVec 32) : fieldOp (commandWord op a w) = op := by
  show BitVec.extractLsb' 56 8 (op ++ (0#16 ++ (a ++ w)) : BitVec (8 + (16 + (8 + 32)))) = op
  rw [BitVec.extractLsb'_append_eq_of_le (by decide)]
  simp

@[simp] theorem fieldRsv_commandWord (op a : Byte) (w : BitVec 32) : fieldRsv (commandWord op a w) = 0#16 := by
  show BitVec.extractLsb' 40 16 (op ++ (0#16 ++ (a ++ w)) : BitVec (8 + (16 + (8 + 32)))) = 0#16
  rw [BitVec.extractLsb'_append_eq_of_add_le (by decide), BitVec.extractLsb'_append_eq_of_le (by decide)]
  simp

@[simp] theorem fieldA_commandWord (op a : Byte) (w : BitVec 32) : fieldA (commandWord op a w) = a := by
  show BitVec.extractLsb' 32 8 (op ++ (0#16 ++ (a ++ w)) : BitVec (8 + (16 + (8 + 32)))) = a
  rw [BitVec.extractLsb'_append_eq_of_add_le (by decide), BitVec.extractLsb'_append_eq_of_add_le (by decide),
    BitVec.extractLsb'_append_eq_of_le (by decide)]
  simp

@[simp] theorem fieldW_commandWord (op a : Byte) (w : BitVec 32) : fieldW (commandWord op a w) = w := by
  show BitVec.extractLsb' 0 32 (op ++ (0#16 ++ (a ++ w)) : BitVec (8 + (16 + (8 + 32)))) = w
  rw [BitVec.extractLsb'_append_eq_of_add_le (by decide), BitVec.extractLsb'_append_eq_of_add_le (by decide),
    BitVec.extractLsb'_append_eq_of_add_le (by decide)]
  simp

/-- A word is made of its four fields (R91). -/
theorem word_of_fields (w : Word64) : w = fieldOp w ++ (fieldRsv w ++ (fieldA w ++ fieldW w)) := by
  simp only [fieldOp, fieldRsv, fieldA, fieldW]
  ext i hi
  show _ = BitVec.getLsbD (_ ++ _ : BitVec (8 + (16 + (8 + 32)))) i
  simp only [BitVec.getLsbD_append, BitVec.getLsbD_extractLsb']
  grind

/-- Two words are equal when their fields are. -/
theorem word_ext_fields (v w : Word64) (ho : fieldOp v = fieldOp w) (hr : fieldRsv v = fieldRsv w)
    (ha : fieldA v = fieldA w) (hw : fieldW v = fieldW w) : v = w := by
  rw [word_of_fields v, word_of_fields w, ho, hr, ha, hw]

theorem fieldOp_and (v w : Word64) : fieldOp (v &&& w) = fieldOp v &&& fieldOp w := by
  simp [fieldOp, BitVec.extractLsb'_and]

theorem fieldRsv_and (v w : Word64) : fieldRsv (v &&& w) = fieldRsv v &&& fieldRsv w := by
  simp [fieldRsv, BitVec.extractLsb'_and]

theorem fieldA_and (v w : Word64) : fieldA (v &&& w) = fieldA v &&& fieldA w := by
  simp [fieldA, BitVec.extractLsb'_and]

theorem fieldW_and (v w : Word64) : fieldW (v &&& w) = fieldW v &&& fieldW w := by
  simp [fieldW, BitVec.extractLsb'_and]

/-- A word satisfies a row exactly when each of its fields does. -/
theorem OpcodeRow.matches_iff (r : OpcodeRow) (w : Word64) :
    r.matches w = true ↔
      fieldOp w &&& fieldOp r.mask = fieldOp r.pattern ∧ fieldRsv w &&& fieldRsv r.mask = fieldRsv r.pattern ∧
      fieldA w &&& fieldA r.mask = fieldA r.pattern ∧ fieldW w &&& fieldW r.mask = fieldW r.pattern := by
  rw [← fieldOp_and, ← fieldRsv_and, ← fieldA_and, ← fieldW_and, OpcodeRow.matches, beq_iff_eq]
  constructor
  · intro h
    rw [h]
    exact ⟨rfl, rfl, rfl, rfl⟩
  · rintro ⟨h1, h2, h3, h4⟩
    exact word_ext_fields _ _ h1 h2 h3 h4

/-- Every row's mask covers the whole `op` field, and its pattern holds the opcode of its mnemonic (R94, R96). -/
theorem opcodeTable_op : ∀ r ∈ opcodeTable, fieldOp r.mask = 0xFF#8 ∧ fieldOp r.pattern = opcodeOf r.mnem := by
  decide

/-- Every row's mask covers the whole `rsv` field, and its pattern is zero outside `op` (R94). -/
theorem opcodeTable_rsv : ∀ r ∈ opcodeTable,
    fieldRsv r.mask = 0xFFFF#16 ∧ fieldRsv r.pattern = 0#16 ∧ fieldA r.pattern = 0#8 ∧ fieldW r.pattern = 0#32 := by
  decide

theorem opcodeOf_injective (m m' : Mnemonic) (h : opcodeOf m = opcodeOf m') : m = m' := by
  revert h
  cases m <;> cases m' <;> decide

theorem and_allOnes_eq {n : Nat} (x : BitVec n) : x &&& BitVec.allOnes n = x := by simp

/-- A word satisfies a row of the table exactly when its opcode is the row's, `rsv` is zero, and the bits of `a` and `w`
outside the row's operands are zero. -/
theorem matches_fields (r : OpcodeRow) (hr : r ∈ opcodeTable) (w : Word64) :
    r.matches w = true ↔
      fieldOp w = opcodeOf r.mnem ∧ fieldRsv w = 0#16 ∧ fieldA w &&& fieldA r.mask = 0#8 ∧
      fieldW w &&& fieldW r.mask = 0#32 := by
  obtain ⟨h1, h2⟩ := opcodeTable_op r hr
  obtain ⟨h3, h4, h5, h6⟩ := opcodeTable_rsv r hr
  rw [OpcodeRow.matches_iff, h1, h2, h3, h4, h5, h6]
  have e1 : fieldOp w &&& 0xFF#8 = fieldOp w := and_allOnes_eq (fieldOp w)
  have e2 : fieldRsv w &&& 0xFFFF#16 = fieldRsv w := and_allOnes_eq (fieldRsv w)
  rw [e1, e2]

/-- At most one row of the table has a given opcode. -/
theorem opcodeTable_mnem_injective : ∀ r ∈ opcodeTable, ∀ r' ∈ opcodeTable, r.mnem = r'.mnem → r = r' := by
  decide

/-- The word's row is the one `decode` finds (R95). -/
theorem decode_of_matches (r : OpcodeRow) (hr : r ∈ opcodeTable) (w : Word64) (h : r.matches w = true) :
    decode w = .ok (instrOf r.mnem w) := by
  have hu : ∀ r' ∈ opcodeTable, r'.matches w = true → r' = r := by
    intro r' hr' h'
    have e1 := ((matches_fields r hr w).mp h).1
    have e2 := ((matches_fields r' hr' w).mp h').1
    exact opcodeTable_mnem_injective r' hr' r hr (opcodeOf_injective _ _ (e2.symm.trans e1))
  unfold decode
  cases hf : opcodeTable.find? (fun r => r.matches w) with
  | none => exact absurd h (by simpa using List.find?_eq_none.mp hf r hr)
  | some r' =>
    have hm : r'.matches w = true := by simpa using List.find?_some (p := fun r : OpcodeRow => r.matches w) hf
    simp only [hu r' (List.mem_of_find?_eq_some hf) hm]

/-- A word that matches no row is rejected (R97). -/
theorem decode_of_no_match (w : Word64) (h : ∀ r ∈ opcodeTable, r.matches w = false) :
    decode w = .error (rejectReason w) := by
  have : opcodeTable.find? (fun r => r.matches w) = none := by
    rw [List.find?_eq_none]
    intro r hr
    simp [h r hr]
  rw [decode, this]

/-- `cw = op × 2^56 + rsv × 2^40 + a × 2^32 + w` with `rsv` = 0 (R91). -/
theorem commandWord_toNat (op a : Byte) (w : BitVec 32) :
    (commandWord op a w).toNat = op.toNat * 2 ^ 56 + a.toNat * 2 ^ 32 + w.toNat := by
  have h1 := a.isLt
  have h2 := w.isLt
  simp only [commandWord, BitVec.toNat_append, BitVec.toNat_ofNat, Nat.zero_mod, Nat.zero_shiftLeft, Nat.zero_or]
  have e : a.toNat <<< 32 ||| w.toNat = a.toNat * 2 ^ 32 + w.toNat := by
    rw [← Nat.shiftLeft_add_eq_or_of_lt h2, Nat.shiftLeft_eq]
  rw [e, ← Nat.shiftLeft_add_eq_or_of_lt (by omega), Nat.shiftLeft_eq]
  omega

/-- A symbol in the `a` field is its own number (R92). -/
theorem symField_toNat (s : Sym) : (symField s).toNat = s.toNat := by
  have := s.isLt
  simp only [symField, BitVec.toNat_setWidth]
  omega

/-- The command word as a number (R91). -/
theorem encode_toNat (i : Instr) :
    (encode i).toNat = (opcodeOf i.mnemonic).toNat * 2 ^ 56 + i.aField.toNat * 2 ^ 32 + i.wField.toNat :=
  commandWord_toNat _ _ _

end Sys2Proof
end

