-- ==== Sys2Proof/Laws/PerInstr.lean ====
section
/-! SUPPORT. Facts about every command as syntax, one lemma per constructor: its word has its row's opcode and zero
reserved bits (spec/30_encoding.md R91), and its operands are legal (R92). -/

namespace Sys2Proof.Laws.EncodesInFormat

open Sys2Proof

/-- The command is well formed, and its word is in format `C`: its row's opcode, `rsv` = 0, its operands in `a` and `w`. -/
def Statement (i : Instr) : Prop :=
  i.wellFormed = true ∧ fieldOp (encode i) = opcodeOf i.mnemonic ∧ fieldRsv (encode i) = 0#16 ∧
  fieldA (encode i) = i.aField ∧ fieldW (encode i) = i.wField

theorem fields (i : Instr) (h : i.wellFormed = true) : Statement i := by
  simp [Statement, encode, h]

theorem sym_legal (s : Sym) : OperandKind.sym.legal s.toNat = true := by
  have := s.isLt
  simp only [OperandKind.legal, decide_eq_true_eq]
  omega

theorem byte_legal (b : Byte) : OperandKind.byte.legal b.toNat = true := by
  have := b.isLt
  simp only [OperandKind.legal, decide_eq_true_eq]
  omega

theorem nop : Statement .nop := fields _ rfl
theorem clear : Statement .clear := fields _ rfl
theorem faSym (s : Sym) : Statement (.faSym s) := by
  apply fields
  simp [Instr.wellFormed, Instr.toAsm, AsmCmd.wellFormed, Instr.mnemonic, Mnemonic.operands, argsLegal, sym_legal]
theorem faFin : Statement .faFin := fields _ rfl
theorem leafPush (s : Sym) (v : Wgt) : Statement (.leafPush s v) := by
  apply fields
  have := v.isLt
  simp [Instr.wellFormed, Instr.toAsm, AsmCmd.wellFormed, Instr.mnemonic, Mnemonic.operands, argsLegal, sym_legal]
  simp [OperandKind.legal]
  omega
theorem build : Statement .build := fields _ rfl
theorem gen : Statement .gen := fields _ rfl
theorem encSym (s : Sym) : Statement (.encSym s) := by
  apply fields
  simp [Instr.wellFormed, Instr.toAsm, AsmCmd.wellFormed, Instr.mnemonic, Mnemonic.operands, argsLegal, sym_legal]
theorem encFin : Statement .encFin := fields _ rfl
theorem decByte (b : Byte) : Statement (.decByte b) := by
  apply fields
  simp [Instr.wellFormed, Instr.toAsm, AsmCmd.wellFormed, Instr.mnemonic, Mnemonic.operands, argsLegal, byte_legal]
theorem decFin : Statement .decFin := fields _ rfl
theorem rdCsr (n : Byte) : Statement (.rdCsr n) := by
  apply fields
  exact Bool.and_eq_true_iff.mpr ⟨byte_legal n, rfl⟩
theorem rdNode (i : Byte) : Statement (.rdNode i) := by
  apply fields
  exact Bool.and_eq_true_iff.mpr ⟨byte_legal i, rfl⟩
theorem rdCode (s : Sym) (k : BitVec 2) : Statement (.rdCode s k) := by
  apply fields
  have := k.isLt
  simp [Instr.wellFormed, Instr.toAsm, AsmCmd.wellFormed, Instr.mnemonic, Mnemonic.operands, argsLegal, sym_legal]
  simp [OperandKind.legal]
  omega
theorem rdCnt (s : Sym) : Statement (.rdCnt s) := by
  apply fields
  simp [Instr.wellFormed, Instr.toAsm, AsmCmd.wellFormed, Instr.mnemonic, Mnemonic.operands, argsLegal, sym_legal]

end Sys2Proof.Laws.EncodesInFormat
end

