-- ==== Sys2Proof/Laws/Safety.lean ====
section
/-! SUPPORT. The invariants: `invCheck` decides `Inv`, the parts of `Inv` do not look at the host's ports or at the output
streams, and how runs of commands compose. -/

namespace Sys2Proof.Machine

open Sys2Proof

theorem inv_of_check (s : State) (h : invCheck s = true) : Inv s := by
  simp only [invCheck, Bool.and_eq_true, decide_eq_true_eq] at h
  obtain ⟨⟨⟨⟨⟨⟨⟨⟨h1, h2⟩, h3⟩, h4⟩, h5⟩, h6⟩, h7⟩, h8⟩, h9⟩ := h
  exact ⟨h1, h2, h3, h4, h5, h6, h7, h8, h9⟩

theorem check_of_inv (s : State) (h : Inv s) : invCheck s = true := by
  simp only [invCheck, Bool.and_eq_true, decide_eq_true_eq]
  exact ⟨⟨⟨⟨⟨⟨⟨⟨h.buffer, h.leafList⟩, h.early⟩, h.counts⟩, h.tree⟩, h.code⟩, h.activity⟩, h.cursor⟩, h.faults⟩

/-- A response given changes nothing the invariants look at. -/
theorem inv_answer (s : State) (r : Word64) : Inv (s.answer r) ↔ Inv s := by
  constructor
  · intro h
    exact ⟨h.buffer, h.leafList, h.early, h.counts, h.tree, h.code, h.activity, h.cursor, h.faults⟩
  · intro h
    exact ⟨h.buffer, h.leafList, h.early, h.counts, h.tree, h.code, h.activity, h.cursor, h.faults⟩

/-- Nor does a command word taken from the port. -/
theorem inv_cmdIn (s : State) (ws : List Word64) : Inv { s with cmdIn := ws } ↔ Inv s := by
  constructor
  · intro h
    exact ⟨h.buffer, h.leafList, h.early, h.counts, h.tree, h.code, h.activity, h.cursor, h.faults⟩
  · intro h
    exact ⟨h.buffer, h.leafList, h.early, h.counts, h.tree, h.code, h.activity, h.cursor, h.faults⟩

/-- Nor do bytes and symbols already emitted. -/
theorem inv_behind (s : State) (p : List Byte) (q : List Sym) : Inv (s.behind p q) ↔ Inv s := by
  constructor
  · intro h
    exact ⟨h.buffer, h.leafList, h.early, h.counts, h.tree, h.code, h.activity, h.cursor, h.faults⟩
  · intro h
    exact ⟨h.buffer, h.leafList, h.early, h.counts, h.tree, h.code, h.activity, h.cursor, h.faults⟩

/-- Before `BUILD` the leaf list is all of `NODE` (R39). -/
theorem leaves_eq_node (s : State) (h : Inv s) (hp : s.phase = .load ∨ s.phase = .leaves) : s.leaves = s.node := by
  have := (h.early hp).1
  rw [State.leaves, ← this, State.nnode, List.take_length]

/-- Distinct 7-bit symbols are at most 128 (R122), so `NLEAF` ≤ 128 (R38). -/
theorem nleaf_le (s : State) (h : Inv s) : s.nleaf ≤ 128 := by
  obtain ⟨h1, -, h3, -, -⟩ := h.leafList
  have hl : (s.leaves.map NodeEntry.sym).length = s.nleaf := by
    rw [List.length_map, State.leaves, List.length_take]
    exact Nat.min_eq_left h1
  have hn : ((s.leaves.map NodeEntry.sym).map BitVec.toFin).Nodup :=
    h3.map fun a b hab => BitVec.eq_of_toFin_eq hab
  have := hn.length_le_card
  rwa [List.length_map, hl, Fintype.card_fin] at this

/-! ### Runs of commands -/

theorem execAll_append (is js : List Instr) (s : State) :
    execAll (is ++ js) s =
      match execAll is s with
      | .next t => execAll js t
      | .fault r => .fault r
      | .refused r => .refused r := by
  induction is generalizing s with
  | nil => rfl
  | cons i is ih =>
    simp only [List.cons_append, execAll]
    cases exec i s with
    | next t => exact ih t
    | fault r => rfl
    | refused r => rfl

/-- A command that completes answers its state and its data. -/
theorem okAnswer_respond (d : Data) (t : State) :
    okAnswer (respond d t) = some (t.answer (rspWord .ok d), d) := by
  have hl : (t.answer (rspWord .ok d)).rspOut.getLast? = some (rspWord .ok d) := by simp [State.answer]
  simp only [okAnswer, respond_eq, hl, rspWord_code, rspWord_data, if_true]

theorem execOk_append (is js : List Instr) (s : State) :
    execOk (is ++ js) s =
      (execOk is s).bind fun p => (execOk js p.1).map fun q => (q.1, p.2 ++ q.2) := by
  induction is generalizing s with
  | nil => simp [execOk]
  | cons i is ih =>
    simp only [List.cons_append, execOk, ih]
    cases okAnswer (exec i s) with
    | none => rfl
    | some p =>
      simp only [Option.bind_some]
      cases execOk is p.1 with
      | none => rfl
      | some q => cases h : execOk js q.1 <;> simp [h]

/-- A command that answers `OK` at the head of a run. -/
theorem execOk_cons (i : Instr) (is : List Instr) (s t : State) (d : Data) (h : exec i s = respond d t) :
    execOk (i :: is) s = (execOk is (t.answer (rspWord .ok d))).map fun p => (p.1, d :: p.2) := by
  rw [execOk, h, okAnswer_respond]
  rfl

/-! ### Iterations of the merge -/

@[simp] theorem Queues.iterate_zero (q : Queues) : Queues.iterate 0 q = some q := rfl

theorem Queues.iterate_succ (n : Nat) (q : Queues) : Queues.iterate (n + 1) q = q.mergeOne.bind (Queues.iterate n) := rfl

theorem Queues.iterate_add (m n : Nat) (q : Queues) :
    Queues.iterate (m + n) q = (Queues.iterate m q).bind (Queues.iterate n) := by
  induction m generalizing q with
  | zero => simp
  | succ m ih =>
    rw [Nat.add_right_comm, Queues.iterate_succ, Queues.iterate_succ]
    cases q.mergeOne with
    | none => rfl
    | some q' => exact ih q'

/-- Before `BUILD` the merge starts from all of `NODE` (R39, R126). -/
theorem queues_eq (s : State) (h : Inv s) (hp : s.phase = .load ∨ s.phase = .leaves) :
    s.queues = { node := s.node, nleaf := s.nleaf, sh := 0, th := s.nleaf } := by
  rw [State.queues, leaves_eq_node s h hp]

/-! ### Following a path -/

theorem descend_append (node : List NodeEntry) (i : NodeIdx) (S T : Bits) :
    descend node i (S ++ T) = (descend node i S).bind fun j => descend node j T := by
  induction S generalizing i with
  | nil => rfl
  | cons t ts ih =>
    simp only [List.cons_append, descend]
    cases childOf node (some i) t with
    | none => rfl
    | some c => exact ih c

end Sys2Proof.Machine
end

