-- ==== Sys2Proof/Tests/Slice0.lean ====
section
/-! SUPPORT. The model's own tests. Expected values are those of spec/95_test_vectors.md (T1 to T26, P1 to P6) or of the
worked examples the rules give; each comment names its source. The witnesses at the end show, for each statement of
Certificates/Slice0/Obligations.lean that has hypotheses, states and operands that meet them all, clause by clause. -/

namespace Sys2Proof.Tests

open Sys2Proof Sys2Proof.Machine

-- one theorem at a time: in parallel, the stacks of many kernel evaluations alone reach the memory limit
set_option Elab.async false

/-! ### Small states -/

/-- The next state, where there is one. -/
def nextOf : Result → Option State
  | .next t => some t
  | .fault _ => none
  | .refused _ => none

/-- The response of a command, where the model does not stop. -/
def answerOf (i : Instr) (s : State) : Option Word64 := (nextOf (exec i s)).bind fun t => t.rspOut.getLast?

/-- Three leaves pushed, weights [1, 1, 2] (T8 line 1, T23). -/
def loaded : State := { State.reset with node := [.leaf 1#7 1#32, .leaf 2#7 1#32, .leaf 3#7 2#32], nleaf := 3, total := 4#32 }

/-- The tree of `loaded` (T8 line 1): N3 = (0, 1) w 2, N4 = (2, 3) w 4. -/
def treed : State :=
  { loaded with node := loaded.node ++ [.inner 2#32 0 1, .inner 4#32 2 3], root := some 4, cur := some 4, phase := .tree }

/-- Its code table (T8 line 1): 1 = "10", 2 = "11", 3 = "0". -/
def coded : State :=
  { treed with code := codeTable [(3#7, [false]), (1#7, [true, false]), (2#7, [true, true])], phase := .codes }

/-- An encode in flight that holds "010" (`ENC_SYM` 3, 1). -/
def encodingState : State := { coded with b := [false, true, false], act := .encoding }

/-- A decode in flight at node 3, after `DEC_BYTE 0x03` (T19 line 3). -/
def decodingState : State := { treed with act := .decoding, cur := some 3 }

/-- The fault state of P6, after `ENC_SYM 9`. -/
def faultedState : State := { encodingState with fault := true, errcode := 0x10#8, errinfo := 0x4009#16 }

/-- Scenario A counted: 97 three times, 98 once (P1 steps 1 to 4). -/
def counted : State :=
  { State.reset with cnt := setSym (setSym (Vector.replicate 128 0#32) 97#7 3#32) 98#7 1#32, nsym := 4#32 }

/-- Scenario B counted: 122 four times (P2 steps 1 to 4). -/
def countedOne : State := { State.reset with cnt := setSym (Vector.replicate 128 0#32) 122#7 4#32, nsym := 4#32 }

/-- Scenario A after `FA_FIN` (P1 step 5). -/
def leavesState : State :=
  { counted with node := [.leaf 98#7 1#32, .leaf 97#7 3#32], nleaf := 2, total := 4#32, phase := .leaves }

/-- One symbol counted once, the last of the alphabet: its phantom wraps to 1 (R115). -/
def countedLast : State := { State.reset with cnt := setSym (Vector.replicate 128 0#32) 127#7 1#32, nsym := 1#32 }

/-- One leaf pushed (T11). -/
def oneLeaf : State := { State.reset with node := [.leaf 5#7 1#32], nleaf := 1, total := 1#32 }

/-- `BUILD` of the empty source (T10). -/
def noTree : State := { State.reset with phase := .tree }

/-! ### Well-formedness: an ill-formed command for each check, refused (R92, R99) -/

theorem test_wf_symbol : (AsmCmd.mk .FA_SYM [128]).wellFormed = false := by decide
theorem test_wf_byte : (AsmCmd.mk .DEC_BYTE [256]).wellFormed = false := by decide
theorem test_wf_csr : (AsmCmd.mk .RD_CSR [256]).wellFormed = false := by decide
theorem test_wf_idx : (AsmCmd.mk .RD_NODE [256]).wellFormed = false := by decide
theorem test_wf_weight : (AsmCmd.mk .LEAF_PUSH [1, 4294967296]).wellFormed = false := by decide
theorem test_wf_chunk : (AsmCmd.mk .RD_CODE [1, 4]).wellFormed = false := by decide
theorem test_wf_missing_operand : (AsmCmd.mk .LEAF_PUSH [1]).toInstr = none := by decide
theorem test_wf_extra_operand : (AsmCmd.mk .BUILD [0]).toInstr = none := by decide
theorem test_wf_boundaries :
    (AsmCmd.mk .LEAF_PUSH [127, 4294967295]).toInstr = some (.leafPush 127#7 0xFFFFFFFF#32) ∧
    (AsmCmd.mk .RD_CODE [0, 3]).toInstr = some (.rdCode 0#7 3#2) := by decide

/-! ### Decoding: words written out from R91 and R96 (T1, T2) -/

theorem test_decode_nop : decode 0x0000000000000000#64 = .ok .nop := by decide
theorem test_decode_clear : decode 0x0100000000000000#64 = .ok .clear := by decide
theorem test_decode_faSym : decode 0x1000007F00000000#64 = .ok (.faSym 127#7) := by decide
theorem test_decode_faFin : decode 0x1100000000000000#64 = .ok .faFin := by decide
theorem test_decode_leafPush : decode 0x2000006200000001#64 = .ok (.leafPush 98#7 1#32) := by decide
theorem test_decode_build : decode 0x2100000000000000#64 = .ok .build := by decide
theorem test_decode_gen : decode 0x3000000000000000#64 = .ok .gen := by decide
theorem test_decode_encSym : decode 0x4000007A00000000#64 = .ok (.encSym 122#7) := by decide
theorem test_decode_encFin : decode 0x4100000000000000#64 = .ok .encFin := by decide
theorem test_decode_decByte : decode 0x500000FF00000000#64 = .ok (.decByte 0xFF#8) := by decide
theorem test_decode_decFin : decode 0x5100000000000000#64 = .ok .decFin := by decide
theorem test_decode_rdCsr : decode 0x6000000B00000000#64 = .ok (.rdCsr 11#8) := by decide
theorem test_decode_rdNode : decode 0x610000FF00000000#64 = .ok (.rdNode 255#8) := by decide
theorem test_decode_rdCode : decode 0x6200000100000003#64 = .ok (.rdCode 1#7 3#2) := by decide
theorem test_decode_rdCnt : decode 0x6300004100000000#64 = .ok (.rdCnt 65#7) := by decide

theorem test_reject_opcode : decode 0x0200000000000000#64 = .error .unlistedOpcode := by decide
theorem test_reject_opcode_ff : decode 0xFF00000000000000#64 = .error .unlistedOpcode := by decide
theorem test_reject_reserved : decode 0x2000010000000000#64 = .error .reservedBits := by decide
theorem test_reject_symbol_128 : decode 0x1000008000000000#64 = .error .operandBits := by decide
theorem test_reject_nop_w : decode 0x0000000000000001#64 = .error .operandBits := by decide
theorem test_reject_decByte_w : decode 0x5000000000000001#64 = .error .operandBits := by decide
theorem test_reject_chunk_4 : decode 0x6200000100000004#64 = .error .operandBits := by decide

theorem test_encode_leafPush : encode (.leafPush 6#7 0xFFFFFFFF#32) = 0x20000006FFFFFFFF#64 := by decide
theorem test_encode_rdCode : encode (.rdCode 1#7 3#2) = 0x6200000100000003#64 := by decide
theorem test_table_word : decodeTableWord 64 0x5000001E00000000 = some (.decByte 0x1E#8) := by decide

/-- R99: the examples of the assembler syntax. -/
theorem test_assemble : assembleWords ["LEAF_PUSH 98, 1".toList, "FA_SYM 'z' # z".toList, "DEC_BYTE 0x1E".toList] =
    some [0x2000006200000001#64, 0x1000007A00000000#64, 0x5000001E00000000#64] := by decide +kernel

/-- R195: a pseudo-command expands to its commands; R99: an operand outside its range is an error. -/
theorem test_assemble_pseudo :
    assemble ["BUILD_FREQ 97, 'b'".toList, "BUILD_TREE".toList] = some [.faSym 97#7, .faSym 98#7, .faFin, .build] ∧
    assemble ["FA_SYM 128".toList] = none := by decide +kernel

/-! ### The step -/

/-- T2: an illegal word is answered 0x01 in any state, the fault state included (P6 step 15). -/
theorem test_step_illegal :
    (nextOf (step (faultedState.withFetchWord 64 0x2000010000000000))).map (fun t => (t.rspOut, t.statusWord)) =
      some ([0x0100000000000000#64], 0x0000000F#32) := by decide +kernel

/-- P1 step 1: the first word after reset runs. -/
theorem test_step_first_word :
    (nextOf (step (State.reset.withFetchWord 64 0x1000006100000000))).map (fun t => (t.rspOut, t.nsym, t.cmdIn)) =
      some ([0x0000000000000001#64], 1#32, []) := by decide +kernel

/-! ### One step of each command -/

theorem test_nop : answerOf .nop faultedState = some 0#64 := by decide +kernel
theorem test_clear :
    (nextOf (exec .clear { faultedState with outBytes := [6#8] })).map (fun t => (t.statusWord, t.root, t.b, t.outBytes)) =
      some (0#32, none, [], [6#8]) := by decide +kernel  -- T24, P6 step 16
theorem test_faSym : answerOf (.faSym 97#7) counted = some 4#64 := by decide +kernel  -- R111
theorem test_faSym_overflow : answerOf (.faSym 5#7) { State.reset with nsym := 0xFFFFFFFF#32 } =
    some 0x0900000000000000#64 := by decide +kernel  -- T5(d)
theorem test_faFin : (nextOf (exec .faFin counted)).map (fun t => (t.node, t.statusWord)) =
    some ([.leaf 98#7 1#32, .leaf 97#7 3#32], 1#32) := by decide +kernel  -- P1 step 5
theorem test_faFin_phantom : (nextOf (exec .faFin countedOne)).map (fun t => (t.node, t.statusWord)) =
    some ([.leaf 123#7 0#32, .leaf 122#7 4#32], 0x21#32) := by decide +kernel  -- P2 step 5
theorem test_leafPush_order : answerOf (.leafPush 6#7 1#32) loaded = some 0x0600000000000000#64 := by decide +kernel  -- T6
theorem test_leafPush_overflow : answerOf (.leafPush 6#7 0xFFFFFFFF#32) loaded = some 0x0700000000000000#64 := by
  decide +kernel  -- T6
theorem test_build : (nextOf (exec .build loaded)).map (fun t => (t.node.drop 3, t.root, t.rspOut)) =
    some ([.inner 2#32 0 1, .inner 4#32 2 3], some 4, [4#64]) := by decide +kernel  -- T8 line 1
/-- T8, weights [2, 3, 4, 4, 5, 7]: N8 = (4, 6) takes the source on a tie, then the lighter target. -/
theorem test_build_target : (buildNodes
    [.leaf 1#7 2#32, .leaf 2#7 3#32, .leaf 3#7 4#32, .leaf 4#7 4#32, .leaf 5#7 5#32, .leaf 6#7 7#32] 6).map (·.drop 6) =
    some [.inner 5#32 0 1, .inner 8#32 2 3, .inner 10#32 4 6, .inner 15#32 5 7, .inner 25#32 8 9] := by decide +kernel
theorem test_gen : (nextOf (exec .gen treed)).map (fun t => (getSym t.code 1#7, getSym t.code 3#7, getSym t.code 9#7, t.rspOut)) =
    some (some ⟨2#7, 2#127⟩, some ⟨1#7, 0#127⟩, none, [3#64]) := by decide +kernel  -- R147
theorem test_gen_in_decode : (nextOf (exec .gen decodingState)).map (fun t => t.statusWord) = some 0x13#32 := by
  decide +kernel  -- T12(d)
theorem test_encSym : (nextOf (exec (.encSym 2#7) encodingState)).map (fun t => (t.b, t.rspOut)) =
    some ([false, true, false, true, true], [5#64]) := by decide +kernel  -- P5 step 13
theorem test_encSym_nocode : (nextOf (exec (.encSym 9#7) encodingState)).map (fun t => (t.rspOut, t.errcode, t.errinfo, t.b)) =
    some ([0x1000000000000000#64], 0x10#8, 0x4009#16, [false, true, false]) := by decide +kernel  -- P6 step 6
theorem test_encFin : (nextOf (exec .encFin { encodingState with b := [false, true, false, true, true, false] })).map
    (fun t => (t.outBytes, t.b, t.rspOut)) = some ([0x56#8], [], [1#64]) := by decide +kernel  -- P5 step 15
theorem test_encFin_empty : (nextOf (exec .encFin coded)).map (fun t => t.outBytes) = some [0x01#8] := by
  decide +kernel  -- R158
theorem test_decByte : (nextOf (exec (.decByte 0x56#8) treed)).map (fun t => (t.outSyms, t.cur, t.rspOut)) =
    some ([3#7, 1#7, 2#7, 3#7], some 4, [4#64]) := by decide +kernel  -- R179(a)
theorem test_decByte_later : (nextOf (exec (.decByte 0xFF#8) decodingState)).map (fun t => (t.outSyms, t.cur)) =
    some ([2#7, 2#7, 2#7, 2#7], some 3) := by decide +kernel  -- R179(b)
theorem test_decFin_truncated : (nextOf (exec .decFin decodingState)).map (fun t => (t.rspOut, t.statusWord)) =
    some ([2#64], 0x202#32) := by decide +kernel  -- T19 line 3
theorem test_decFin_empty : (nextOf (exec .decFin treed)).map (fun t => (t.rspOut, t.statusWord)) =
    some ([4#64], 0x402#32) := by decide +kernel  -- T19 line 4
theorem test_rdCsr_id : answerOf (.rdCsr 0#8) State.reset = some 0x0000000048554631#64 := by decide +kernel  -- R183
theorem test_rdCsr_12 : answerOf (.rdCsr 12#8) State.reset = some 0x0400000000000000#64 := by decide +kernel  -- R183
theorem test_rdNode_leaf : answerOf (.rdNode 0#8) treed = some 0x0081FFFF00000001#64 := by decide +kernel  -- R184
theorem test_rdNode_inner : answerOf (.rdNode 4#8) treed = some 0x0000020300000004#64 := by decide +kernel  -- R184
/-- T23: a codeword of 40 bits, 0xFFFFFFFFFE, chunk 1. -/
theorem test_rdCode_chunk : answerOf (.rdCode 5#7 1#2)
    { coded with code := setSym coded.code 5#7 (some ⟨40#7, 0xFFFFFFFFFE#127⟩) } = some 0x00A80000000000FF#64 := by
  decide +kernel
theorem test_rdCode : answerOf (.rdCode 1#7 0#2) coded = some 0x0082000000000002#64 := by decide +kernel  -- R185
theorem test_rdCnt : answerOf (.rdCnt 97#7) counted = some 3#64 := by decide +kernel  -- R186

/-! ### Witnesses: the small states meet the invariants -/

theorem inv_reset : Inv State.reset :=
  ⟨by decide +kernel, by decide +kernel, fun _ => ⟨rfl, rfl, rfl, rfl, rfl⟩, by decide +kernel, by decide +kernel,
    ⟨nofun, nofun⟩, by decide +kernel, by decide +kernel, by decide +kernel⟩
theorem inv_loaded : Inv loaded :=
  ⟨by decide +kernel, by decide +kernel, fun _ => ⟨rfl, rfl, rfl, rfl, rfl⟩, by decide +kernel, by decide +kernel,
    ⟨nofun, nofun⟩, by decide +kernel, by decide +kernel, by decide +kernel⟩
theorem inv_leavesState : Inv leavesState :=
  ⟨by decide +kernel, by decide +kernel, fun _ => ⟨rfl, rfl, rfl, rfl, rfl⟩, by decide +kernel, by decide +kernel,
    ⟨nofun, nofun⟩, by decide +kernel, by decide +kernel, by decide +kernel⟩
theorem inv_treed : Inv treed :=
  ⟨by decide +kernel, by decide +kernel, fun h => h.elim nofun nofun, by decide +kernel, by decide +kernel,
    ⟨fun _ => rfl, nofun⟩, by decide +kernel, by decide +kernel, by decide +kernel⟩
theorem inv_coded : Inv coded :=
  ⟨by decide +kernel, by decide +kernel, fun h => h.elim nofun nofun, by decide +kernel, by decide +kernel,
    ⟨nofun, fun _ => rfl⟩, by decide +kernel, by decide +kernel, by decide +kernel⟩
theorem inv_decoding : Inv decodingState :=
  ⟨by decide +kernel, by decide +kernel, fun h => h.elim nofun nofun, by decide +kernel, by decide +kernel,
    ⟨fun _ => rfl, nofun⟩, by decide +kernel, by decide +kernel, by decide +kernel⟩
theorem inv_faulted : Inv faultedState :=
  ⟨by decide +kernel, by decide +kernel, fun h => h.elim nofun nofun, by decide +kernel, by decide +kernel,
    ⟨nofun, fun _ => rfl⟩, by decide +kernel, by decide +kernel, by decide +kernel⟩
theorem inv_noTree : Inv noTree :=
  ⟨by decide +kernel, by decide +kernel, fun h => h.elim nofun nofun, by decide +kernel, by decide +kernel,
    ⟨fun _ => rfl, nofun⟩, by decide +kernel, by decide +kernel, by decide +kernel⟩

/-! ### Witnesses: hypotheses of the statements, clause by clause -/

theorem next_of (r : Result) (h : (nextOf r).isSome = true) : ∃ t, r = .next t := by
  cases r with
  | next t => exact ⟨t, rfl⟩
  | fault _ => cases h
  | refused _ => cases h

theorem next_code (i : Instr) (s : State) (e : Option Byte)
    (h : (nextOf (exec i s)).map State.lastCode = some e) : ∃ t, exec i s = .next t ∧ t.lastCode = e := by
  cases hr : exec i s with
  | next t => rw [hr] at h; exact ⟨t, rfl, Option.some.inj h⟩
  | fault _ => rw [hr] at h; cases h
  | refused _ => rw [hr] at h; cases h

theorem witness_DecodeThenEncode :
    decode 0x6200000100000003#64 = .ok (.rdCode 1#7 3#2) ∧ decode 0x20000006FFFFFFFF#64 = .ok (.leafPush 6#7 0xFFFFFFFF#32) := by
  decide
theorem witness_WordIsAtMostOneRow : ∃ r ∈ opcodeTable, 63 < 64 ∧ 0x1000007F00000000#64 &&& r.mask = r.pattern := by decide
theorem witness_UnmatchedWordIsIllegal :
    (∀ r ∈ opcodeTable, 0x0200000000000000#64 &&& r.mask ≠ r.pattern) ∧
    (∀ r ∈ opcodeTable, 0x1000008000000000#64 &&& r.mask ≠ r.pattern) ∧
    (State.withFetchWord loaded 64 0x0200000000000000).cmdIn = [0x0200000000000000#64] := by decide
theorem witness_StepRunsDecodedCommand :
    (State.withFetchWord loaded 64 0x2100000000000000).cmdIn = 0x2100000000000000#64 :: [] ∧
    decode 0x2100000000000000#64 = .ok .build := by decide
theorem witness_IdleEngineHoldsState : State.reset.cmdIn = [] := rfl
theorem witness_EveryWordGetsOneResponse :
    Inv (loaded.issueFirst 0x2100000000000000#64) ∧
    (loaded.issueFirst 0x2100000000000000#64).cmdIn = 0x2100000000000000#64 :: [] :=
  ⟨(inv_cmdIn _ _).mpr inv_loaded, rfl⟩
theorem witness_StepKeepsInvariants :
    Inv (loaded.issueFirst 0x2100000000000000#64) ∧ ∃ t, step (loaded.issueFirst 0x2100000000000000#64) = .next t :=
  ⟨(inv_cmdIn _ _).mpr inv_loaded, next_of _ (by decide +kernel)⟩
theorem witness_ResetMeetsInvariants : 1 ≤ (1#32).toNat := by decide

theorem witness_FaSymCountsOneOccurrence :
    faultedState.fault = true ∧ (loaded.fault = false ∧ ¬(loaded.phase = .load ∧ loaded.nleaf = 0)) ∧
    (let s := { counted with nsym := 0xFFFFFFFF#32 };
      s.fault = false ∧ s.phase = .load ∧ s.nleaf = 0 ∧ s.nsym.toNat = 2 ^ 32 - 1) ∧
    (let s := { counted with nsym := 0xFFFFFFFE#32 };
      s.fault = false ∧ s.phase = .load ∧ s.nleaf = 0 ∧ s.nsym.toNat < 2 ^ 32 - 1) := by decide +kernel

theorem sortedCounts_of (cnt : Vector (BitVec 32) 128) (D : List (Sym × Wgt))
    (h1 : D.Pairwise fun x y => x.2 < y.2 ∨ (x.2 = y.2 ∧ x.1 < y.1))
    (h2 : ((allSyms.map fun s => (s, getSym cnt s)).filter fun p => p.2 ≠ 0#32).isPerm D = true) :
    SortedCounts cnt D := by
  refine ⟨h1, fun p => ?_⟩
  rw [← (List.isPerm_iff.mp h2).mem_iff, List.mem_filter, List.mem_map]
  constructor
  · rintro ⟨⟨x, -, rfl⟩, hx⟩
    exact ⟨rfl, of_decide_eq_true hx⟩
  · rintro ⟨h3, h4⟩
    exact ⟨⟨p.1, List.mem_map.mpr ⟨p.1.toNat, List.mem_range.mpr p.1.isLt, by simp⟩, by rw [← h3]⟩, decide_eq_true h4⟩

theorem witness_FaFinBuildsSortedLeafList :
    (SortedCounts counted.cnt [(98#7, 1#32), (97#7, 3#32)] ∧ counted.fault = false ∧ counted.phase = .load ∧
      counted.nleaf = 0) ∧
    SortedCounts countedOne.cnt [(122#7, 4#32)] ∧ SortedCounts countedLast.cnt [(127#7, 1#32)] ∧
    SortedCounts State.reset.cnt [] ∧ faultedState.fault = true ∧
    (loaded.fault = false ∧ ¬(loaded.phase = .load ∧ loaded.nleaf = 0)) :=
  ⟨⟨sortedCounts_of _ _ (by decide +kernel) (by decide +kernel), rfl, rfl, rfl⟩,
    sortedCounts_of _ _ (by decide +kernel) (by decide +kernel),
    sortedCounts_of _ _ (by decide +kernel) (by decide +kernel),
    sortedCounts_of _ _ (by decide +kernel) (by decide +kernel), rfl, by decide +kernel⟩

theorem witness_LeafPushAppendsOneLeaf :
    (Inv faultedState ∧ faultedState.fault = true) ∧
    (Inv treed ∧ treed.fault = false ∧ ¬(treed.phase = .load ∧ treed.nsym = 0#32)) ∧
    Inv loaded ∧ loaded.fault = false ∧ loaded.phase = .load ∧ loaded.nsym = 0#32 ∧
    (∃ e ∈ loaded.node, e.sym = 3#7) ∧ (∀ e ∈ loaded.node, e.sym ≠ 6#7) ∧
    loaded.node.getLast? = some (.leaf 3#7 2#32) ∧ 1#32 < (NodeEntry.leaf 3#7 2#32).wgt ∧
    (NodeEntry.leaf 3#7 2#32).wgt ≤ 0xFFFFFFFC#32 ∧ loaded.total.toNat + (0xFFFFFFFC#32).toNat > 2 ^ 32 - 1 ∧
    loaded.total.toNat + (0xFFFFFFFB#32).toNat ≤ 2 ^ 32 - 1 :=
  ⟨⟨inv_faulted, rfl⟩, ⟨inv_treed, by decide +kernel⟩, inv_loaded, by decide +kernel⟩

theorem witness_BuildOfNoLeafAndOfOneLeaf :
    faultedState.fault = true ∧
    (treed.fault = false ∧ ¬(treed.phase = .leaves ∨ (treed.phase = .load ∧ treed.nsym = 0#32))) ∧
    (oneLeaf.fault = false ∧ oneLeaf.phase = .load ∧ oneLeaf.nsym = 0#32 ∧ oneLeaf.nleaf = 1) ∧
    (State.reset.fault = false ∧ State.reset.phase = .load ∧ State.reset.nsym = 0#32 ∧ State.reset.nleaf = 0) ∧
    Inv leavesState ∧ leavesState.phase = .leaves := by
  refine ⟨rfl, by decide +kernel, by decide +kernel, by decide +kernel, inv_leavesState, rfl⟩

theorem witness_BuildMakesTheTree :
    Inv loaded ∧ loaded.fault = false ∧ (loaded.phase = .load ∧ loaded.nsym = 0#32) ∧ 2 ≤ loaded.nleaf :=
  ⟨inv_loaded, by decide +kernel⟩
/-- R127 to R130 on T8 line 1: two iterations, which end with `SH` = 3, `TH` = 4. -/
theorem witness_BuildMakesTheTree_iterations : Queues.iterate 2 loaded.queues = some ⟨treed.node, 3, 3, 4⟩ := by
  decide +kernel
theorem witness_TargetQueueStaysSorted :
    Inv loaded ∧ ∃ t, exec .build loaded = .next t ∧ loaded.nleaf ≤ 3 ∧ t.node[3]? = some (.inner 2#32 0 1) ∧
      t.node[3 + 1]? = some (.inner 4#32 2 3) :=
  ⟨inv_loaded, _, rfl, by decide +kernel⟩
theorem witness_TakePrefersSourceOnTies :
    (let q : Queues := ⟨[.leaf 1#7 2#32, .inner 2#32 0 0], 1, 1, 1⟩; q.sh = q.nleaf) ∧
    (let q : Queues := ⟨[.leaf 1#7 2#32], 1, 0, 1⟩; q.sh ≠ q.nleaf ∧ q.th = q.node.length) ∧
    (let q : Queues := ⟨[.leaf 1#7 2#32, .inner 2#32 0 0], 1, 0, 1⟩;
      q.sh ≠ q.nleaf ∧ q.th ≠ q.node.length ∧ q.node[q.sh]? = some (.leaf 1#7 2#32) ∧
      q.node[q.th]? = some (.inner 2#32 0 0) ∧ (2#32).toNat ≤ (2#32).toNat) ∧
    (let q : Queues := ⟨[.leaf 1#7 2#32, .inner 1#32 0 0], 1, 0, 1⟩;
      q.node[q.sh]? = some (.leaf 1#7 2#32) ∧ q.node[q.th]? = some (.inner 1#32 0 0) ∧ (1#32).toNat < (2#32).toNat) ∧
    (let q : Queues := ⟨[.leaf 1#7 1#32, .leaf 2#7 1#32], 2, 0, 2⟩;
      q.take = some (0, ⟨q.node, 2, 1, 2⟩) ∧ Queues.take ⟨q.node, 2, 1, 2⟩ = some (1, ⟨q.node, 2, 2, 2⟩) ∧
      q.node[0]? = some (.leaf 1#7 1#32) ∧ q.node[1]? = some (.leaf 2#7 1#32)) := by decide
theorem witness_BuildDependsOnLeafListAlone :
    ∃ t t', exec .build loaded = .next t ∧ exec .build { loaded with outBytes := [1#8], total := 9#32 } = .next t' ∧
      seqCond loaded .build ∧ seqCond { loaded with outBytes := [1#8], total := 9#32 } .build :=
  ⟨_, _, rfl, rfl, .inr (by decide +kernel), .inr (by decide +kernel)⟩

theorem witness_GenWritesOneCodePerLeaf :
    faultedState.fault = true ∧ (loaded.fault = false ∧ loaded.phase ≠ .tree) ∧
    (Inv treed ∧ treed.fault = false ∧ treed.phase = .tree) ∧ Inv noTree :=
  ⟨rfl, by decide +kernel, ⟨inv_treed, rfl, rfl⟩, inv_noTree⟩
/-- Also for `CodewordLengthBounds` and `KraftSumIsOne`. -/
theorem witness_CodewordIsThePathToItsLeaf :
    Inv coded ∧ coded.phase = .codes ∧ getSym coded.code 1#7 = some ⟨2#7, 2#127⟩ ∧ 2 ≤ coded.nleaf :=
  ⟨inv_coded, by decide +kernel⟩
theorem witness_CodesArePrefixFree :
    Inv coded ∧ coded.phase = .codes ∧ 3#7 ≠ 1#7 ∧ getSym coded.code 3#7 = some ⟨1#7, 0#127⟩ ∧
    getSym coded.code 1#7 = some ⟨2#7, 2#127⟩ ∧ (1#7).toNat ≤ (2#7).toNat :=
  ⟨inv_coded, by decide +kernel⟩

theorem witness_EncSymAppendsTheCodeword :
    faultedState.fault = true ∧
    (treed.fault = false ∧ ¬(treed.phase = .codes ∧ (treed.act = .idle ∨ treed.act = .encoding))) ∧
    (encodingState.fault = false ∧ encodingState.phase = .codes ∧ encodingState.act = .encoding ∧
      getSym encodingState.code 9#7 = none ∧ getSym encodingState.code 1#7 = some ⟨2#7, 2#127⟩) ∧
    (let s := { encodingState with bitbufMax := 4#32 }; s.b.length + (2#7).toNat > s.bitbufMax.toNat) ∧
    (let s := { encodingState with bitbufMax := 5#32 }; s.b.length + (2#7).toNat ≤ s.bitbufMax.toNat) := by decide +kernel
theorem witness_FaultHoldsUntilClear : faultedState.fault = true ∧ Instr.clear ∉ [.nop, .encSym 9#7, .decFin] := by
  decide +kernel
/-- Also for `WholeBytesGetAFullPaddingByte`: no bit, and 8 bits. -/
theorem witness_EncFinEmitsTheFramedMessage :
    faultedState.fault = true ∧
    (treed.fault = false ∧ ¬(treed.phase = .codes ∧ (treed.act = .idle ∨ treed.act = .encoding))) ∧
    (encodingState.fault = false ∧ encodingState.phase = .codes ∧ encodingState.act = .encoding) ∧
    (coded.fault = false ∧ coded.phase = .codes ∧ coded.act = .idle ∧ coded.b = []) ∧
    { encodingState with b := List.replicate 8 true }.b.length % 8 = 0 := by decide +kernel
theorem witness_EncodingAddsTheCodewordLengths :
    let s := { coded with bitbufMax := 3#32 }
    s.fault = false ∧ s.phase = .codes ∧ s.act = .idle ∧
    payloadOf s.code [3#7, 1#7] = some [false, true, false] ∧ s.b.length + [false, true, false].length ≤ s.bitbufMax.toNat := by
  decide +kernel

theorem witness_SentinelIsRemoved :
    (State.reset.act = .idle ∧ decodingState.act ≠ .idle) ∧ (0 < 8 ∧ 7 < 8) ∧
    (0 < 8 ∧ 2 ^ (7 - 0) ≤ (0x80#8).toNat ∧ (0x80#8).toNat < 2 ^ (8 - 0)) ∧
    (7 < 8 ∧ 2 ^ (7 - 7) ≤ (0x01#8).toNat ∧ (0x01#8).toNat < 2 ^ (8 - 7)) := by decide
/-- Also for `DecByteSetsTheFlags`, `DecFinAnswersTheFlags` and `DecodedSymbolsAreBounded`. -/
theorem witness_DecByteWalksThePayload :
    faultedState.fault = true ∧
    (loaded.fault = false ∧
      ¬((loaded.phase = .tree ∨ loaded.phase = .codes) ∧ (loaded.act = .idle ∨ loaded.act = .decoding))) ∧
    (Inv treed ∧ treed.fault = false ∧ treed.phase = .tree ∧ treed.act = .idle) ∧
    (Inv decodingState ∧ decodingState.fault = false ∧ decodingState.phase = .tree ∧ decodingState.act = .decoding) ∧
    (Inv noTree ∧ noTree.fault = false ∧ noTree.phase = .tree ∧ noTree.act = .idle ∧ noTree.root = none) :=
  ⟨rfl, by decide +kernel, ⟨inv_treed, rfl, rfl, rfl⟩, ⟨inv_decoding, rfl, rfl, rfl⟩, inv_noTree, rfl, rfl, rfl, rfl⟩
/-- One payload bit that ends at a leaf, and one that ends at an internal node. -/
theorem witness_DecByteWalksThePayload_bit :
    treed.node[4]? = some (.inner 4#32 2 3) ∧ treed.node[if false then 3 else 2]? = some (.leaf 3#7 2#32) ∧
    treed.node[if true then 3 else 2]? = some (.inner 2#32 0 1) ∧ treed.cur = some 4 := by decide +kernel
theorem witness_DecByteSetsTheFlags :
    (∃ t, exec (.decByte 0x56#8) treed = .next t) ∧ (∃ t, exec (.decByte 0xFF#8) decodingState = .next t) ∧
    (∃ t, exec (.decByte 0x03#8) noTree = .next t) :=
  ⟨next_of _ (by decide +kernel), next_of _ (by decide +kernel), next_of _ (by decide +kernel)⟩
theorem witness_StreamDecodesAsAWhole :
    Inv treed ∧ treed.fault = false ∧ treed.phase = .tree ∧ treed.act = .idle ∧ [0x56#8] ≠ [] :=
  ⟨inv_treed, rfl, rfl, rfl, by decide⟩
theorem witness_DecodedSymbolsAreBounded :
    ∃ t ds, execOk ([0x03#8, 0xFF#8].map .decByte) treed = some (t, ds) ∧ treed.act = .idle :=
  ⟨_, _, rfl, rfl⟩
theorem witness_EveryPayloadIsCodewordsAndAPartialOne : Inv coded ∧ coded.phase = .codes ∧ coded.root ≠ none :=
  ⟨inv_coded, rfl, by decide +kernel⟩

/-- The engine that decodes has the same tree and no codes. -/
theorem witness_RoundTrip :
    (Inv coded ∧ coded.phase = .codes ∧ coded.fault = false ∧ coded.act = .idle ∧
      payloadOf coded.code [3#7, 1#7] = some [false, true, false] ∧
      [false, true, false].length ≤ coded.bitbufMax.toNat) ∧
    (Inv treed ∧ treed.phase = .tree ∧ treed.fault = false ∧ treed.act = .idle ∧ treed.node = coded.node ∧
      treed.root = coded.root) :=
  ⟨⟨inv_coded, rfl, rfl, rfl, by decide +kernel⟩, inv_treed, rfl, rfl, rfl, rfl, rfl⟩
theorem witness_PipelineFromResetCompletes :
    State.reset.clearState = State.reset ∧ 1 ≤ State.reset.bitbufMax.toNat ∧ [97#7, 97#7, 98#7].length ≤ 2 ^ 32 - 1 :=
  ⟨rfl, by decide⟩
theorem witness_RootWeightIsTotal :
    Inv treed ∧ treed.phase = .tree ∧ treed.root = some 4 ∧ treed.node[4]? = some (.inner 4#32 2 3) :=
  ⟨inv_treed, rfl, rfl, rfl⟩

theorem witness_RdCsrReadsTheRegisters : Inv treed ∧ (12#8).toNat > 11 ∧ (255#8).toNat > 11 := ⟨inv_treed, by decide⟩
theorem witness_RdNodeReadsThePackedEntry :
    treed.node.length ≤ (5#8).toNat ∧ treed.node[(0#8).toNat]? = some (.leaf 1#7 1#32) ∧
    treed.node[(4#8).toNat]? = some (.inner 4#32 2 3) ∧ 2 < 255 ∧ 3 < 255 ∧ Inv treed :=
  ⟨by decide +kernel, rfl, rfl, by decide, by decide, inv_treed⟩
theorem witness_RdCodeReadsAChunk :
    getSym coded.code 9#7 = none ∧ getSym coded.code 1#7 = some ⟨2#7, 2#127⟩ := by decide +kernel
theorem witness_ReadsDisturbNothing :
    Instr.nop.readOnly = true ∧ (Instr.rdCsr 1#8).readOnly = true ∧ (Instr.rdNode 0#8).readOnly = true ∧
    (Instr.rdCode 1#7 0#2).readOnly = true ∧ (Instr.rdCnt 97#7).readOnly = true := by decide

theorem witness_RefusalsChangeNothing :
    RspCode.errOrder ≠ .ok ∧ RspCode.errOrder ≠ .fltNocode ∧ RspCode.errOrder ≠ .fltBufovf ∧
    ∃ t, exec (.leafPush 6#7 1#32) loaded = .next t ∧ t.lastCode = some RspCode.errOrder.byte :=
  ⟨by decide, by decide, by decide, next_code _ _ _ (by decide +kernel)⟩
theorem witness_OnlyEncSymFaultsAndPrecisely :
    ∃ t, exec (.encSym 9#7) coded = .next t ∧ t.fault = true ∧ coded.fault = false := ⟨_, rfl, by decide +kernel⟩
theorem witness_FaultedEngineRefusesWorkingCommands : Instr.encFin.working = true ∧ faultedState.fault = true := by
  decide +kernel
theorem witness_SequencingTable :
    (Inv loaded ∧ Instr.gen.working = true ∧ loaded.fault = false ∧ ¬seqCond loaded .gen) ∧
    (Inv treed ∧ ∃ t, exec .gen treed = .next t ∧ t.lastCode = some RspCode.ok.byte) ∧
    ∃ t, exec (.leafPush 6#7 1#32) loaded = .next t ∧ t.lastCode = some RspCode.errOrder.byte ∧
      t.lastCode ≠ some RspCode.ok.byte := by
  refine ⟨⟨inv_loaded, rfl, rfl, nofun⟩, ⟨inv_treed, next_code _ _ _ (by decide +kernel)⟩, ?_⟩
  obtain ⟨t, h1, h2⟩ := next_code (.leafPush 6#7 1#32) loaded (some RspCode.errOrder.byte) (by decide +kernel)
  exact ⟨t, h1, h2, h2 ▸ by decide⟩
theorem witness_ResponseCodesOfEachCommand :
    Inv faultedState ∧ Instr.gen.mnemonic ∈ [.FA_SYM, .FA_FIN, .LEAF_PUSH, .BUILD, .GEN] ∧
    ∃ t, exec .gen faultedState = .next t ∧ t.lastCode = some RspCode.errFaulted.byte :=
  ⟨inv_faulted, by decide, next_code _ _ _ (by decide +kernel)⟩
/-- Also for `OutputsOnlyGrow`, `GenFrame` and `BuiltOnceReadOnlyAfterward`. -/
theorem witness_PhaseOnlyIncreases :
    Instr.gen ≠ .clear ∧ Inv treed ∧ treed.phase ≠ .load ∧ treed.phase = .tree ∧ Instr.gen.mnemonic ≠ .ENC_FIN ∧
    Instr.gen.mnemonic ≠ .DEC_BYTE ∧ ∃ t, exec .gen treed = .next t :=
  ⟨by decide, inv_treed, by decide +kernel, rfl, by decide, by decide, next_of _ (by decide +kernel)⟩
theorem witness_BuiltOnceReadOnlyAfterward :
    Inv coded ∧ coded.phase = .codes ∧ ∃ t, exec (.encSym 1#7) coded = .next t :=
  ⟨inv_coded, rfl, next_of _ (by decide +kernel)⟩
theorem witness_FrequencyFrame :
    (∃ t, exec (.faSym 97#7) counted = .next t) ∧ 98#7 ≠ 97#7 ∧ ∃ t, exec .faFin counted = .next t :=
  ⟨next_of _ (by decide +kernel), by decide, next_of _ (by decide +kernel)⟩
theorem witness_TreeBuilderFrame :
    Inv loaded ∧ (∃ t, exec (.leafPush 6#7 2#32) loaded = .next t) ∧ ∃ t, exec .build loaded = .next t :=
  ⟨inv_loaded, next_of _ (by decide +kernel), next_of _ (by decide +kernel)⟩
theorem witness_EncoderFrame :
    (∃ t, exec (.encSym 1#7) coded = .next t) ∧ (∃ t, exec (.encSym 9#7) coded = .next t) ∧
    ∃ t, exec .encFin encodingState = .next t :=
  ⟨next_of _ (by decide +kernel), next_of _ (by decide +kernel), next_of _ (by decide +kernel)⟩
theorem witness_DecoderFrame :
    (∃ t, exec (.decByte 0xFF#8) decodingState = .next t) ∧ decodingState.act ≠ .idle ∧
    ∃ t, exec .decFin decodingState = .next t :=
  ⟨next_of _ (by decide +kernel), by decide +kernel, next_of _ (by decide +kernel)⟩

end Sys2Proof.Tests
end

/-! ## Proofs: the scope of a step and of the invariants (spec/00_scope.md) -/

namespace Sys2Proof.Machine

open Sys2Proof

/-! ### A step with a command word at the port -/

theorem step_of_cmdIn_cons (s : State) (w : Word64) (ws : List Word64) (h : s.cmdIn = w :: ws) :
    step s = runWord w { s with cmdIn := ws } := by
  rw [step, State.takeCommand_cons s w ws h]

theorem runWord_of_decode_ok (w : Word64) (i : Instr) (s : State) (h : decode w = .ok i) :
    runWord w s = exec i s := by
  rw [runWord, h]

/-- Settles O6: the step runs the word it takes, and a word that decodes runs as its command. -/
theorem stepRunsDecodedCommand : Obligations.StepRunsDecodedCommand := by
  intro s w ws i hport hdecode
  rw [step_of_cmdIn_cons s w ws hport, runWord_of_decode_ok w i _ hdecode]

/-! ### The reset state -/

@[simp] theorem State.leaves_resetWith (m : BitVec 32) : (State.resetWith m).leaves = [] := rfl

/-- At reset every counter is zero, and so is their sum (R59, R61 item 3). -/
theorem invCounts_resetWith (m : BitVec 32) : InvCounts (State.resetWith m) := by
  have hsum : ((State.resetWith m).cnt.toList.map BitVec.toNat).sum = 0 := by simp
  exact ⟨hsum.symm, fun _ => ⟨.inl rfl, rfl⟩, nofun⟩

/-- Reset is in phase `LOAD` with nothing built and nothing in flight, so the items of R61 about a tree, a code table, an
activity or a fault ask nothing of it; only the parameter's range (R7) is left, the hypothesis. -/
theorem inv_resetWith (m : BitVec 32) (hm : 1 ≤ m.toNat) : Inv (State.resetWith m) where
  buffer := ⟨hm, Nat.zero_le _⟩
  leafList := ⟨Nat.le_refl 0, by simp, List.nodup_nil, .nil, rfl⟩
  early := fun _ => ⟨rfl, rfl, rfl, rfl, rfl⟩
  counts := invCounts_resetWith m
  tree := fun h => h.elim nofun nofun
  code := ⟨nofun, nofun⟩
  activity := ⟨nofun, fun _ => rfl, nofun, fun _ => rfl⟩
  cursor := ⟨Iff.rfl, nofun⟩
  faults := ⟨fun _ => ⟨rfl, rfl⟩, nofun⟩

/-- Settles O10: every value of `BITBUF_MAX` in its range, the default 65536 among them. -/
theorem resetMeetsInvariants : Obligations.ResetMeetsInvariants :=
  ⟨inv_resetWith, inv_resetWith Config.bitbufMaxDefault (by decide)⟩

end Sys2Proof.Machine

/-! ## Proofs: the tree `BUILD` makes (spec/10_state.md R48, spec/41_tree_builder.md) -/

namespace Sys2Proof.Machine

open Sys2Proof

/-! ### Node entries -/

/-- R48 for one internal node, its two children named. -/
theorem innerOk_iff (node : List NodeEntry) (i : Nat) :
    innerOk node i = true ↔ ∃ (w : Wgt) (l r : Nat) (a b : NodeEntry),
      node[i]? = some (.inner w l r) ∧ l < i ∧ r < i ∧ node[l]? = some a ∧ node[r]? = some b ∧
      w.toNat = a.wgt.toNat + b.wgt.toNat := by
  constructor
  · intro h
    unfold innerOk at h
    split at h
    · rename_i w l r hi
      simp only [Bool.and_eq_true, decide_eq_true_eq] at h
      obtain ⟨⟨hl, hr⟩, h⟩ := h
      split at h
      · exact ⟨w, l, r, _, _, hi, hl, hr, ‹_›, ‹_›, beq_iff_eq.mp h⟩
      · cases h
    · cases h
  · rintro ⟨w, l, r, a, b, hi, hl, hr, ha, hb, hw⟩
    simp [innerOk, hi, hl, hr, ha, hb, hw]

theorem getElem?_append_of_some {node : List NodeEntry} {i : NodeIdx} {e : NodeEntry} (more : List NodeEntry)
    (h : node[i]? = some e) : (node ++ more)[i]? = some e := by
  rw [List.getElem?_append_left (List.getElem?_eq_some_iff.mp h).1, h]

/-- Entries written later do not touch a finished internal node. -/
theorem innerOk_append {node : List NodeEntry} {i : NodeIdx} (more : List NodeEntry) (h : innerOk node i = true) :
    innerOk (node ++ more) i = true := by
  obtain ⟨w, l, r, a, b, hi, hl, hr, ha, hb, hw⟩ := (innerOk_iff node i).mp h
  exact (innerOk_iff _ i).mpr ⟨w, l, r, a, b, getElem?_append_of_some more hi, hl, hr,
    getElem?_append_of_some more ha, getElem?_append_of_some more hb, hw⟩

/-- The weight at an index; 0 where no entry stands. -/
def weightAt (node : List NodeEntry) (i : NodeIdx) : Nat := (node[i]?.map fun e => e.wgt.toNat).getD 0

theorem weightAt_of_some {node : List NodeEntry} {i : NodeIdx} {e : NodeEntry} (h : node[i]? = some e) :
    weightAt node i = e.wgt.toNat := by
  simp [weightAt, h]

/-- The weight of an internal node is the sum of its children's (R48). -/
theorem weightAt_eq_children {node : List NodeEntry} {i : NodeIdx} (h : innerOk node i = true) (e : NodeEntry)
    (he : node[i]? = some e) : weightAt node i = (e.children.map (weightAt node)).sum := by
  obtain ⟨w, l, r, a, b, hi, -, -, ha, hb, hw⟩ := (innerOk_iff node i).mp h
  cases he.symm.trans hi
  simp [NodeEntry.children, weightAt_of_some hi, weightAt_of_some ha, weightAt_of_some hb, NodeEntry.wgt, hw]

theorem sum_weightAt_range (node : List NodeEntry) (n : Nat) (h : n ≤ node.length) :
    ((List.range n).map (weightAt node)).sum = ((node.take n).map fun e => e.wgt.toNat).sum := by
  congr 1
  apply List.ext_getElem
  · simp [h]
  · intro i hi _
    have hin : i < n := by simpa using hi
    simp [weightAt, List.getElem?_eq_getElem (Nat.lt_of_lt_of_le hin h)]

/-! ### Sums over a forest

A quantity that every internal node has as the sum of its children's is summed up by the leaves. The weights are such
a quantity, and so are the symbols below a node. -/

/-- A quantity `c` that every entry from `n` up has as the sum of its children's. -/
def SumsChildren {M : Type} [AddCommMonoid M] (node : List NodeEntry) (n : Nat) (c : NodeIdx → M) : Prop :=
  ∀ i e, n ≤ i → node[i]? = some e → c i = (e.children.map c).sum

theorem sum_inner_eq_sum_children {M : Type} [AddCommMonoid M] (node : List NodeEntry) (n : Nat) (c : NodeIdx → M)
    (hc : SumsChildren node n c) :
    ((List.range' n (node.length - n)).map c).sum = (((node.drop n).flatMap NodeEntry.children).map c).sum := by
  induction h : node.drop n generalizing n with
  | nil =>
    have : node.length - n = 0 := by simpa using congrArg List.length h
    simp [this]
  | cons e es ih =>
    have hlen : node.length - n = es.length + 1 := by simpa using congrArg List.length h
    have hn : node[n]? = some e := by simpa using congrArg List.head? h
    have hes : node.drop (n + 1) = es := by rw [← List.tail_drop, h, List.tail_cons]
    have ih := ih (n + 1) (fun i e hi => hc i e (by omega)) hes
    rw [show node.length - (n + 1) = es.length by omega] at ih
    rw [hlen, List.range'_succ, List.map_cons, List.sum_cons, ih, hc n e le_rfl hn]
    simp

theorem range_eq_append_range' {n m : Nat} (h : n ≤ m) : List.range m = List.range n ++ List.range' n (m - n) := by
  have := List.range'_append_1 (s := 0) (m := n) (n := m - n)
  rw [List.range_eq_range', List.range_eq_range', ← Nat.add_sub_cancel' h, ← this]
  simp

/-- Over all indices such a quantity sums to the leaves' and the children's together. -/
theorem sum_all_eq {M : Type} [AddCommMonoid M] (node : List NodeEntry) (n : Nat) (hn : n ≤ node.length)
    (c : NodeIdx → M) (hc : SumsChildren node n c) :
    ((List.range node.length).map c).sum =
      ((List.range n).map c).sum + (((node.drop n).flatMap NodeEntry.children).map c).sum := by
  rw [← sum_inner_eq_sum_children node n c hc, ← List.sum_append, ← List.map_append,
    ← range_eq_append_range' hn]

theorem TreeOk.length_eq {node : List NodeEntry} {n : Nat} (h : TreeOk node n) : node.length = 2 * n - 1 := h.1

theorem TreeOk.innerOk_of_le {node : List NodeEntry} {n i : Nat} (h : TreeOk node n) (hn : n ≤ i)
    (hi : i < node.length) : innerOk node i = true :=
  h.2.1 i hi hn

theorem TreeOk.innerOk_root {node : List NodeEntry} {n : Nat} (h : TreeOk node n) (hn : 2 ≤ n) :
    innerOk node (2 * n - 2) = true :=
  h.innerOk_of_le (by omega) (by have := h.length_eq; omega)

/-- In a finished tree the root has of such a quantity what the leaves have together (R48). -/
theorem TreeOk.root_eq_sum_leaves {M : Type} [AddCancelCommMonoid M] {node : List NodeEntry} {n : Nat}
    (h : TreeOk node n) (hn : 1 ≤ n) (c : NodeIdx → M) (hc : SumsChildren node n c) :
    c (2 * n - 2) = ((List.range n).map c).sum := by
  obtain ⟨hlen, -, hperm⟩ := h
  have hall := sum_all_eq node n (by omega) c hc
  rw [(hperm.map c).sum_eq, hlen, show 2 * n - 1 = (2 * n - 2) + 1 by omega, List.range_succ, List.map_append,
    List.sum_append, add_comm] at hall
  simpa using add_right_cancel hall

theorem sumsChildren_weightAt {node : List NodeEntry} {n : Nat}
    (h : ∀ i, i < node.length → n ≤ i → innerOk node i = true) : SumsChildren node n (weightAt node) :=
  fun i e hi he => weightAt_eq_children (h i (List.getElem?_eq_some_iff.mp he).1 hi) e he

/-- The root of a finished tree weighs what its leaves weigh together (R42, R251). -/
theorem TreeOk.weightAt_root {node : List NodeEntry} {n : Nat} (h : TreeOk node n) (hn : 1 ≤ n) :
    weightAt node (2 * n - 2) = ((node.take n).map fun e => e.wgt.toNat).sum := by
  rw [h.root_eq_sum_leaves hn _ (sumsChildren_weightAt fun _ hi hn => h.innerOk_of_le hn hi),
    sum_weightAt_range node n (by have := h.length_eq; omega)]

/-! ### The two-queue merge -/

/-- The index ranges of the two queues lie in the node array in order (R126). -/
structure Queues.Ordered (q : Queues) : Prop where
  sh_le : q.sh ≤ q.nleaf
  nleaf_le : q.nleaf ≤ q.th
  th_le : q.th ≤ q.node.length

/-- The indices dequeued so far. -/
def Queues.taken (q : Queues) : List Nat := List.range q.sh ++ List.range' q.nleaf (q.th - q.nleaf)

theorem Queues.Ordered.taken_nodup {q : Queues} (h : q.Ordered) : q.taken.Nodup := by
  refine List.Nodup.append List.nodup_range List.nodup_range' ?_
  intro i hi hi'
  have := h.sh_le
  rw [List.mem_range] at hi
  rw [List.mem_range'_1] at hi'
  omega

theorem Queues.Ordered.taken_lt {q : Queues} (h : q.Ordered) : ∀ i : Nat, i ∈ q.taken → i < q.node.length := by
  intro i hi
  obtain ⟨h1, h2, h3⟩ := h
  rw [Queues.taken, List.mem_append, List.mem_range, List.mem_range'_1, Nat.add_sub_cancel' h2] at hi
  omega

/-- While a node is enqueued, `take` dequeues the front of a queue that is not empty (R128). -/
theorem Queues.take_eq (q : Queues) (h : q.Ordered) (hlive : q.sh + q.th < q.nleaf + q.node.length) :
    (q.sh < q.nleaf ∧ q.take = some q.takeSource) ∨ (q.th < q.node.length ∧ q.take = some q.takeTarget) := by
  obtain ⟨h1, h2, h3⟩ := h
  unfold Queues.take Queues.tt
  by_cases hs : q.sh = q.nleaf
  · exact .inr ⟨by omega, by rw [if_pos hs]⟩
  by_cases ht : q.th = q.node.length
  · exact .inl ⟨by omega, by rw [if_neg hs, if_pos ht]⟩
  have hsh : q.sh < q.node.length := by omega
  have hth : q.th < q.node.length := by omega
  rw [if_neg hs, if_neg ht, List.getElem?_eq_getElem hsh, List.getElem?_eq_getElem hth]
  by_cases hw : q.node[q.sh].wgt ≤ q.node[q.th].wgt
  · exact .inl ⟨by omega, by simp only [if_pos hw]⟩
  · exact .inr ⟨hth, by simp only [if_neg hw]⟩

/-- Dequeuing an enqueued node `i` leaves `q'`. -/
structure Queues.Takes (q : Queues) (i : NodeIdx) (q' : Queues) : Prop where
  take_eq : q.take = some (i, q')
  node_eq : q'.node = q.node
  nleaf_eq : q'.nleaf = q.nleaf
  ordered : q'.Ordered
  count : q'.sh + q'.th = q.sh + q.th + 1
  taken : q'.taken.Perm (i :: q.taken)

theorem Queues.exists_takes (q : Queues) (h : q.Ordered) (hlive : q.sh + q.th < q.nleaf + q.node.length) :
    ∃ i q', q.Takes i q' := by
  obtain ⟨h1, h2, h3⟩ := h
  rcases q.take_eq ⟨h1, h2, h3⟩ hlive with ⟨hs, ht⟩ | ⟨hs, ht⟩
  · refine ⟨q.sh, { q with sh := q.sh + 1 }, ht, rfl, rfl, ⟨hs, h2, h3⟩, by simp only; omega, ?_⟩
    simp [Queues.taken, List.range_succ]
  · refine ⟨q.th, { q with th := q.th + 1 }, ht, rfl, rfl, ⟨h1, by simp only; omega, hs⟩, ?_, ?_⟩
    · simp only; omega
    have hn : q.th + 1 - q.nleaf = (q.th - q.nleaf) + 1 := by omega
    rw [Queues.taken, hn, List.range'_concat, ← List.append_assoc, Nat.one_mul, Nat.add_sub_cancel' h2]
    exact List.perm_append_singleton _ _

/-- What holds of the queues at every iteration of the loop: the internal nodes so far meet R48, and their children are
exactly the nodes dequeued. -/
structure Queues.Ok (q : Queues) : Prop extends q.Ordered where
  th_lt : q.nleaf < q.node.length → q.th < q.node.length
  inner : ∀ i, i < q.node.length → q.nleaf ≤ i → innerOk q.node i = true
  children : ((q.node.drop q.nleaf).flatMap NodeEntry.children).Perm q.taken
  count : q.sh + q.th + q.nleaf = 2 * q.node.length
  total : ((q.node.take q.nleaf).map fun e => e.wgt.toNat).sum < 2 ^ 32

/-- Two nodes still enqueued weigh at most what the leaves weigh together: every other node's weight is counted in the
node above it. -/
theorem weight_add_weight_le {node : List NodeEntry} {n l r : Nat} {T : List Nat} (hn : n ≤ node.length)
    (hinner : ∀ i, i < node.length → n ≤ i → innerOk node i = true)
    (hT : ((node.drop n).flatMap NodeEntry.children).Perm T) (hnodup : (r :: l :: T).Nodup)
    (hlt : ∀ i ∈ r :: l :: T, i < node.length) :
    weightAt node l + weightAt node r ≤ ((node.take n).map fun e => e.wgt.toNat).sum := by
  have hall := sum_all_eq node n hn _ (sumsChildren_weightAt hinner)
  rw [(hT.map _).sum_eq, sum_weightAt_range node n hn] at hall
  obtain ⟨T', hperm, hsub⟩ := hnodup.subperm fun i hi => List.mem_range.mpr (hlt i hi)
  have hle := (hsub.map (weightAt node)).sum_le_sum fun _ _ => Nat.zero_le _
  rw [(hperm.map _).sum_eq, List.map_cons, List.map_cons, List.sum_cons, List.sum_cons] at hle
  omega

theorem Queues.mergeOne_eq {q q1 q2 : Queues} {l r : NodeIdx} {a b : NodeEntry} (h1 : q.Takes l q1)
    (h2 : q1.Takes r q2) (ha : q.node[l]? = some a) (hb : q.node[r]? = some b) :
    q.mergeOne = some { q2 with node := q.node ++ [.inner (a.wgt + b.wgt) l r] } := by
  simp [Queues.mergeOne, h1.take_eq, h2.take_eq, h2.node_eq, h1.node_eq, ha, hb]

/-- A node written behind its two children meets R48, if its weight does not wrap. -/
theorem innerOk_concat {node : List NodeEntry} {l r : Nat} {a b : NodeEntry} (ha : node[l]? = some a)
    (hb : node[r]? = some b) (hw : a.wgt.toNat + b.wgt.toNat < 2 ^ 32) :
    innerOk (node ++ [.inner (a.wgt + b.wgt) l r]) node.length = true :=
  (innerOk_iff _ _).mpr ⟨_, l, r, a, b, List.getElem?_concat_length, (List.getElem?_eq_some_iff.mp ha).1,
    (List.getElem?_eq_some_iff.mp hb).1, getElem?_append_of_some _ ha, getElem?_append_of_some _ hb,
    by rw [BitVec.toNat_add, Nat.mod_eq_of_lt hw]⟩

/-- Writing the node above the two just dequeued keeps `Queues.Ok`. -/
theorem Queues.Ok.push {q q2 : Queues} {l r : Nat} {a b : NodeEntry} (h : q.Ok) (h2 : q2.Ordered)
    (hnode : q2.node = q.node) (hnleaf : q2.nleaf = q.nleaf) (hcount : q2.sh + q2.th = q.sh + q.th + 2)
    (htaken : q2.taken.Perm (r :: l :: q.taken)) (ha : q.node[l]? = some a) (hb : q.node[r]? = some b) :
    Queues.Ok { q2 with node := q.node ++ [.inner (a.wgt + b.wgt) l r] } := by
  have hnl : q.nleaf ≤ q.node.length := h.nleaf_le.trans h.th_le
  have hth : q2.th ≤ q.node.length := hnode ▸ h2.th_le
  have hlt : ∀ i ∈ r :: l :: q.taken, i < q.node.length := fun i hi =>
    hnode ▸ h2.taken_lt i (htaken.mem_iff.mpr hi)
  have hw := weight_add_weight_le hnl h.inner h.children (htaken.nodup_iff.mp h2.taken_nodup) hlt
  rw [weightAt_of_some ha, weightAt_of_some hb] at hw
  have hchildren : List.Perm ((q.node.drop q.nleaf).flatMap NodeEntry.children ++ [l, r]) q2.taken := calc
    List.Perm _ (q.taken ++ [l, r]) := h.children.append_right _
    List.Perm _ ([l, r] ++ q.taken) := List.perm_append_comm
    List.Perm _ (r :: l :: q.taken) := List.Perm.swap r l q.taken
    List.Perm _ q2.taken := htaken.symm
  have hlen : (q.node ++ [NodeEntry.inner (a.wgt + b.wgt) l r]).length = q.node.length + 1 := by simp
  constructor
  case toOrdered => exact ⟨h2.sh_le, h2.nleaf_le, by simp only [hlen]; omega⟩
  case th_lt => exact fun _ => by simp only [hlen]; omega
  case inner =>
    intro i hi hni
    simp only [hlen, hnleaf] at hi hni
    rcases Nat.lt_succ_iff_lt_or_eq.mp hi with hi | rfl
    · exact innerOk_append _ (h.inner i hi hni)
    · exact innerOk_concat ha hb (hw.trans_lt h.total)
  case children =>
    show (((q.node ++ [_]).drop q2.nleaf).flatMap NodeEntry.children).Perm q2.taken
    simpa only [hnleaf, List.drop_append_of_le_length hnl, List.flatMap_append, List.flatMap_singleton,
      NodeEntry.children] using hchildren
  case count =>
    have := h.count
    simp only [hlen, hnleaf]
    omega
  case total => simpa only [hnleaf, List.take_append_of_le_length hnl] using h.total

/-- One iteration (R127 to R129) while two nodes are enqueued writes one internal node and keeps `Queues.Ok`. -/
theorem Queues.mergeOne_ok (q : Queues) (h : q.Ok) (hlive : q.node.length + 1 < 2 * q.nleaf) :
    ∃ e q', q.mergeOne = some q' ∧ q'.Ok ∧ q'.nleaf = q.nleaf ∧ q'.node = q.node ++ [e] := by
  have hcount := h.count
  obtain ⟨l, q1, h1⟩ := q.exists_takes h.toOrdered (by omega)
  obtain ⟨r, q2, h2⟩ := q1.exists_takes h1.ordered (by rw [h1.count, h1.nleaf_eq, h1.node_eq]; omega)
  have hnode : q2.node = q.node := h2.node_eq.trans h1.node_eq
  have hnleaf : q2.nleaf = q.nleaf := h2.nleaf_eq.trans h1.nleaf_eq
  have htaken : q2.taken.Perm (r :: l :: q.taken) := h2.taken.trans (h1.taken.cons r)
  have hlt : ∀ i ∈ r :: l :: q.taken, i < q.node.length := fun i hi =>
    hnode ▸ h2.ordered.taken_lt i (htaken.mem_iff.mpr hi)
  have ha := List.getElem?_eq_getElem (hlt l (by simp))
  have hb := List.getElem?_eq_getElem (hlt r (by simp))
  have hok := h.push h2.ordered hnode hnleaf (by rw [h2.count, h1.count]) htaken ha hb
  exact ⟨_, _, Queues.mergeOne_eq h1 h2 ha hb, hok, hnleaf, rfl⟩

/-! ### The merge as a whole -/

/-- The queues after `k` iterations, as long as two nodes were enqueued before each. -/
theorem Queues.iterate_ok (k : Nat) (q : Queues) (h : q.Ok) (hlive : q.node.length + k < 2 * q.nleaf) :
    ∃ inner q', Queues.iterate k q = some q' ∧ q'.Ok ∧ q'.nleaf = q.nleaf ∧ q'.node = q.node ++ inner ∧
      inner.length = k := by
  induction k generalizing q with
  | zero => exact ⟨[], q, rfl, h, rfl, by simp, rfl⟩
  | succ k ih =>
    obtain ⟨e, q1, hq1, hok1, hnleaf1, hnode1⟩ := q.mergeOne_ok h (by omega)
    obtain ⟨inner, q', hq', hok', hnleaf', hnode', hlen⟩ := ih q1 hok1 (by rw [hnode1, hnleaf1]; simp; omega)
    exact ⟨e :: inner, q', by rw [Queues.iterate_succ, hq1]; exact hq', hok', hnleaf'.trans hnleaf1,
      by rw [hnode', hnode1]; simp, by simp [hlen]⟩

theorem Queues.done_iff (q : Queues) : q.done = true ↔ q.sh = q.nleaf ∧ q.node.length = q.th + 1 := by
  simp only [Queues.done, Queues.tt, Bool.and_eq_true, beq_iff_eq]
  exact and_congr_right fun _ => by omega

/-- The loop makes the iterations before the first at which its end test is true. -/
theorem Queues.merge_eq_iterate (k fuel : Nat) (q q' : Queues) (hfuel : k ≤ fuel) (hk : Queues.iterate k q = some q')
    (hdone : q'.done = true) (hbusy : ∀ j < k, ∃ p, Queues.iterate j q = some p ∧ p.done = false) :
    Queues.merge fuel q = some q' := by
  induction k generalizing q fuel with
  | zero =>
    cases hk
    cases fuel <;> simp [Queues.merge, hdone]
  | succ k ih =>
    obtain ⟨fuel, rfl⟩ : ∃ f, fuel = f + 1 := ⟨fuel - 1, by omega⟩
    obtain ⟨p, hp, hpd⟩ := hbusy 0 (by omega)
    cases hp
    rw [Queues.iterate_succ] at hk
    rw [Queues.merge, hpd, if_neg (by decide)]
    obtain ⟨q1, hq1, hk⟩ := Option.bind_eq_some_iff.mp hk
    rw [hq1]
    refine ih fuel q1 (by omega) hk fun j hj => ?_
    have := hbusy (j + 1) (by omega)
    rwa [Queues.iterate_succ, hq1] at this

/-- The queues of a leaf list before the loop (R126). -/
def startQueues (leaves : List NodeEntry) : Queues :=
  { node := leaves, nleaf := leaves.length, sh := 0, th := leaves.length }

section
variable (leaves : List NodeEntry) (hsum : (leaves.map fun e => e.wgt.toNat).sum < 2 ^ 32)
include hsum

theorem startQueues_ok : (startQueues leaves).Ok where
  sh_le := Nat.zero_le _
  nleaf_le := le_rfl
  th_le := le_rfl
  th_lt h := absurd h (lt_irrefl _)
  inner i hi hni := absurd hni (Nat.not_le.mpr hi)
  children := by simp [startQueues, Queues.taken]
  count := by simp [startQueues]; omega
  total := by simpa [startQueues] using hsum

/-- Before each of the n − 1 iterations two nodes or more are enqueued, and the end test is false (R127). -/
theorem startQueues_busy (k : Nat) (hk : k < leaves.length - 1) :
    ∃ q, Queues.iterate k (startQueues leaves) = some q ∧ ¬(q.sh = q.nleaf ∧ q.node.length = q.th + 1) := by
  obtain ⟨inner, q, hq, hok, hnleaf, hnode, hlen⟩ :=
    Queues.iterate_ok k _ (startQueues_ok leaves hsum) (by simp [startQueues]; omega)
  refine ⟨q, hq, fun ⟨hsh, hth⟩ => ?_⟩
  have hcount := hok.count
  have hnl : q.nleaf = leaves.length := hnleaf
  have hln : q.node.length = leaves.length + k := by rw [hnode, List.length_append, hlen]; rfl
  omega

/-- `inner` is what n − 1 iterations of the loop append to the n leaves, and it makes them a finished tree (R48,
R130). -/
structure Merged (leaves inner : List NodeEntry) : Prop where
  iterate_eq : Queues.iterate (leaves.length - 1) (startQueues leaves) =
    some { node := leaves ++ inner, nleaf := leaves.length, sh := leaves.length, th := 2 * leaves.length - 2 }
  length_eq : inner.length = leaves.length - 1
  tree : TreeOk (leaves ++ inner) leaves.length

theorem exists_merged (hn : 2 ≤ leaves.length) : ∃ inner, Merged leaves inner := by
  obtain ⟨inner, q, hq, hok, hnl, hnode, hlen⟩ :=
    Queues.iterate_ok (leaves.length - 1) _ (startQueues_ok leaves hsum) (by simp [startQueues]; omega)
  have hnl : q.nleaf = leaves.length := hnl
  have hnode : q.node = leaves ++ inner := hnode
  have hln : q.node.length = 2 * leaves.length - 1 := by rw [hnode, List.length_append, hlen]; omega
  have hcount := hok.count
  have hth : q.th = 2 * leaves.length - 2 := by have := hok.th_lt; have := hok.sh_le; omega
  have hsh : q.sh = leaves.length := by omega
  have hchildren := hok.children
  rw [Queues.taken, hsh, hnl, hth, ← range_eq_append_range' (by omega), hnode] at hchildren
  have hinner := hok.inner
  rw [hnl, hnode] at hinner
  refine ⟨inner, ?_, hlen, by rw [← hnode, hln], hinner, hchildren⟩
  rw [hq, ← hnode]
  cases q
  simpa only [Option.some.injEq, Queues.mk.injEq, true_and] using ⟨hnl, hsh, hth⟩

/-- `BUILD`'s loop ends with exactly that node array (R127, R130). -/
theorem Merged.buildNodes_eq {inner : List NodeEntry} (h : Merged leaves inner) (hn : 2 ≤ leaves.length) :
    buildNodes leaves leaves.length = some (leaves ++ inner) := by
  have hmerge := Queues.merge_eq_iterate _ leaves.length _ _ (Nat.sub_le _ 1) h.iterate_eq
    ((Queues.done_iff _).mpr ⟨rfl, by simp only [List.length_append, h.length_eq]; omega⟩) fun k hk => by
      obtain ⟨q, hq, hbusy⟩ := startQueues_busy leaves hsum k hk
      exact ⟨q, hq, by rwa [← Bool.not_eq_true, Queues.done_iff]⟩
  rw [buildNodes, List.take_length]
  rw [startQueues] at hmerge
  rw [hmerge, Option.map_some]

end

/-- The root of the merged tree is its last entry and weighs what the leaves weigh (R42). -/
theorem Merged.root_wgt {leaves inner : List NodeEntry} (h : Merged leaves inner) (hn : 2 ≤ leaves.length) :
    ∃ e, inner.getLast? = some e ∧ e.wgt.toNat = (leaves.map fun e => e.wgt.toNat).sum := by
  have hroot := h.tree.weightAt_root (by omega)
  have hlen := h.length_eq
  have hlast : inner.length - 1 < inner.length := by omega
  have he : (leaves ++ inner)[2 * leaves.length - 2]? = some inner[inner.length - 1] := by
    rw [List.getElem?_append_right (by omega), ← List.getElem?_eq_getElem hlast]
    congr 1
    omega
  rw [weightAt_of_some he, List.take_left] at hroot
  exact ⟨_, by rw [List.getLast?_eq_getElem?, List.getElem?_eq_getElem hlast], hroot⟩

/-! ### `BUILD` in states that meet the invariants -/

theorem Inv.nleaf_le_length {s : State} (h : Inv s) : s.nleaf ≤ s.node.length := h.leafList.1

theorem Inv.length_leaves {s : State} (h : Inv s) : s.leaves.length = s.nleaf := by
  rw [State.leaves, List.length_take]
  exact Nat.min_eq_left h.nleaf_le_length

theorem Inv.sum_leaves {s : State} (h : Inv s) : (s.leaves.map fun e => e.wgt.toNat).sum = s.total.toNat := by
  obtain ⟨-, -, -, -, hsum⟩ := h.leafList
  exact hsum

theorem seqBuild_early {s : State} (h : seqBuild s) : s.phase = .load ∨ s.phase = .leaves := by
  tauto

section
variable {s : State} (h : Inv s) (hseq : seqBuild s) (hn : 2 ≤ s.nleaf)
include h hseq hn

/-- `BUILD`'s loop appends merged internal nodes to the leaf list, the root last (R123, R130). -/
theorem Inv.buildNodes_eq : ∃ inner, Merged s.node inner ∧ buildNodes s.node s.nleaf = some (s.node ++ inner) ∧
    (s.node ++ inner).length - 1 = 2 * s.nleaf - 2 := by
  have hnode := leaves_eq_node s h (seqBuild_early hseq)
  have hlen : s.node.length = s.nleaf := hnode ▸ h.length_leaves
  have hsum : (s.node.map fun e => e.wgt.toNat).sum < 2 ^ 32 := by
    rw [← hnode, h.sum_leaves]
    exact s.total.isLt
  obtain ⟨inner, hm⟩ := exists_merged s.node hsum (hlen ▸ hn)
  have hbuild := hm.buildNodes_eq s.node hsum (hlen ▸ hn)
  rw [hlen] at hbuild
  exact ⟨inner, hm, hbuild, by rw [hm.tree.length_eq, hlen, Nat.sub_sub]⟩

/-- An accepted `BUILD` of two leaves or more (R123). -/
theorem execBuild_merged (hf : s.fault = false) : ∃ inner, Merged s.node inner ∧
    execBuild s = .next (State.answer
      { s with
        node := s.node ++ inner
        root := some (2 * s.nleaf - 2)
        cur := some (2 * s.nleaf - 2)
        phase := .tree }
      (rspWord .ok (BitVec.ofNat 56 (2 * s.nleaf - 2)))) := by
  obtain ⟨inner, hm, hbuild, hlast⟩ := h.buildNodes_eq hseq hn
  have hbyte : (refByte (some (2 * s.nleaf - 2))).setWidth 56 = BitVec.ofNat 56 (2 * s.nleaf - 2) := by
    have := nleaf_le s h
    apply BitVec.eq_of_toNat_eq
    simp only [refByte, BitVec.toNat_setWidth, BitVec.toNat_ofNat]
    omega
  refine ⟨inner, hm, ?_⟩
  rw [execBuild, working_accepted _ _ _ hf hseq, if_neg (by omega), if_neg (by omega), hbuild]
  simp only [hlast, hbyte, respond_eq]

end

/-- Settles O18: under the invariants the leaf list is all of `NODE`, and its weights sum to `TOTAL`, so no sum of the
merge wraps. -/
theorem buildMakesTheTree : Obligations.BuildMakesTheTree := by
  intro s h hf hseq hn
  obtain ⟨inner, hm, hexec⟩ := execBuild_merged h hseq hn hf
  have hnode := leaves_eq_node s h (seqBuild_early hseq)
  have hlen : s.node.length = s.nleaf := hnode ▸ h.length_leaves
  have hsum : (s.node.map fun e => e.wgt.toNat).sum = s.total.toNat := hnode ▸ h.sum_leaves
  have hstart : s.queues = startQueues s.node := by
    rw [queues_eq s h (seqBuild_early hseq), startQueues, hlen]
  have hiter := hm.iterate_eq
  have htree := hm.tree
  have hinner := hm.length_eq
  have hbusy := startQueues_busy s.node (hsum ▸ s.total.isLt)
  obtain ⟨e, he, hw⟩ := hm.root_wgt (hlen ▸ hn)
  rw [hlen, ← hstart] at hiter hbusy
  rw [hlen] at htree hinner
  refine ⟨inner, hexec, hiter, hbusy, hinner, htree, ?_⟩
  rw [he, Option.map_some, BitVec.eq_of_toNat_eq (hw.trans hsum)]

/-- R61 item 5: after `BUILD` there is the finished tree, its root the last entry, or none. -/
theorem Inv.tree_cases {s : State} (h : Inv s) (hphase : s.phase = .tree ∨ s.phase = .codes) :
    (s.nleaf = 0 ∧ s.node = [] ∧ s.root = none) ∨
    (2 ≤ s.nleaf ∧ TreeOk s.node s.nleaf ∧ s.root = some (2 * s.nleaf - 2)) := by
  obtain ⟨hone, hnone, htwo⟩ := h.tree hphase
  by_cases hn : s.nleaf = 0
  · exact .inl ⟨hn, hnone hn⟩
  · have hn2 : 2 ≤ s.nleaf := by omega
    obtain ⟨htree, hroot⟩ := htwo hn2
    rw [State.nnode, htree.length_eq, Nat.sub_sub] at hroot
    exact .inr ⟨hn2, htree, hroot⟩

/-- Settles O41: the root is the last entry, and by R48 it weighs what the leaves weigh together. -/
theorem rootWeightIsTotal : Obligations.RootWeightIsTotal := by
  intro s h hphase r e hr he
  rcases h.tree_cases hphase with ⟨-, -, hroot⟩ | ⟨hn, htree, hroot⟩
  · simp [hroot] at hr
  · cases hroot.symm.trans hr
    have hw := htree.weightAt_root (by omega)
    rw [weightAt_of_some he] at hw
    exact BitVec.eq_of_toNat_eq (hw.trans h.sum_leaves)

end Sys2Proof.Machine

/-! ## Proofs: the traversal of `GEN` and its code table (spec/42_code_generator.md) -/

namespace Sys2Proof.Machine

open Sys2Proof

/-! ### The walk of `GEN` -/

theorem walkTree_leaf {node : List NodeEntry} {i : NodeIdx} {x : Sym} {w : Wgt} (h : node[i]? = some (.leaf x w))
    (fuel : Nat) (path : Bits) : walkTree node (fuel + 1) i path = some [(x, path)] := by
  simp [walkTree, h]

theorem walkTree_inner {node : List NodeEntry} {i l r : NodeIdx} {w : Wgt} (h : node[i]? = some (.inner w l r))
    (fuel : Nat) (path : Bits) (L : List (Sym × Bits)) :
    walkTree node (fuel + 1) i path = some L ↔ ∃ a b, walkTree node fuel l (path ++ [false]) = some a ∧
      walkTree node fuel r (path ++ [true]) = some b ∧ L = a ++ b := by
  simp only [walkTree, h]
  cases walkTree node fuel l (path ++ [false]) <;> cases walkTree node fuel r (path ++ [true]) <;> simp [eq_comm]

/-- What a walk that succeeds has met at its start. -/
theorem walkTree_cases {node : List NodeEntry} {fuel : Nat} {i : NodeIdx} {path : Bits} {L : List (Sym × Bits)}
    (h : walkTree node (fuel + 1) i path = some L) :
    (∃ x w, node[i]? = some (.leaf x w) ∧ L = [(x, path)]) ∨
    ∃ w l r a b, node[i]? = some (.inner w l r) ∧ walkTree node fuel l (path ++ [false]) = some a ∧
      walkTree node fuel r (path ++ [true]) = some b ∧ L = a ++ b := by
  cases hi : node[i]? with
  | none => simp [walkTree, hi] at h
  | some e =>
    cases e with
    | leaf x w =>
      rw [walkTree_leaf hi] at h
      exact .inl ⟨x, w, rfl, (Option.some.inj h).symm⟩
    | inner w l r =>
      obtain ⟨a, b, ha, hb, hL⟩ := (walkTree_inner hi fuel path L).mp h
      exact .inr ⟨w, l, r, a, b, rfl, ha, hb, hL⟩

/-- A walk that starts with a path puts it in front of every path it records. -/
theorem walkTree_prefix (node : List NodeEntry) (fuel : Nat) (i : NodeIdx) (p q : Bits) :
    walkTree node fuel i (p ++ q) = (walkTree node fuel i q).map (List.map fun x => (x.1, p ++ x.2)) := by
  induction fuel generalizing i q with
  | zero => rfl
  | succ fuel ih =>
    simp only [walkTree]
    split
    · rfl
    · rfl
    · rw [List.append_assoc, List.append_assoc, ih, ih]
      cases walkTree node fuel _ (q ++ [false]) <;> cases walkTree node fuel _ (q ++ [true]) <;> simp

theorem walkTree_path (node : List NodeEntry) (fuel : Nat) (i : NodeIdx) (p : Bits) :
    walkTree node fuel i p = (walkTree node fuel i []).map (List.map fun x => (x.1, p ++ x.2)) := by
  simpa using walkTree_prefix node fuel i p []

/-- More fuel changes nothing of a walk that succeeds. -/
theorem walkTree_mono {node : List NodeEntry} {fuel fuel' : Nat} {i : NodeIdx} {p : Bits} {L : List (Sym × Bits)}
    (h : walkTree node fuel i p = some L) (hle : fuel ≤ fuel') : walkTree node fuel' i p = some L := by
  induction fuel generalizing fuel' i p L with
  | zero => cases h
  | succ fuel ih =>
    obtain ⟨fuel', rfl⟩ : ∃ f, fuel' = f + 1 := ⟨fuel' - 1, by omega⟩
    rcases walkTree_cases h with ⟨x, w, hi, rfl⟩ | ⟨w, l, r, a, b, hi, ha, hb, rfl⟩
    · exact walkTree_leaf hi fuel' p
    · exact (walkTree_inner hi fuel' p _).mpr ⟨a, b, ih ha (by omega), ih hb (by omega), rfl⟩

/-- Every internal node of the array stands at `n` or above and meets R48. -/
def InnersOk (node : List NodeEntry) (n : Nat) : Prop :=
  ∀ i w l r, node[i]? = some (.inner w l r) → n ≤ i ∧ innerOk node i = true

theorem InnersOk.children_lt {node : List NodeEntry} {n i l r : Nat} {w : Wgt} (h : InnersOk node n)
    (hi : node[i]? = some (.inner w l r)) : n ≤ i ∧ l < i ∧ r < i := by
  obtain ⟨hn, hok⟩ := h i w l r hi
  obtain ⟨w', l', r', a, b, hi', hl, hr, -, -, -⟩ := (innerOk_iff node i).mp hok
  cases hi.symm.trans hi'
  exact ⟨hn, hl, hr⟩

/-- Children have smaller indices, so a walk with that much fuel succeeds (R48). -/
theorem exists_walkTree {node : List NodeEntry} {n : Nat} (h : InnersOk node n) (fuel : Nat) (i : Nat)
    (p : Bits) (hi : i < node.length) (hfuel : i < fuel) : ∃ L, walkTree node fuel i p = some L := by
  induction fuel generalizing i p with
  | zero => omega
  | succ fuel ih =>
    have hi' := List.getElem?_eq_getElem hi
    cases he : node[i] with
    | leaf x w => exact ⟨_, walkTree_leaf (hi'.trans (congrArg some he)) fuel p⟩
    | inner w l r =>
      rw [he] at hi'
      obtain ⟨-, hl, hr⟩ := h.children_lt hi'
      obtain ⟨a, ha⟩ := ih l (p ++ [false]) (by omega) (by omega)
      obtain ⟨b, hb⟩ := ih r (p ++ [true]) (by omega) (by omega)
      exact ⟨_, (walkTree_inner hi' fuel p _).mpr ⟨a, b, ha, hb, rfl⟩⟩

/-- A path from `i` passes internal nodes of ever smaller index, from `i` down to `n` (R145). -/
theorem walkTree_path_length_le {node : List NodeEntry} {n : Nat} (h : InnersOk node n) (fuel : Nat) (i : Nat)
    (p : Bits) (L : List (Sym × Bits)) (hL : walkTree node fuel i p = some L) :
    ∀ x ∈ L, x.2.length ≤ p.length + (i + 1 - n) := by
  induction fuel generalizing i p L with
  | zero => cases hL
  | succ fuel ih =>
    rcases walkTree_cases hL with ⟨x, w, hi, rfl⟩ | ⟨w, l, r, a, b, hi, ha, hb, rfl⟩
    · simp
    · obtain ⟨hn, hl, hr⟩ := h.children_lt hi
      intro x hx
      rcases List.mem_append.mp hx with hx | hx
      · have := ih l _ a ha x hx
        simp only [List.length_append, List.length_singleton] at this
        omega
      · have := ih r _ b hb x hx
        simp only [List.length_append, List.length_singleton] at this
        omega

/-- From an internal node every path makes a turn. -/
theorem walkTree_inner_path_ne_nil {node : List NodeEntry} {fuel : Nat} {i l r : NodeIdx} {w : Wgt}
    {L : List (Sym × Bits)} (hi : node[i]? = some (.inner w l r)) (hL : walkTree node fuel i [] = some L) :
    ∀ x ∈ L, x.2 ≠ [] := by
  obtain _ | fuel := fuel
  · cases hL
  obtain ⟨a, b, ha, hb, rfl⟩ := (walkTree_inner hi fuel [] L).mp hL
  rw [walkTree_path, Option.map_eq_some_iff] at ha hb
  obtain ⟨a', -, rfl⟩ := ha
  obtain ⟨b', -, rfl⟩ := hb
  intro x hx
  simp only [List.mem_append, List.mem_map] at hx
  rcases hx with ⟨y, -, rfl⟩ | ⟨y, -, rfl⟩ <;> simp

/-- The symbols a walk from `i` records. -/
def symsBelow (node : List NodeEntry) (i : NodeIdx) : Multiset Sym :=
  ((walkTree node node.length i []).getD []).map Prod.fst

theorem symsBelow_of_walkTree {node : List NodeEntry} {fuel : Nat} {i : NodeIdx} {p : Bits} {L : List (Sym × Bits)}
    (h : walkTree node fuel i p = some L) (hfuel : fuel ≤ node.length) : symsBelow node i = L.map Prod.fst := by
  rw [walkTree_path, Option.map_eq_some_iff] at h
  obtain ⟨L', hL', rfl⟩ := h
  simp [symsBelow, walkTree_mono hL' hfuel, Function.comp_def]

theorem symsBelow_leaf {node : List NodeEntry} {i : NodeIdx} {x : Sym} {w : Wgt} (h : node[i]? = some (.leaf x w)) :
    symsBelow node i = {x} := by
  have hlen := (List.getElem?_eq_some_iff.mp h).1
  exact symsBelow_of_walkTree (walkTree_leaf h 0 []) (by omega)

/-- Below an internal node stand the symbols below its two children. -/
theorem sumsChildren_symsBelow {node : List NodeEntry} {n : Nat} (h : InnersOk node n)
    (hinner : ∀ i e, n ≤ i → node[i]? = some e → e.isLeaf = false) : SumsChildren node n (symsBelow node) := by
  intro i e hi he
  have hlen : i < node.length := (List.getElem?_eq_some_iff.mp he).1
  cases e with
  | leaf x w => cases hinner i _ hi he
  | inner w l r =>
    obtain ⟨fuel, hfuel⟩ : ∃ f, node.length = f + 1 := ⟨node.length - 1, by omega⟩
    obtain ⟨L, hL⟩ := exists_walkTree h node.length i [] hlen hlen
    rw [symsBelow_of_walkTree hL le_rfl]
    rw [hfuel] at hL
    obtain ⟨a, b, ha, hb, rfl⟩ := (walkTree_inner he fuel [] L).mp hL
    simp [NodeEntry.children, symsBelow_of_walkTree ha (by omega), symsBelow_of_walkTree hb (by omega)]

/-! ### The tree of a state after `BUILD` -/

theorem NodeEntry.isLeaf_of_innerOk {node : List NodeEntry} {i : NodeIdx} {e : NodeEntry}
    (h : innerOk node i = true) (he : node[i]? = some e) : e.isLeaf = false := by
  obtain ⟨w, l, r, a, b, hi, -⟩ := (innerOk_iff node i).mp h
  cases he.symm.trans hi
  rfl

theorem Inv.isLeaf_of_lt {s : State} (h : Inv s) {i : Nat} {e : NodeEntry} (hi : i < s.nleaf)
    (he : s.node[i]? = some e) : e.isLeaf = true := by
  obtain ⟨-, hleaf, -⟩ := h.leafList
  refine hleaf e (List.mem_of_getElem? (i := i) ?_)
  rw [State.leaves, List.getElem?_take_of_lt hi, he]

/-- In a state with a tree the entries below `NLEAF` are leaves and those above are internal nodes (R48, R49). -/
theorem Inv.innersOk {s : State} (h : Inv s) (htree : TreeOk s.node s.nleaf) : InnersOk s.node s.nleaf := by
  intro i w l r hi
  have hn : s.nleaf ≤ i := by
    by_contra hlt
    cases h.isLeaf_of_lt (Nat.not_le.mp hlt) hi
  exact ⟨hn, htree.innerOk_of_le hn (List.getElem?_eq_some_iff.mp hi).1⟩

/-- The walk from the root meets each leaf once (R48, R142). -/
theorem Inv.symsBelow_root {s : State} (h : Inv s) (hn : 2 ≤ s.nleaf) (htree : TreeOk s.node s.nleaf) :
    symsBelow s.node (2 * s.nleaf - 2) = s.leaves.map NodeEntry.sym := by
  have hsums := sumsChildren_symsBelow (h.innersOk htree) fun i e hi he =>
    NodeEntry.isLeaf_of_innerOk (htree.innerOk_of_le hi (List.getElem?_eq_some_iff.mp he).1) he
  have hle := h.nleaf_le_length
  rw [htree.root_eq_sum_leaves (by omega) _ hsums]
  have hsplit := Multiset.sum_map_singleton (Multiset.ofList (s.leaves.map NodeEntry.sym))
  rw [← hsplit, Multiset.map_coe, Multiset.sum_coe, List.map_map]
  congr 1
  apply List.ext_getElem
  · simp [h.length_leaves]
  · intro i hi _
    have hin : i < s.nleaf := by simpa using hi
    have he := List.getElem?_eq_getElem (Nat.lt_of_lt_of_le hin hle)
    have hleaf := h.isLeaf_of_lt hin he
    cases hx : s.node[i] with
    | leaf x w =>
      rw [hx] at he
      simp [State.leaves, hx, symsBelow_leaf he, NodeEntry.sym]
    | inner w l r => rw [hx] at hleaf; cases hleaf

/-- After `BUILD` the traversal succeeds and records each leaf's symbol once (R141, R142, R146). -/
theorem Inv.exists_treePaths {s : State} (h : Inv s) (hphase : s.phase = .tree ∨ s.phase = .codes) :
    ∃ paths, treePaths s.node s.root = some paths ∧ (paths.map Prod.fst).Perm (s.leaves.map NodeEntry.sym) := by
  rcases h.tree_cases hphase with ⟨hn, -, hroot⟩ | ⟨hn, htree, hroot⟩
  · exact ⟨[], by rw [hroot, treePaths], by simp [State.leaves, hn]⟩
  · have hlen := htree.length_eq
    obtain ⟨paths, hpaths⟩ :=
      exists_walkTree (h.innersOk htree) s.node.length (2 * s.nleaf - 2) [] (by omega) (by omega)
    refine ⟨paths, by rw [hroot, treePaths, hpaths], Multiset.coe_eq_coe.mp ?_⟩
    rw [← symsBelow_of_walkTree hpaths le_rfl, h.symsBelow_root hn htree]

/-- Every path has a turn and at most `NLEAF` − 1 (R145). -/
theorem Inv.path_length {s : State} (h : Inv s) (hphase : s.phase = .tree ∨ s.phase = .codes)
    {paths : List (Sym × Bits)} (hpaths : treePaths s.node s.root = some paths) :
    ∀ p ∈ paths, p.2 ≠ [] ∧ p.2.length ≤ s.nleaf - 1 := by
  rcases h.tree_cases hphase with ⟨hn, -, hroot⟩ | ⟨hn, htree, hroot⟩
  · rw [hroot, treePaths] at hpaths
    cases hpaths
    simp
  · rw [hroot, treePaths] at hpaths
    have hlen := htree.length_eq
    obtain ⟨w, l, r, a, b, hi, -⟩ :=
      (innerOk_iff _ _).mp (htree.innerOk_root hn)
    intro p hp
    refine ⟨walkTree_inner_path_ne_nil hi hpaths p hp, ?_⟩
    have := walkTree_path_length_le (h.innersOk htree) _ _ _ _ hpaths p hp
    simp only [List.length_nil] at this
    omega

/-! ### The code table -/

theorem codeTable_nil : codeTable [] = Vector.replicate 128 none := rfl

theorem codeTable_concat (paths : List (Sym × Bits)) (p : Sym × Bits) :
    codeTable (paths ++ [p]) = setSym (codeTable paths) p.1 (some (codewordOf p.2)) := by
  simp [codeTable]

/-- A codeword of the table is that of one of the paths (R143). -/
theorem getSym_codeTable {paths : List (Sym × Bits)} {x : Sym} {c : Codeword}
    (h : getSym (codeTable paths) x = some c) : ∃ p, (x, p) ∈ paths ∧ c = codewordOf p := by
  induction paths using List.reverseRecOn with
  | nil => simp [codeTable_nil] at h
  | append_singleton paths p ih =>
    rw [codeTable_concat] at h
    by_cases hx : x = p.1
    · subst hx
      rw [getSym_setSym_same] at h
      exact ⟨p.2, by simp, (Option.some.inj h).symm⟩
    · rw [getSym_setSym_ne _ _ _ _ hx] at h
      obtain ⟨q, hq, hc⟩ := ih h
      exact ⟨q, by simp [hq], hc⟩

/-- Exactly the symbols of the paths have a codeword (R51). -/
theorem getSym_codeTable_isSome (paths : List (Sym × Bits)) (x : Sym) :
    (getSym (codeTable paths) x).isSome = true ↔ x ∈ paths.map Prod.fst := by
  induction paths using List.reverseRecOn with
  | nil => simp [codeTable_nil]
  | append_singleton paths p ih =>
    rw [codeTable_concat, List.map_append, List.mem_append, List.map_singleton, List.mem_singleton]
    by_cases hx : x = p.1
    · simp [hx]
    · rw [getSym_setSym_ne _ _ _ _ hx, ih]
      simp [hx]

/-- A codeword held after `GEN` has a path of 1 to `NLEAF` − 1 turns (R51, R145). -/
theorem Inv.codeword_path {s : State} (h : Inv s) (hphase : s.phase = .codes) {x : Sym} {c : Codeword}
    (hc : getSym s.code x = some c) : ∃ p, c = codewordOf p ∧ p ≠ [] ∧ p.length ≤ s.nleaf - 1 := by
  obtain ⟨paths, hpaths, hcode⟩ := Option.map_eq_some_iff.mp (h.code.2 hphase)
  rw [← hcode] at hc
  obtain ⟨p, hp, rfl⟩ := getSym_codeTable hc
  obtain ⟨hne, hle⟩ := h.path_length (.inr hphase) hpaths _ hp
  exact ⟨p, rfl, hne, hle⟩

theorem Inv.codeword_bits_ne_nil {s : State} (h : Inv s) (hphase : s.phase = .codes) {x : Sym} {c : Codeword}
    (hc : getSym s.code x = some c) : c.bits ≠ [] := by
  obtain ⟨p, rfl, hne, hle⟩ := h.codeword_path hphase hc
  rwa [codewordOf_bits p (by have := nleaf_le s h; omega)]

/-- Settles O22: the traversal meets each leaf once, and the table holds the codeword of each path. -/
theorem genWritesOneCodePerLeaf : Obligations.GenWritesOneCodePerLeaf := by
  intro s
  refine ⟨fun hf => ?_, fun hf hp => ?_, fun h hf hp => ?_⟩
  · exact working_faulted _ _ _ hf
  · exact working_out_of_sequence _ _ _ hf hp
  · obtain ⟨paths, hpaths, hperm⟩ := h.exists_treePaths (.inl hp)
    have hlen : paths.length = s.nleaf := by simpa [h.length_leaves] using hperm.length_eq
    refine ⟨codeTable paths, ?_, fun x => ?_⟩
    · show execGen s = _
      rw [execGen, working_accepted _ _ _ hf hp, hpaths, ← hlen]
      rfl
    · rw [getSym_codeTable_isSome, hperm.mem_iff, List.mem_map]

end Sys2Proof.Machine

/-! ## Proofs: the counters and the leaf list (spec/40_frequency_analyzer.md, R121) -/

namespace Sys2Proof.Machine

open Sys2Proof

/-! ### The counters (R52) -/

theorem toList_eq_map_getSym {α : Type} (t : Vector α 128) : t.toList = allSyms.map (getSym t) := by
  apply List.ext_getElem
  · simp [allSyms]
  · intro i hi _
    have : i < 128 := by simpa using hi
    simp [allSyms, getSym, Nat.mod_eq_of_lt this]

/-- Writing one counter exchanges its value in the sum of all. -/
theorem sum_setSym (cnt : Vector (BitVec 32) 128) (x : Sym) (v : BitVec 32) :
    ((setSym cnt x v).toList.map BitVec.toNat).sum + (getSym cnt x).toNat =
      (cnt.toList.map BitVec.toNat).sum + v.toNat := by
  have hx : x.toNat < (cnt.toList.map BitVec.toNat).length := by simpa using x.isLt
  have hget : (cnt.toList.map BitVec.toNat)[x.toNat] = (getSym cnt x).toNat := by simp [getSym]
  have hsplit := congrArg List.sum (List.take_append_drop x.toNat (cnt.toList.map BitVec.toNat))
  rw [List.drop_eq_getElem_cons hx, List.sum_append, List.sum_cons, hget] at hsplit
  rw [setSym, Vector.toList_set, List.map_set, List.sum_set, if_pos hx]
  omega

theorem getSym_le_sum (cnt : Vector (BitVec 32) 128) (x : Sym) :
    (getSym cnt x).toNat ≤ (cnt.toList.map BitVec.toNat).sum := by
  have := sum_setSym cnt x 0#32
  simp only [BitVec.toNat_ofNat, Nat.zero_mod] at this
  omega

/-! ### The leaf list of `FA_FIN` (R113 to R115) -/

/-- A leaf list: distinct symbols, weights in non-decreasing order, summing to `total` (R42, R49). -/
structure LeavesOk (L : List (Sym × Wgt)) (total : Nat) : Prop where
  nodup : (L.map Prod.fst).Nodup
  sorted : L.Pairwise fun p q => p.2 ≤ q.2
  sum_eq : (L.map fun p => p.2.toNat).sum = total

theorem leafBefore_total (p q : Sym × Wgt) : leafBefore p q ∨ leafBefore q p := by
  unfold leafBefore
  bv_omega

theorem leafBefore_trans (p q r : Sym × Wgt) (h : leafBefore p q) (h' : leafBefore q r) : leafBefore p r := by
  unfold leafBefore at *
  bv_omega

theorem countedLeaves_perm (cnt : Vector (BitVec 32) 128) :
    (countedLeaves cnt).Perm ((allSyms.map fun s => (s, getSym cnt s)).filter fun p => p.2 ≠ 0#32) :=
  List.perm_insertionSort _ _

/-- A symbol that was not counted adds nothing. -/
theorem sum_filter_counted (L : List (Sym × Wgt)) :
    ((L.filter fun p => p.2 ≠ 0#32).map fun p => p.2.toNat).sum = (L.map fun p => p.2.toNat).sum := by
  induction L with
  | nil => rfl
  | cons p L ih =>
    by_cases hp : p.2 = 0#32 <;> simpa [hp] using ih

theorem countedLeaves_ok (cnt : Vector (BitVec 32) 128) :
    LeavesOk (countedLeaves cnt) (cnt.toList.map BitVec.toNat).sum where
  nodup := by
    rw [((countedLeaves_perm cnt).map Prod.fst).nodup_iff]
    refine List.Nodup.sublist (List.filter_sublist.map Prod.fst) ?_
    simpa [Function.comp_def] using allSyms_nodup
  sorted := by
    have : Std.Total leafBefore := ⟨leafBefore_total⟩
    have : IsTrans _ leafBefore := ⟨leafBefore_trans⟩
    refine (List.pairwise_insertionSort leafBefore _).imp fun {p q} hpq => ?_
    unfold leafBefore at hpq
    bv_omega
  sum_eq := by
    rw [((countedLeaves_perm cnt).map _).sum_eq, toList_eq_map_getSym, sum_filter_counted]
    simp [Function.comp_def]

theorem nextSym_ne (c : Sym) : nextSym c ≠ c := by
  unfold nextSym
  split <;> bv_omega

/-- The phantom leaf keeps the leaf list in order and adds no weight (R115). -/
theorem leafList_ok {D : List (Sym × Wgt)} {total : Nat} (h : LeavesOk D total) : LeavesOk (leafList D).1 total := by
  unfold leafList
  split
  · rename_i c n
    exact ⟨by simp [nextSym_ne], by simp [BitVec.le_def], by simpa using h.sum_eq⟩
  · exact h

theorem leafList_length_ne_one (D : List (Sym × Wgt)) : (leafList D).1.length ≠ 1 := by
  unfold leafList
  split
  · simp
  · rename_i hD
    intro h
    obtain ⟨p, rfl⟩ := List.length_eq_one_iff.mp h
    exact hD p.1 p.2 rfl

theorem invLeaves_of_leavesOk (s : State) (L : List (Sym × Wgt)) (h : LeavesOk L s.total.toNat)
    (hnode : s.node = L.map fun p => NodeEntry.leaf p.1 p.2) (hnleaf : s.nleaf = L.length) : InvLeaves s := by
  have hleaves : s.leaves = L.map fun p => NodeEntry.leaf p.1 p.2 := by
    rw [State.leaves, hnode, hnleaf, ← List.length_map (as := L) fun p => NodeEntry.leaf p.1 p.2, List.take_length]
  rw [InvLeaves, hleaves]
  refine ⟨by simp [State.nnode, hnode, hnleaf], ?_, ?_, ?_, ?_⟩
  · rintro e he
    obtain ⟨p, -, rfl⟩ := List.mem_map.mp he
    rfl
  · simpa [Function.comp_def, NodeEntry.sym] using h.nodup
  · simpa [List.pairwise_map, NodeEntry.wgt] using h.sorted
  · simpa [Function.comp_def, NodeEntry.wgt] using h.sum_eq

/-! ### The leaf `LEAF_PUSH` appends (R121) -/

theorem Inv.wgt_le_of_orderOk {s : State} (h : Inv s) {v : Wgt} (ho : s.orderOk v = some true) :
    ∀ e ∈ s.leaves, e.wgt ≤ v := by
  obtain ⟨-, -, -, hsorted, -⟩ := h.leafList
  intro e he
  obtain ⟨i, hi, rfl⟩ := List.getElem_of_mem he
  rw [h.length_leaves] at hi
  have hlast : s.nleaf - 1 < s.leaves.length := by rw [h.length_leaves]; omega
  have hle : s.leaves[s.nleaf - 1].wgt ≤ v := by
    have hn : s.nleaf - 1 < s.node.length := Nat.lt_of_lt_of_le (by omega) h.nleaf_le_length
    rw [State.orderOk, if_neg (by omega), List.getElem?_eq_getElem hn] at ho
    simpa [State.leaves] using ho
  rcases Nat.lt_or_ge i (s.nleaf - 1) with hlt | hge
  · exact BitVec.le_trans (List.pairwise_iff_getElem.mp hsorted i _ _ hlast hlt) hle
  · rwa [show s.leaves[i] = s.leaves[s.nleaf - 1] by congr 1; omega]

theorem sym_ne_of_not_leavesHold {s : State} {x : Sym} (h : s.leavesHold x = false) :
    ∀ e ∈ s.leaves, e.sym ≠ x := by
  simpa [State.leavesHold, State.leaves] using h

/-- The leaf list with a leaf of a new symbol and of no smaller weight is a leaf list (R121). -/
theorem Inv.invLeaves_push {s : State} (h : Inv s) {x : Sym} {v : Wgt} (hx : s.leavesHold x = false)
    (ho : s.orderOk v = some true) (hv : s.total.toNat + v.toNat ≤ Config.max32) :
    InvLeaves { s with node := s.node.take s.nleaf ++ [.leaf x v], total := s.total + v, nleaf := s.nleaf + 1 } := by
  obtain ⟨-, hleaf, hnodup, hsorted, hsum⟩ := h.leafList
  have hlen : (s.leaves ++ [NodeEntry.leaf x v]).length = s.nleaf + 1 := by simp [h.length_leaves]
  have hleaves : State.leaves
      { s with node := s.node.take s.nleaf ++ [.leaf x v], total := s.total + v, nleaf := s.nleaf + 1 } =
      s.leaves ++ [.leaf x v] := by
    show (s.leaves ++ [NodeEntry.leaf x v]).take (s.nleaf + 1) = _
    rw [← hlen, List.take_length]
  have htotal : (s.total + v).toNat = s.total.toNat + v.toNat := by
    rw [BitVec.toNat_add, Nat.mod_eq_of_lt (by simp only [Config.max32] at hv; omega)]
  rw [InvLeaves, hleaves]
  refine ⟨hlen.ge, ?_, ?_, ?_, ?_⟩
  · intro e he
    rcases List.mem_append.mp he with he | he
    · exact hleaf e he
    · rw [List.mem_singleton.mp he]
      rfl
  · rw [List.map_append, List.map_singleton, ← List.concat_eq_append, List.nodup_concat]
    refine ⟨fun hmem => ?_, hnodup⟩
    obtain ⟨e, he, hex⟩ := List.mem_map.mp hmem
    exact sym_ne_of_not_leavesHold hx e he hex
  · rw [List.pairwise_append]
    refine ⟨hsorted, List.pairwise_singleton _ _, fun e he e' he' => ?_⟩
    rw [List.mem_singleton.mp he']
    exact h.wgt_le_of_orderOk ho e he
  · rw [List.map_append, List.sum_append, hsum, htotal]
    simp [NodeEntry.wgt]

end Sys2Proof.Machine

/-! ## Proofs: what a command can do -/

namespace Sys2Proof.Machine

open Sys2Proof

/-! ### The state a decoder command leaves -/

/-- The first byte of a stream writes `ACT` and decode flags and nothing else (R166, R167). -/
theorem State.openByte_eq (s : State) (b : Byte) (h : s.act = .idle ∨ s.act = .decoding) :
    (s.openByte b).1 = { s with
      act := .decoding, nosent := (s.openByte b).1.nosent, trunc := (s.openByte b).1.trunc
      dempty := (s.openByte b).1.dempty, notree := (s.openByte b).1.notree } := by
  unfold State.openByte
  split
  · rfl
  · rw [← h.resolve_left ‹_›]

theorem State.closeStream_eq (s : State) :
    s.closeStream = { s with
      act := .idle, cur := s.root, nosent := s.closeStream.nosent, trunc := s.closeStream.trunc
      dempty := s.closeStream.dempty, notree := s.closeStream.notree } := by
  unfold State.closeStream
  split <;> rfl

/-! ### One case for each thing a command can do -/

/-- `Effect i s u`: command `i` can take `s` to `u`, the response not yet given. A case names the conditions under which
the command is accepted and every field it writes. -/
inductive Effect : Instr → State → State → Prop
  /-- a command that is refused, and `NOP` and the reads: nothing but a response (R79, R203) -/
  | quiet {i : Instr} {s : State} : Effect i s s
  | clear {s : State} : Effect .clear s s.clearState
  | faSym {s : State} (x : Sym) (hf : s.fault = false) (hseq : seqFrequency s) (hlt : s.nsym.toNat < Config.max32) :
      Effect (.faSym x) s { s with cnt := setSym s.cnt x (getSym s.cnt x + 1#32), nsym := s.nsym + 1#32 }
  | faFin {s : State} (hf : s.fault = false) (hseq : seqFrequency s) :
      Effect .faFin s
        { s with
          node := (leafList (countedLeaves s.cnt)).1.map fun p => NodeEntry.leaf p.1 p.2
          nleaf := (leafList (countedLeaves s.cnt)).1.length
          total := s.nsym
          phantom := (leafList (countedLeaves s.cnt)).2 || s.phantom
          phase := .leaves }
  | leafPush {s : State} (x : Sym) (v : Wgt) (hf : s.fault = false) (hseq : seqLeafPush s)
      (hx : s.leavesHold x = false) (ho : s.orderOk v = some true) (hv : s.total.toNat + v.toNat ≤ Config.max32) :
      Effect (.leafPush x v) s
        { s with node := s.node.take s.nleaf ++ [.leaf x v], total := s.total + v, nleaf := s.nleaf + 1 }
  | buildNone {s : State} (hf : s.fault = false) (hseq : seqBuild s) (hn : s.nleaf = 0) :
      Effect .build s { s with root := none, cur := none, node := [], phase := .tree }
  | build {s : State} (node : List NodeEntry) (hf : s.fault = false) (hseq : seqBuild s) (hn : 2 ≤ s.nleaf)
      (hnode : buildNodes s.node s.nleaf = some node) :
      Effect .build s
        { s with root := some (node.length - 1), cur := some (node.length - 1), node := node, phase := .tree }
  | gen {s : State} (paths : List (Sym × Bits)) (hf : s.fault = false) (hseq : seqGen s)
      (hpaths : treePaths s.node s.root = some paths) :
      Effect .gen s { s with code := codeTable paths, phase := .codes }
  | encFault {s : State} (x : Sym) (f : RspCode) (hf : s.fault = false) (hseq : seqEncode s)
      (hcode : f = .fltNocode ∨ f = .fltBufovf) :
      Effect (.encSym x) s (s.faulted f (opcodeOf .ENC_SYM) (symField x))
  | encSym {s : State} (x : Sym) (c : Codeword) (hf : s.fault = false) (hseq : seqEncode s)
      (hc : getSym s.code x = some c) (hfits : s.bitlen + c.len.toNat ≤ s.bitbufMax.toNat) :
      Effect (.encSym x) s { s with b := s.b ++ c.bits, act := .encoding }
  | encFin {s : State} (hf : s.fault = false) (hseq : seqEncode s) :
      Effect .encFin s { s.emitBytes (messageBytes s.b) with b := [], act := .idle }
  | decByte {s : State} (b : Byte) (w : Walk) (hf : s.fault = false) (hseq : seqDecode s)
      (hw : walkBits s.node s.root { cur := s.cur, notree := (s.openByte b).1.notree, syms := [] }
        (s.openByte b).2 = some w) :
      Effect (.decByte b) s
        { s.emitSyms w.syms with
          cur := w.cur, notree := w.notree, act := .decoding, nosent := (s.openByte b).1.nosent
          trunc := (s.openByte b).1.trunc, dempty := (s.openByte b).1.dempty }
  | decFin {s : State} (hf : s.fault = false) (hseq : seqDecode s) :
      Effect .decFin s
        { s with
          act := .idle, cur := s.root, nosent := s.closeStream.nosent, trunc := s.closeStream.trunc
          dempty := s.closeStream.dempty, notree := s.closeStream.notree }

/-- A command takes effect and gives one response. -/
def Answered (i : Instr) (s t : State) : Prop := ∃ u r, Effect i s u ∧ t = u.answer r

theorem Turned.answered {s t : State} (h : Turned s t) (i : Instr) : Answered i s t := by
  obtain ⟨e, -, -, -, rfl⟩ := h
  exact ⟨s, _, .quiet, rfl⟩

theorem answered_of_readOnly {i : Instr} {s t : State} (hi : i.readOnly = true) (h : exec i s = .next t) :
    Answered i s t := by
  obtain ⟨r, hr⟩ := exec_readOnly_cases i hi s
  cases hr.symm.trans h
  exact ⟨s, r, .quiet, rfl⟩

/-- A command that completes has one of these effects. -/
theorem answered_of_exec {i : Instr} {s t : State} (h : exec i s = .next t) : Answered i s t := by
  cases i with
  | nop | rdCsr _ | rdNode _ | rdCode _ _ | rdCnt _ => exact answered_of_readOnly rfl h
  | clear =>
    cases (respond_next_iff _ _ _).mp h
    exact ⟨_, _, .clear, rfl⟩
  | faSym x =>
    rcases execFaSym_cases x s t h with h | ⟨hf, hseq, hlt, rfl⟩
    · exact h.answered _
    · exact ⟨_, _, .faSym x hf hseq hlt, rfl⟩
  | faFin =>
    rcases execFaFin_cases s t h with h | ⟨hf, hseq, rfl⟩
    · exact h.answered _
    · exact ⟨_, _, .faFin hf hseq, rfl⟩
  | leafPush x v =>
    rcases execLeafPush_cases x v s t h with h | ⟨hf, hseq, hx, ho, hv, rfl⟩
    · exact h.answered _
    · exact ⟨_, _, .leafPush x v hf hseq hx ho hv, rfl⟩
  | build =>
    rcases execBuild_cases s t h with h | ⟨hf, hseq, hn, rfl⟩ | ⟨hf, hseq, h0, h1, node, hnode, rfl⟩
    · exact h.answered _
    · exact ⟨_, _, .buildNone hf hseq hn, rfl⟩
    · exact ⟨_, _, .build node hf hseq (by omega) hnode, rfl⟩
  | gen =>
    rcases execGen_cases s t h with h | ⟨hf, hseq, paths, hpaths, rfl⟩
    · exact h.answered _
    · exact ⟨_, _, .gen paths hf hseq hpaths, rfl⟩
  | encSym x =>
    rcases execEncSym_cases x s t h with h | ⟨hf, hseq, f, hcode, rfl⟩ | ⟨hf, hseq, c, hc, hfits, rfl⟩
    · exact h.answered _
    · exact ⟨_, _, .encFault x f hf hseq hcode, rfl⟩
    · exact ⟨_, _, .encSym x c hf hseq hc hfits, rfl⟩
  | encFin =>
    rcases execEncFin_cases s t h with h | ⟨hf, hseq, rfl⟩
    · exact h.answered _
    · exact ⟨_, _, .encFin hf hseq, rfl⟩
  | decByte b =>
    rcases execDecByte_cases b s t h with h | ⟨hf, hseq, w, hw, rfl⟩
    · exact h.answered _
    · rw [s.openByte_eq b hseq.2] at hw ⊢
      exact ⟨_, _, .decByte b w hf hseq hw, rfl⟩
  | decFin =>
    rcases execDecFin_cases s t h with h | ⟨hf, hseq, rfl⟩
    · exact h.answered _
    · rw [s.closeStream_eq]
      exact ⟨_, _, .decFin hf hseq, rfl⟩

end Sys2Proof.Machine

/-! ## Proofs: every step keeps the invariants -/

namespace Sys2Proof.Machine

open Sys2Proof

/-! ### The parts of `Inv` that several commands establish alike -/

theorem invActivity_of_idle {s : State} (hact : s.act = .idle) (hb : s.b = []) (hcur : s.cur = s.root) :
    InvActivity s :=
  ⟨fun h => by simp [hact] at h, fun _ => hb, fun h => by simp [hact] at h, fun _ => hcur⟩

/-- A walk position: `NIL` where there is no tree, an internal node otherwise (R41). -/
def CursorOk (node : List NodeEntry) (root cur : Option NodeIdx) : Prop :=
  (cur = none ↔ root = none) ∧ ∀ i ∈ cur, (node[i]?).map NodeEntry.isLeaf = some false

theorem invCursor_iff (s : State) : InvCursor s ↔ CursorOk s.node s.root s.cur := Iff.rfl

theorem cursorOk_none (node : List NodeEntry) : CursorOk node none none := ⟨Iff.rfl, by simp⟩

theorem invCursor_of_none {s : State} (hroot : s.root = none) (hcur : s.cur = none) : InvCursor s := by
  rw [invCursor_iff, hroot, hcur]
  exact cursorOk_none _

theorem cursorOk_inner {node : List NodeEntry} {i : NodeIdx} (r : NodeIdx) (h : innerOk node i = true) :
    CursorOk node (some r) (some i) := by
  obtain ⟨w, l, r, a, b, hi, -⟩ := (innerOk_iff _ _).mp h
  exact ⟨by simp, by simp [hi, NodeEntry.isLeaf]⟩

theorem invFault_of_no_fault {s : State} (hf : s.fault = false) (hcode : s.errcode = 0#8) (hinfo : s.errinfo = 0#16) :
    InvFault s :=
  ⟨fun _ => ⟨hcode, hinfo⟩, fun h => by simp [hf] at h⟩

theorem symField_errinfo (x : Sym) : (opcodeOf .ENC_SYM ++ symField x : BitVec 16).extractLsb' 8 8 = 0x40#8 := by
  show BitVec.extractLsb' 8 8 (opcodeOf .ENC_SYM ++ symField x : BitVec (8 + 8)) = _
  rw [BitVec.extractLsb'_append_eq_of_le (by decide)]
  rfl

section
variable {s : State} (h : Inv s)
include h

theorem inv_clearState : Inv s.clearState := by
  have := inv_resetWith s.bitbufMax h.buffer.1
  exact ⟨this.buffer, this.leafList, this.early, this.counts, this.tree, this.code, this.activity, this.cursor,
    this.faults⟩

theorem Inv.b_eq_nil (hact : s.act = .idle ∨ s.act = .decoding) : s.b = [] := by
  obtain ⟨-, hb, -, -⟩ := h.activity
  exact hb (by rcases hact with ha | ha <;> simp [ha])

theorem Inv.cur_eq_root (hact : s.act = .idle ∨ s.act = .encoding) : s.cur = s.root := by
  obtain ⟨-, -, -, hcur⟩ := h.activity
  exact hcur (by rcases hact with ha | ha <;> simp [ha])

/-- In a state with a tree the root is an internal node (R41). -/
theorem Inv.cursorOk_root (hp : s.phase = .tree ∨ s.phase = .codes) : CursorOk s.node s.root s.root := by
  rcases h.tree_cases hp with ⟨-, -, hroot⟩ | ⟨hn, htree, hroot⟩
  · rw [hroot]
    exact cursorOk_none _
  · rw [hroot]
    exact cursorOk_inner _ (htree.innerOk_root hn)

/-! ### The frequency front end and the tree builder -/

theorem inv_faSym (x : Sym) (hseq : seqFrequency s) (hlt : s.nsym.toNat < Config.max32) :
    Inv { s with cnt := setSym s.cnt x (getSym s.cnt x + 1#32), nsym := s.nsym + 1#32 } where
  buffer := h.buffer
  leafList := h.leafList
  early := h.early
  counts := by
    obtain ⟨hsum, hload, -⟩ := h.counts
    refine ⟨?_, fun _ => ⟨.inr hseq.2, (hload hseq.1).2⟩, fun hp => by cases hseq.1.symm.trans hp⟩
    have hle := getSym_le_sum s.cnt x
    have hset := sum_setSym s.cnt x (getSym s.cnt x + 1#32)
    have hone : (1#32).toNat = 1 := rfl
    simp only [Config.max32] at hlt
    rw [BitVec.toNat_add, Nat.mod_eq_of_lt (by omega)] at hset
    show (s.nsym + 1#32).toNat = ((setSym s.cnt x (getSym s.cnt x + 1#32)).toList.map BitVec.toNat).sum
    rw [BitVec.toNat_add, Nat.mod_eq_of_lt (by omega)]
    omega
  tree := h.tree
  code := h.code
  activity := h.activity
  cursor := h.cursor
  faults := h.faults

theorem inv_faFin (hf : s.fault = false) (hseq : seqFrequency s) :
    Inv { s with
      node := (leafList (countedLeaves s.cnt)).1.map fun p => NodeEntry.leaf p.1 p.2
      nleaf := (leafList (countedLeaves s.cnt)).1.length
      total := s.nsym
      phantom := (leafList (countedLeaves s.cnt)).2 || s.phantom
      phase := .leaves } := by
  obtain ⟨-, hroot, hcur, hcode, hact⟩ := h.early (.inl hseq.1)
  obtain ⟨hsum, -⟩ := h.counts
  obtain ⟨herr, hinfo⟩ := h.faults.1 hf
  constructor
  case buffer => exact h.buffer
  case leafList => exact invLeaves_of_leavesOk _ _ (leafList_ok (hsum ▸ countedLeaves_ok s.cnt)) rfl rfl
  case early => exact fun _ => ⟨by simp [State.nnode], hroot, hcur, hcode, hact⟩
  case counts => exact ⟨hsum, nofun, fun _ => ⟨leafList_length_ne_one _, rfl⟩⟩
  case tree => exact fun hp => hp.elim nofun nofun
  case code => exact ⟨nofun, nofun⟩
  case activity => exact invActivity_of_idle hact (h.b_eq_nil (.inl hact)) (hcur.trans hroot.symm)
  case cursor => exact invCursor_of_none hroot hcur
  case faults => exact invFault_of_no_fault hf herr hinfo

theorem inv_leafPush {x : Sym} {v : Wgt} (hseq : seqLeafPush s) (hx : s.leavesHold x = false)
    (ho : s.orderOk v = some true) (hv : s.total.toNat + v.toNat ≤ Config.max32) :
    Inv { s with node := s.node.take s.nleaf ++ [.leaf x v], total := s.total + v, nleaf := s.nleaf + 1 } := by
  obtain ⟨-, hroot, hcur, hcode, hact⟩ := h.early (.inl hseq.1)
  obtain ⟨hsum, hload, -⟩ := h.counts
  have hlate : ¬(s.phase = .tree ∨ s.phase = .codes) := by simp [hseq.1]
  constructor
  case buffer => exact h.buffer
  case leafList => exact h.invLeaves_push hx ho hv
  case early =>
    refine fun _ => ⟨?_, hroot, hcur, hcode, hact⟩
    show (s.leaves ++ [_]).length = _
    simp [h.length_leaves]
  case counts => exact ⟨hsum, fun hp => ⟨.inl hseq.2, (hload hp).2⟩, fun hp => by cases hseq.1.symm.trans hp⟩
  case tree => exact fun hp => absurd hp hlate
  case code => exact ⟨fun hp => absurd (.inl hp) hlate, fun hp => absurd (.inr hp) hlate⟩
  case activity => exact h.activity
  case cursor => exact invCursor_of_none hroot hcur
  case faults => exact h.faults

theorem inv_buildNone (hf : s.fault = false) (hseq : seqBuild s) (hn : s.nleaf = 0) :
    Inv { s with root := none, cur := none, node := [], phase := .tree } := by
  have hearly := seqBuild_early hseq
  obtain ⟨-, -, -, hcode, hact⟩ := h.early hearly
  obtain ⟨herr, hinfo⟩ := h.faults.1 hf
  have hsum := h.sum_leaves
  constructor
  case buffer => exact h.buffer
  case leafList => exact invLeaves_of_leavesOk _ [] ⟨.nil, .nil, by simpa [State.leaves, hn] using hsum⟩ rfl hn
  case early => exact fun hp => hp.elim nofun nofun
  case counts => exact ⟨h.counts.1, nofun, nofun⟩
  case tree => exact fun _ => ⟨by simp [hn], fun _ => ⟨rfl, rfl⟩, fun h2 => by simp [hn] at h2⟩
  case code => exact ⟨fun _ => hcode, nofun⟩
  case activity => exact invActivity_of_idle hact (h.b_eq_nil (.inl hact)) rfl
  case cursor => exact invCursor_of_none rfl rfl
  case faults => exact invFault_of_no_fault hf herr hinfo

theorem inv_build (hf : s.fault = false) (hseq : seqBuild s) (hn : 2 ≤ s.nleaf) {inner : List NodeEntry}
    (hm : Merged s.node inner) :
    Inv { s with
      node := s.node ++ inner, root := some (2 * s.nleaf - 2), cur := some (2 * s.nleaf - 2), phase := .tree } := by
  have hearly := seqBuild_early hseq
  obtain ⟨hnnode, -, -, hcode, hact⟩ := h.early hearly
  obtain ⟨herr, hinfo⟩ := h.faults.1 hf
  have hlen : s.node.length = s.nleaf := hnnode
  have htree := hm.tree
  rw [hlen] at htree
  have hleaves : (s.node ++ inner).take s.nleaf = s.node.take s.nleaf := by
    rw [List.take_append_of_le_length hlen.ge]
  constructor
  case buffer => exact h.buffer
  case leafList =>
    have := h.leafList
    unfold InvLeaves State.leaves at this ⊢
    simp only [hleaves]
    exact ⟨by simp [State.nnode, hlen], this.2⟩
  case early => exact fun hp => hp.elim nofun nofun
  case counts => exact ⟨h.counts.1, nofun, nofun⟩
  case tree =>
    refine fun _ => ⟨by simp only; omega, fun h0 => by simp only at h0; omega, fun _ => ⟨htree, ?_⟩⟩
    rw [State.nnode, htree.length_eq, Nat.sub_sub]
  case code => exact ⟨fun _ => hcode, nofun⟩
  case activity => exact invActivity_of_idle hact (h.b_eq_nil (.inl hact)) rfl
  case cursor => exact cursorOk_inner _ (htree.innerOk_root hn)
  case faults => exact invFault_of_no_fault hf herr hinfo

/-! ### The code generator, the encoder and the decoder -/

theorem inv_gen (hf : s.fault = false) (hseq : seqGen s) {paths : List (Sym × Bits)}
    (hpaths : treePaths s.node s.root = some paths) : Inv { s with code := codeTable paths, phase := .codes } := by
  obtain ⟨henc, hb, hdec, hcur⟩ := h.activity
  obtain ⟨herr, hinfo⟩ := h.faults.1 hf
  constructor
  case buffer => exact h.buffer
  case leafList => exact h.leafList
  case early => exact fun hp => hp.elim nofun nofun
  case counts => exact ⟨h.counts.1, nofun, nofun⟩
  case tree => exact fun _ => h.tree (.inl hseq)
  case code => exact ⟨nofun, fun _ => by rw [hpaths, Option.map_some]⟩
  case activity => exact ⟨fun ha => ⟨rfl, (henc ha).2⟩, hb, fun _ => .inr rfl, hcur⟩
  case cursor => exact h.cursor
  case faults => exact invFault_of_no_fault hf herr hinfo

theorem inv_faulted (x : Sym) {f : RspCode} (hseq : seqEncode s) (hcode : f = .fltNocode ∨ f = .fltBufovf) :
    Inv (s.faulted f (opcodeOf .ENC_SYM) (symField x)) where
  buffer := h.buffer
  leafList := h.leafList
  early := h.early
  counts := h.counts
  tree := h.tree
  code := h.code
  activity := h.activity
  cursor := h.cursor
  faults := by
    refine ⟨nofun, fun _ => ⟨?_, hseq.1, ?_, symField_errinfo x⟩⟩
    · rcases hcode with rfl | rfl
      · exact .inl rfl
      · exact .inr rfl
    · rcases hseq.2 with ha | ha <;> simp [ha]

/-- What the encoder may write: `B`, `ACT` and the emitted bytes, `B` being empty exactly where it is idle. -/
theorem inv_encode {b : Bits} {act : Act} (hf : s.fault = false) (hseq : seqEncode s)
    (hlen : b.length ≤ s.bitbufMax.toNat) (hb : act = .encoding ∧ b ≠ [] ∨ act = .idle ∧ b = [])
    (outBytes : List Byte) : Inv { s with b := b, act := act, outBytes := outBytes } := by
  obtain ⟨hp, hact⟩ := hseq
  obtain ⟨herr, hinfo⟩ := h.faults.1 hf
  constructor
  case buffer => exact ⟨h.buffer.1, hlen⟩
  case leafList => exact h.leafList
  case early => exact fun he => by simp [hp] at he
  case counts => exact h.counts
  case tree => exact h.tree
  case code => exact h.code
  case activity =>
    rcases hb with ⟨rfl, hb⟩ | ⟨rfl, hb⟩
    · exact ⟨fun _ => ⟨hp, hb⟩, fun ha => absurd rfl ha, nofun, fun _ => h.cur_eq_root hact⟩
    · exact invActivity_of_idle rfl hb (h.cur_eq_root hact)
  case cursor => exact h.cursor
  case faults => exact invFault_of_no_fault hf herr hinfo

theorem inv_encSym {x : Sym} {c : Codeword} (hf : s.fault = false) (hseq : seqEncode s)
    (hc : getSym s.code x = some c) (hfits : s.bitlen + c.len.toNat ≤ s.bitbufMax.toNat) :
    Inv { s with b := s.b ++ c.bits, act := .encoding } :=
  inv_encode h hf hseq (by simpa [State.bitlen] using hfits)
    (.inl ⟨rfl, by simp [h.codeword_bits_ne_nil hseq.1 hc]⟩) s.outBytes

/-- What the decoder may write: `CUR`, `ACT`, the decode flags and the emitted symbols, `CUR` being the root where it is
idle. -/
theorem inv_decode {cur : Option NodeIdx} {act : Act} (hf : s.fault = false) (hseq : seqDecode s)
    (hcur : CursorOk s.node s.root cur) (hact : act = .decoding ∨ act = .idle ∧ cur = s.root)
    (nosent trunc dempty notree : Bool) (outSyms : List Sym) :
    Inv { s with
      cur := cur, act := act, nosent := nosent, trunc := trunc, dempty := dempty, notree := notree
      outSyms := outSyms } := by
  obtain ⟨hp, hact'⟩ := hseq
  obtain ⟨herr, hinfo⟩ := h.faults.1 hf
  have hb := h.b_eq_nil hact'
  constructor
  case buffer => exact h.buffer
  case leafList => exact h.leafList
  case early => exact fun he => by rcases hp with hp | hp <;> simp [hp] at he
  case counts => exact h.counts
  case tree => exact h.tree
  case code => exact h.code
  case activity =>
    rcases hact with rfl | ⟨rfl, hroot⟩
    · exact ⟨nofun, fun _ => hb, fun _ => hp, fun ha => absurd rfl ha⟩
    · exact invActivity_of_idle rfl hb hroot
  case cursor => exact hcur
  case faults => exact invFault_of_no_fault hf herr hinfo

end

/-! ### The walk of the decoder -/

theorem walkBit_cursorOk {node : List NodeEntry} {root : Option NodeIdx} {w w' : Walk} {t : Bool}
    (hroot : CursorOk node root root) (hw : CursorOk node root w.cur) (h : walkBit node root w t = some w') :
    CursorOk node root w'.cur := by
  unfold walkBit at h
  split at h
  · cases h
    exact hw
  · split at h
    · cases h
    · split at h
      · cases h
      · cases h
        exact hroot
      · cases h
        exact ⟨by simp, by simp [NodeEntry.isLeaf, *]⟩

theorem walkBits_cursorOk {node : List NodeEntry} {root : Option NodeIdx} (hroot : CursorOk node root root)
    (S : Bits) {w w' : Walk} (hw : CursorOk node root w.cur) (h : walkBits node root w S = some w') :
    CursorOk node root w'.cur := by
  induction S generalizing w with
  | nil =>
    cases h
    exact hw
  | cons t ts ih =>
    rw [walkBits] at h
    split at h
    · cases h
    · exact ih (walkBit_cursorOk hroot hw ‹_›) h

/-! ### The step -/

theorem Effect.inv {i : Instr} {s u : State} (heffect : Effect i s u) (h : Inv s) : Inv u := by
  cases heffect with
  | quiet => exact h
  | clear => exact inv_clearState h
  | faSym x hf hseq hlt => exact inv_faSym h x hseq hlt
  | faFin hf hseq => exact inv_faFin h hf hseq
  | leafPush x v hf hseq hx ho hv => exact inv_leafPush h hseq hx ho hv
  | buildNone hf hseq hn => exact inv_buildNone h hf hseq hn
  | build node hf hseq hn hnode =>
    obtain ⟨inner, hm, hbuild, hlast⟩ := h.buildNodes_eq hseq hn
    cases hbuild.symm.trans hnode
    rw [hlast]
    exact inv_build h hf hseq hn hm
  | gen paths hf hseq hpaths => exact inv_gen h hf hseq hpaths
  | encFault x f hf hseq hcode => exact inv_faulted h x hseq hcode
  | encSym x c hf hseq hc hfits => exact inv_encSym h hf hseq hc hfits
  | encFin hf hseq => exact inv_encode h hf hseq (Nat.zero_le _) (.inr ⟨rfl, rfl⟩) _
  | decByte b w hf hseq hw =>
    have hcur := walkBits_cursorOk (w := ⟨s.cur, _, []⟩) (h.cursorOk_root hseq.1) _ h.cursor hw
    exact inv_decode h hf hseq hcur (.inl rfl) _ _ _ _ _
  | decFin hf hseq => exact inv_decode h hf hseq (h.cursorOk_root hseq.1) (.inr ⟨rfl, rfl⟩) _ _ _ _ s.outSyms

theorem inv_of_exec {i : Instr} {s t : State} (h : Inv s) (hexec : exec i s = .next t) : Inv t := by
  obtain ⟨u, r, heffect, rfl⟩ := answered_of_exec hexec
  exact (inv_answer u r).mpr (heffect.inv h)

theorem inv_of_runWord {w : Word64} {s t : State} (h : Inv s) (hrun : runWord w s = .next t) : Inv t := by
  unfold runWord at hrun
  split at hrun
  · exact inv_of_exec h hrun
  · rw [(refuse_next_iff _ _ _).mp hrun, inv_answer]
    exact h

/-- Settles O9: an idle step changes nothing, a word that does not decode only gives a response, and a command keeps the
invariants by its effect. -/
theorem stepKeepsInvariants : Obligations.StepKeepsInvariants := by
  intro s t h hstep
  rcases step_cases s with ⟨-, hidle⟩ | ⟨w, ws, -, hrun⟩
  · cases hidle.symm.trans hstep
    exact h
  · exact inv_of_runWord ((inv_cmdIn s ws).mpr h) (hrun.symm.trans hstep)

end Sys2Proof.Machine

/-! ## Proofs: what commands leave unchanged -/

namespace Sys2Proof.Machine

open Sys2Proof

/-! ### The reset state (R59) -/

/-- Settles O11: every value of R59 is read off the reset state, and `CLEAR` writes that state but for the streams and the
ports. -/
theorem resetAndClearState : Obligations.ResetAndClearState := by
  refine ⟨fun m => ?_, fun s => ⟨_, rfl, rfl, rfl, rfl⟩⟩
  refine ⟨rfl, ?_, rfl, rfl, rfl, rfl, rfl, rfl, rfl, rfl, rfl, rfl, rfl, rfl, rfl, rfl, rfl, rfl, rfl, rfl, rfl, rfl,
    fun i => rfl, fun x => ?_, fun x => ?_, rfl, rfl, rfl⟩
  · exact congrArg some (by decide : (State.resetWith 0#32).statusWord = 0#32)
  · exact getSym_replicate none x
  · exact getSym_replicate 0#32 x

/-! ### Phase and output streams -/

theorem Effect.phase_le {i : Instr} {s u : State} (h : Effect i s u) (hi : i ≠ .clear) :
    s.phase.value.toNat ≤ u.phase.value.toNat := by
  cases h with
  | clear => exact absurd rfl hi
  | faFin hf hseq => simp [hseq.1, Phase.value]
  | buildNone hf hseq => rcases seqBuild_early hseq with hp | hp <;> simp [hp, Phase.value]
  | build node hf hseq => rcases seqBuild_early hseq with hp | hp <;> simp [hp, Phase.value]
  | gen paths hf hseq => simp [show s.phase = .tree from hseq, Phase.value]
  | quiet | faSym | leafPush | encFault | encSym | encFin | decByte | decFin => exact le_rfl

/-- Settles O52: only `FA_FIN`, `BUILD` and `GEN` write `PHASE`, and their conditions (R210) have it lower before. -/
theorem phaseOnlyIncreases : Obligations.PhaseOnlyIncreases := by
  intro i s t hi h
  obtain ⟨u, r, heffect, rfl⟩ := answered_of_exec h
  exact heffect.phase_le hi

/-- Settles O53: `ENC_FIN` and `DEC_BYTE` append what they emit, every other command leaves both streams. -/
theorem outputsOnlyGrow : Obligations.OutputsOnlyGrow := by
  intro i s t h
  obtain ⟨u, r, heffect, rfl⟩ := answered_of_exec h
  cases heffect with
  | encFin => exact ⟨List.prefix_append _ _, List.prefix_rfl, fun hi => absurd rfl hi, fun _ => rfl⟩
  | decByte b w => exact ⟨List.prefix_rfl, List.prefix_append _ _, fun _ => rfl, fun hi => absurd rfl hi⟩
  | quiet | clear | faSym | faFin | leafPush | buildNone | build | gen | encFault | encSym | decFin =>
    exact ⟨List.prefix_rfl, List.prefix_rfl, fun _ => rfl, fun _ => rfl⟩

/-! ### The output streams are never read -/

/-- A result with more already emitted on the output streams. -/
def behindResult (p : List Byte) (q : List Sym) : Result → Result
  | .next t => .next (t.behind p q)
  | .fault r => .fault r
  | .refused r => .refused r

section
variable (p : List Byte) (q : List Sym)

/-- The checks of a working command do not read the streams (R206). -/
theorem working_behind (c : Prop) [Decidable c] (s : State) (body body' : Result)
    (hbody : body' = behindResult p q body) :
    working c (s.behind p q) body' = behindResult p q (working c s body) := by
  rw [hbody, working, working, apply_ite (behindResult p q), apply_ite (behindResult p q)]
  rfl

theorem State.emitBytes_behind (s : State) (bs : List Byte) :
    (s.behind p q).emitBytes bs = (s.emitBytes bs).behind p q := by
  simp [State.emitBytes, State.behind]

theorem State.emitSyms_behind (s : State) (ss : List Sym) :
    (s.behind p q).emitSyms ss = (s.emitSyms ss).behind p q := by
  simp [State.emitSyms, State.behind]

theorem State.openByte_behind (s : State) (b : Byte) :
    (s.behind p q).openByte b = ((s.openByte b).1.behind p q, (s.openByte b).2) := by
  show (if s.act = .idle then _ else _) = _
  unfold State.openByte
  split <;> rfl

theorem State.closeStream_behind (s : State) : (s.behind p q).closeStream = s.closeStream.behind p q := by
  unfold State.closeStream
  rw [show (s.behind p q).act = s.act from rfl]
  split <;> rfl

variable (s : State)

theorem execFaSym_behind (x : Sym) : execFaSym x (s.behind p q) = behindResult p q (execFaSym x s) := by
  refine working_behind p q (seqFrequency s) s _ _ ?_
  rw [apply_ite (behindResult p q)]
  rfl

theorem execLeafPush_behind (x : Sym) (v : Wgt) :
    execLeafPush x v (s.behind p q) = behindResult p q (execLeafPush x v s) := by
  refine working_behind p q (seqLeafPush s) s _ _ ?_
  rw [apply_ite (behindResult p q)]
  refine if_congr Iff.rfl rfl ?_
  rw [show (s.behind p q).orderOk v = s.orderOk v from rfl]
  split
  · rfl
  · rfl
  · rw [apply_ite (behindResult p q)]
    rfl

theorem execBuild_behind : execBuild (s.behind p q) = behindResult p q (execBuild s) := by
  refine working_behind p q (seqBuild s) s _ _ ?_
  rw [apply_ite (behindResult p q), apply_ite (behindResult p q)]
  refine if_congr Iff.rfl rfl (if_congr Iff.rfl rfl ?_)
  rw [show buildNodes (s.behind p q).node (s.behind p q).nleaf = buildNodes s.node s.nleaf from rfl]
  cases buildNodes s.node s.nleaf <;> rfl

theorem execGen_behind : execGen (s.behind p q) = behindResult p q (execGen s) := by
  refine working_behind p q (seqGen s) s _ _ ?_
  rw [show treePaths (s.behind p q).node (s.behind p q).root = treePaths s.node s.root from rfl]
  cases treePaths s.node s.root <;> rfl

theorem execEncSym_behind (x : Sym) : execEncSym x (s.behind p q) = behindResult p q (execEncSym x s) := by
  refine working_behind p q (seqEncode s) s _ _ ?_
  rw [show getSym (s.behind p q).code x = getSym s.code x from rfl]
  cases getSym s.code x with
  | none => rfl
  | some c =>
    dsimp only
    rw [apply_ite (behindResult p q)]
    rfl

theorem execEncFin_behind : execEncFin (s.behind p q) = behindResult p q (execEncFin s) := by
  refine working_behind p q (seqEncode s) s _ _ ?_
  dsimp only
  rw [State.emitBytes_behind]
  rfl

theorem execDecByte_behind (b : Byte) : execDecByte b (s.behind p q) = behindResult p q (execDecByte b s) := by
  refine working_behind p q (seqDecode s) s _ _ ?_
  rw [State.openByte_behind]
  obtain ⟨s', bits⟩ := s.openByte b
  dsimp only
  rw [show walkBits (s'.behind p q).node (s'.behind p q).root
      ⟨(s'.behind p q).cur, (s'.behind p q).notree, []⟩ bits =
    walkBits s'.node s'.root ⟨s'.cur, s'.notree, []⟩ bits from rfl]
  cases walkBits s'.node s'.root ⟨s'.cur, s'.notree, []⟩ bits with
  | none => rfl
  | some w =>
    dsimp only
    rw [State.emitSyms_behind]
    rfl

theorem execDecFin_behind : execDecFin (s.behind p q) = behindResult p q (execDecFin s) := by
  refine working_behind p q (seqDecode s) s _ _ ?_
  rw [State.closeStream_behind]
  rfl

theorem execRdCsr_behind (n : Byte) : execRdCsr n (s.behind p q) = behindResult p q (execRdCsr n s) := by
  unfold execRdCsr
  rw [show (s.behind p q).csr n = s.csr n from rfl]
  cases s.csr n <;> rfl

theorem execRdNode_behind (k : Byte) : execRdNode k (s.behind p q) = behindResult p q (execRdNode k s) := by
  unfold execRdNode
  rw [show (s.behind p q).node = s.node from rfl]
  cases s.node[k.toNat]? <;> rfl

theorem exec_behind (i : Instr) : exec i (s.behind p q) = behindResult p q (exec i s) := by
  cases i with
  | faSym x => exact execFaSym_behind p q s x
  | faFin => exact working_behind p q (seqFrequency s) s _ _ rfl
  | leafPush x v => exact execLeafPush_behind p q s x v
  | build => exact execBuild_behind p q s
  | gen => exact execGen_behind p q s
  | encSym x => exact execEncSym_behind p q s x
  | encFin => exact execEncFin_behind p q s
  | decByte b => exact execDecByte_behind p q s b
  | decFin => exact execDecFin_behind p q s
  | rdCsr n => exact execRdCsr_behind p q s n
  | rdNode k => exact execRdNode_behind p q s k
  | nop | clear | rdCode _ _ | rdCnt _ => rfl

end

/-- Settles O54: a command commutes with having more on the two streams. -/
theorem outputsAreNeverRead : Obligations.OutputsAreNeverRead := by
  intro i s p q
  rw [exec_behind p q s i]
  cases exec i s <;> rfl

/-! ### What is read-only once it is built -/

section
variable {i : Instr} {s u : State} (h : Effect i s u) (hi : i ≠ .clear)
include h hi

/-- No entry of `NODE` is rewritten (R47). -/
theorem Effect.node_prefix (hinv : Inv s) : s.node <+: u.node := by
  cases h with
  | clear => exact absurd rfl hi
  | faFin hf hseq =>
    rw [← leaves_eq_node s hinv (.inl hseq.1), State.leaves, hseq.2]
    exact List.nil_prefix
  | leafPush x v hf hseq =>
    show s.node <+: s.leaves ++ [_]
    rw [leaves_eq_node s hinv (.inl hseq.1)]
    exact List.prefix_append _ _
  | buildNone hf hseq hn =>
    rw [← leaves_eq_node s hinv (seqBuild_early hseq), State.leaves, hn]
    exact List.nil_prefix
  | build node hf hseq hn hnode =>
    obtain ⟨inner, -, hbuild, -⟩ := hinv.buildNodes_eq hseq hn
    cases hbuild.symm.trans hnode
    exact List.prefix_append _ _
  | quiet | faSym | gen | encFault | encSym | encFin | decByte | decFin => exact List.prefix_rfl

/-- Past `LOAD` the leaf count, `TOTAL` and the counters stay (R38, R42, R52). -/
theorem Effect.counts_eq (hp : s.phase ≠ .load) :
    u.nleaf = s.nleaf ∧ u.total = s.total ∧ u.cnt = s.cnt ∧ u.nsym = s.nsym := by
  cases h with
  | clear => exact absurd rfl hi
  | faSym x hf hseq => exact absurd hseq.1 hp
  | faFin hf hseq => exact absurd hseq.1 hp
  | leafPush x v hf hseq => exact absurd hseq.1 hp
  | quiet | buildNone | build | gen | encFault | encSym | encFin | decByte | decFin => exact ⟨rfl, rfl, rfl, rfl⟩

/-- Past `LOAD` the leaf list stays: its length does, and its entries are not rewritten (R38, R47). -/
theorem Effect.leaves_eq (hinv : Inv s) (hp : s.phase ≠ .load) : u.leaves = s.leaves := by
  obtain ⟨more, hmore⟩ := h.node_prefix hi hinv
  obtain ⟨hnleaf, -⟩ := h.counts_eq hi hp
  rw [State.leaves, hnleaf, ← hmore, List.take_append_of_le_length hinv.nleaf_le_length, State.leaves]

/-- Once `BUILD` has run the tree stays (R47, R55). -/
theorem Effect.tree_eq (hp : s.phase = .tree ∨ s.phase = .codes) : u.node = s.node ∧ u.root = s.root := by
  have hlate : ¬(s.phase = .load ∨ s.phase = .leaves) := by rcases hp with hp | hp <;> simp [hp]
  cases h with
  | clear => exact absurd rfl hi
  | faFin hf hseq => exact absurd (.inl hseq.1) hlate
  | leafPush x v hf hseq => exact absurd (.inl hseq.1) hlate
  | buildNone hf hseq => exact absurd (seqBuild_early hseq) hlate
  | build node hf hseq => exact absurd (seqBuild_early hseq) hlate
  | quiet | faSym | gen | encFault | encSym | encFin | decByte | decFin => exact ⟨rfl, rfl⟩

/-- Once `GEN` has run the code table stays (R51). -/
theorem Effect.code_eq (hp : s.phase = .codes) : u.code = s.code := by
  cases h with
  | clear => exact absurd rfl hi
  | gen paths hf hseq => cases hp.symm.trans hseq
  | quiet | faSym | faFin | leafPush | buildNone | build | encFault | encSym | encFin | decByte | decFin => rfl

end

/-- Settles O60, part by part from the effects. -/
theorem builtOnceReadOnlyAfterward : Obligations.BuiltOnceReadOnlyAfterward := by
  intro i s t hinv hi hexec
  obtain ⟨u, r, h, rfl⟩ := answered_of_exec hexec
  refine ⟨h.node_prefix hi hinv, fun hp => ?_, h.tree_eq hi, h.code_eq hi⟩
  obtain ⟨hnleaf, htotal, hcnt, hnsym⟩ := h.counts_eq hi hp
  exact ⟨hnleaf, htotal, hcnt, hnsym, h.leaves_eq hi hinv hp⟩

/-- Settles O56: the fields each command writes stand in its effect, and no entry of `NODE` is rewritten. -/
theorem treeBuilderFrame : Obligations.TreeBuilderFrame := by
  refine ⟨fun x v s t hinv hexec => ?_, fun s t hinv hexec => ?_⟩
  · obtain ⟨u, r, h, rfl⟩ := answered_of_exec hexec
    exact ⟨by cases h <;> rfl, h.node_prefix nofun hinv⟩
  · obtain ⟨u, r, h, rfl⟩ := answered_of_exec hexec
    exact ⟨by cases h <;> rfl, h.node_prefix nofun hinv⟩

end Sys2Proof.Machine

/-! ## Proofs: every command completes with one response (spec/20_memory.md) -/

namespace Sys2Proof.Machine

open Sys2Proof

/-! ### `NOP` and the reads (R79) -/

/-- The response of `NOP` and of a read does not depend on the responses already given. -/
theorem exec_readOnly_rspOut (i : Instr) (hi : i.readOnly = true) (s : State) :
    ∃ r, ∀ p, exec i { s with rspOut := p } = .next (State.answer { s with rspOut := p } r) := by
  cases i with
  | nop => exact ⟨_, fun p => rfl⟩
  | rdCode x k => exact ⟨rspWord .ok (codeData (getSym s.code x) k), fun p => rfl⟩
  | rdCnt x => exact ⟨rspWord .ok ((getSym s.cnt x).setWidth 56), fun p => rfl⟩
  | rdCsr n =>
    have hcsr (p) : State.csr { s with rspOut := p } n = s.csr n := rfl
    simp only [exec, execRdCsr, hcsr]
    cases s.csr n <;> exact ⟨_, fun p => rfl⟩
  | rdNode k =>
    simp only [exec, execRdNode]
    cases s.node[k.toNat]? <;> exact ⟨_, fun p => rfl⟩
  | clear | faSym _ | faFin | leafPush _ _ | build | gen | encSym _ | encFin | decByte _ | decFin => cases hi

/-- Settles O46: the two runs differ in the responses already given, and these are not read. -/
theorem readsDisturbNothing : Obligations.ReadsDisturbNothing := by
  intro i s hi
  obtain ⟨r, hr⟩ := exec_readOnly_rspOut i hi s
  exact ⟨r, hr s.rspOut, hr (s.answer r).rspOut⟩

/-! ### The walk of the decoder meets only entries that hold a value -/

/-- Once `BUILD` has run, every internal node meets R48, whether there is a tree or none. -/
theorem Inv.innersOk_of_built {s : State} (h : Inv s) (hp : s.phase = .tree ∨ s.phase = .codes) :
    InnersOk s.node s.nleaf := by
  rcases h.tree_cases hp with ⟨-, hnode, -⟩ | ⟨-, htree, -⟩
  · intro i w l r hi
    simp [hnode] at hi
  · exact h.innersOk htree

/-- An internal node has a left and a right child, and both hold a value (R46, R48). -/
theorem InnersOk.exists_child {node : List NodeEntry} {n : Nat} (h : InnersOk node n) {i : NodeIdx}
    (hi : (node[i]?).map NodeEntry.isLeaf = some false) (t : Bool) :
    ∃ c e, childOf node (some i) t = some c ∧ node[c]? = some e := by
  obtain ⟨e, he, hinner⟩ := Option.map_eq_some_iff.mp hi
  cases e with
  | leaf x w => cases hinner
  | inner w l r =>
    obtain ⟨w', l', r', a, b, hi', -, -, ha, hb, -⟩ := (innerOk_iff node i).mp (h i w l r he).2
    cases t with
    | false => exact ⟨l', a, by simp [childOf, hi', NodeEntry.left], ha⟩
    | true => exact ⟨r', b, by simp [childOf, hi', NodeEntry.right], hb⟩

section
variable {node : List NodeEntry} {n : Nat} {root : Option NodeIdx} (h : InnersOk node n)
include h

theorem exists_walkBit {w : Walk} (hw : CursorOk node root w.cur) (t : Bool) :
    ∃ w', walkBit node root w t = some w' := by
  cases root with
  | none => exact ⟨_, walkBit_no_tree node w t⟩
  | some r =>
    obtain ⟨hnil, hinner⟩ := hw
    cases hcur : w.cur with
    | none => cases hnil.mp hcur
    | some i =>
      obtain ⟨c, e, hc, he⟩ := h.exists_child (hinner i hcur) t
      simp only [walkBit, hcur, hc, he]
      cases e <;> exact ⟨_, rfl⟩

/-- From a walk position the decoder can walk every sequence of payload bits (R71, R170). -/
theorem exists_walkBits (hroot : CursorOk node root root) (S : Bits) {w : Walk} (hw : CursorOk node root w.cur) :
    ∃ w', walkBits node root w S = some w' := by
  induction S generalizing w with
  | nil => exact ⟨w, rfl⟩
  | cons t ts ih =>
    obtain ⟨w', hw'⟩ := exists_walkBit h hw t
    simp only [walkBits, hw']
    exact ih (walkBit_cursorOk hroot hw hw')

end

/-! ### No command stops -/

/-- The result is a next state, not a stop of the model. -/
def Completes (r : Result) : Prop := ∃ t, r = .next t

theorem completes_respond (d : Data) (s : State) : Completes (respond d s) := ⟨_, respond_eq d s⟩

theorem completes_refuse (e : RspCode) (s : State) : Completes (refuse e s) := ⟨_, refuse_eq e s⟩

theorem completes_raise (f : RspCode) (op a : Byte) (s : State) : Completes (raise f op a s) :=
  ⟨_, raise_eq f op a s⟩

/-- A working command that is turned away completes, so only its body is left to consider (R206). -/
theorem completes_working {c : Prop} [Decidable c] {s : State} {body : Result}
    (h : s.fault = false → c → Completes body) : Completes (working c s body) := by
  unfold working
  split
  · exact completes_refuse _ _
  · split
    · exact h (Bool.eq_false_iff.mpr ‹_›) ‹_›
    · exact completes_refuse _ _

theorem completes_exec_of_readOnly {i : Instr} (hi : i.readOnly = true) (s : State) : Completes (exec i s) := by
  obtain ⟨r, hr⟩ := exec_readOnly_cases i hi s
  exact ⟨_, hr⟩

theorem completes_execFaSym (x : Sym) (s : State) : Completes (execFaSym x s) := by
  refine completes_working fun _ _ => ?_
  split
  · exact completes_respond _ _
  · exact completes_refuse _ _

theorem completes_execEncSym (x : Sym) (s : State) : Completes (execEncSym x s) := by
  refine completes_working fun _ _ => ?_
  split
  · exact completes_raise _ _ _ _
  · split
    · exact completes_raise _ _ _ _
    · exact completes_respond _ _

section
variable {s : State} (h : Inv s)
include h

/-- The order check of `LEAF_PUSH` finds the last leaf, `NLEAF` being at most `NNODE` (R49, R121). -/
theorem Inv.orderOk_ne_none (v : Wgt) : s.orderOk v ≠ none := by
  have hle := h.nleaf_le_length
  unfold State.orderOk
  split
  · simp
  · simp only [ne_eq, Option.map_eq_none_iff, List.getElem?_eq_none_iff]
    omega

theorem Inv.completes_execLeafPush (x : Sym) (v : Wgt) : Completes (execLeafPush x v s) := by
  refine completes_working fun _ _ => ?_
  split
  · exact completes_refuse _ _
  · split
    · exact absurd ‹_› (h.orderOk_ne_none v)
    · exact completes_refuse _ _
    · split
      · exact completes_respond _ _
      · exact completes_refuse _ _

theorem Inv.completes_execBuild : Completes (execBuild s) := by
  refine completes_working fun _ hseq => ?_
  split
  · exact completes_refuse _ _
  · split
    · exact completes_respond _ _
    · obtain ⟨inner, -, hbuild, -⟩ := h.buildNodes_eq hseq (by omega)
      rw [hbuild]
      exact completes_respond _ _

theorem Inv.completes_execGen : Completes (execGen s) := by
  refine completes_working fun _ hseq => ?_
  obtain ⟨paths, hpaths, -⟩ := h.exists_treePaths (.inl hseq)
  rw [hpaths]
  exact completes_respond _ _

theorem Inv.completes_execDecByte (b : Byte) : Completes (execDecByte b s) := by
  refine completes_working fun _ hseq => ?_
  obtain ⟨w, hw⟩ : ∃ w, walkBits (s.openByte b).1.node (s.openByte b).1.root
      { cur := (s.openByte b).1.cur, notree := (s.openByte b).1.notree, syms := [] } (s.openByte b).2 = some w := by
    rw [s.openByte_eq b hseq.2]
    exact exists_walkBits (h.innersOk_of_built hseq.1) (h.cursorOk_root hseq.1) _ h.cursor
  dsimp only
  rw [hw]
  exact completes_respond _ _

/-- In a state that meets the invariants no command stops (R81, R243). -/
theorem Inv.completes_exec (i : Instr) : Completes (exec i s) := by
  cases i with
  | clear => exact completes_respond _ _
  | faSym x => exact completes_execFaSym x s
  | faFin => exact completes_working fun _ _ => completes_respond _ _
  | leafPush x v => exact h.completes_execLeafPush x v
  | build => exact h.completes_execBuild
  | gen => exact h.completes_execGen
  | encSym x => exact completes_execEncSym x s
  | encFin => exact completes_working fun _ _ => completes_respond _ _
  | decByte b => exact h.completes_execDecByte b
  | decFin => exact completes_working fun _ _ => completes_respond _ _
  | nop | rdCsr _ | rdNode _ | rdCode _ _ | rdCnt _ => exact completes_exec_of_readOnly rfl s

end

/-! ### One response per word (R90) -/

/-- No effect touches the ports: the word is taken before the command runs and the response is given after (R77). -/
theorem Effect.ports_eq {i : Instr} {s u : State} (h : Effect i s u) : u.cmdIn = s.cmdIn ∧ u.rspOut = s.rspOut := by
  cases h <;> exact ⟨rfl, rfl⟩

theorem Inv.runWord_answers {s : State} (h : Inv s) (w : Word64) :
    ∃ t r, runWord w s = .next t ∧ t.cmdIn = s.cmdIn ∧ t.rspOut = s.rspOut ++ [r] := by
  unfold runWord
  split
  next i _ =>
    obtain ⟨t, hexec⟩ := h.completes_exec i
    obtain ⟨u, r, heffect, rfl⟩ := answered_of_exec hexec
    obtain ⟨hcmd, hrsp⟩ := heffect.ports_eq
    exact ⟨_, r, hexec, hcmd, by rw [State.answer_rspOut, hrsp]⟩
  next => exact ⟨_, _, refuse_eq _ _, rfl, rfl⟩

/-- Settles O8: the step runs the word it takes, and by R61 nothing the command reads is missing. -/
theorem everyWordGetsOneResponse : Obligations.EveryWordGetsOneResponse := by
  intro s w ws h hcmd
  rw [step, s.takeCommand_cons w ws hcmd]
  exact Inv.runWord_answers ((inv_cmdIn s ws).mpr h) w

end Sys2Proof.Machine

/-! ## Proofs: the decoder and the encoder are inverse (spec/30_encoding.md R90 to R96) -/

namespace Sys2Proof

/-! ### The bits of `a` and `w` an operand fills (R91, R92) -/

/-- How many of the low bits of field `a` the command's operand fills (R92). -/
def Mnemonic.aWidth : Mnemonic → Nat
  | .FA_SYM | .LEAF_PUSH | .ENC_SYM | .RD_CODE | .RD_CNT => 7
  | .DEC_BYTE | .RD_CSR | .RD_NODE => 8
  | .NOP | .CLEAR | .FA_FIN | .BUILD | .GEN | .ENC_FIN | .DEC_FIN => 0

/-- How many of the low bits of field `w` the command's operand fills (R92). -/
def Mnemonic.wWidth : Mnemonic → Nat
  | .LEAF_PUSH => 32
  | .RD_CODE => 2
  | .NOP | .CLEAR | .FA_SYM | .FA_FIN | .BUILD | .GEN | .ENC_SYM | .ENC_FIN | .DEC_BYTE | .DEC_FIN | .RD_CSR
  | .RD_NODE | .RD_CNT => 0

theorem and_allOnes_shiftLeft_eq_zero_iff {n : Nat} (x : BitVec n) (m : Nat) :
    x &&& (BitVec.allOnes n <<< m) = 0#n ↔ x.toNat < 2 ^ m := by
  constructor
  · intro h
    refine Nat.lt_pow_two_of_testBit _ fun k hk => ?_
    rw [BitVec.testBit_toNat]
    by_cases hkn : k < n
    · simpa [hkn, Nat.not_lt.mpr hk] using congrArg (·.getLsbD k) h
    · exact BitVec.getLsbD_of_ge x k (Nat.not_lt.mp hkn)
  · intro h
    refine BitVec.eq_of_getLsbD_eq fun k _ => ?_
    by_cases hk : k < m
    · simp [hk]
    · have hbit : x.getLsbD k = false :=
        Nat.testBit_lt_two_pow (h.trans_le (Nat.pow_le_pow_right Nat.two_pos (Nat.not_lt.mp hk)))
      simp [hbit]

/-- In `a` and `w` a row's mask covers the bits above the operand's (R94). -/
theorem opcodeTable_mask : ∀ r ∈ opcodeTable,
    fieldA r.mask = BitVec.allOnes 8 <<< r.mnem.aWidth ∧ fieldW r.mask = BitVec.allOnes 32 <<< r.mnem.wWidth := by
  decide

theorem matches_iff_fits (r : OpcodeRow) (hr : r ∈ opcodeTable) (w : Word64) :
    r.matches w = true ↔
      fieldOp w = opcodeOf r.mnem ∧ fieldRsv w = 0#16 ∧ (fieldA w).toNat < 2 ^ r.mnem.aWidth ∧
      (fieldW w).toNat < 2 ^ r.mnem.wWidth := by
  obtain ⟨ha, hw⟩ := opcodeTable_mask r hr
  rw [matches_fields r hr, ha, hw, and_allOnes_shiftLeft_eq_zero_iff, and_allOnes_shiftLeft_eq_zero_iff]

theorem exists_row (m : Mnemonic) : ∃ r ∈ opcodeTable, r.mnem = m := by
  cases m <;> decide

/-! ### Operands read from the fields and written back -/

@[simp] theorem mnemonic_instrOf (m : Mnemonic) (w : Word64) : (instrOf m w).mnemonic = m := by
  cases m <;> rfl

theorem setWidth_extractLsb'_of_lt {n m : Nat} (x : BitVec n) (h : x.toNat < 2 ^ m) :
    (x.extractLsb' 0 m).setWidth n = x := by
  apply BitVec.eq_of_toNat_eq
  simp [Nat.mod_eq_of_lt h]

theorem symField_operandSym (w : Word64) (h : (fieldA w).toNat < 2 ^ 7) : symField (operandSym w) = fieldA w :=
  setWidth_extractLsb'_of_lt _ h

theorem setWidth_operandChunk (w : Word64) (h : (fieldW w).toNat < 2 ^ 2) :
    (operandChunk w).setWidth 32 = fieldW w :=
  setWidth_extractLsb'_of_lt _ h

theorem operandSym_of_fieldA (w : Word64) (x : Sym) (h : fieldA w = symField x) : operandSym w = x := by
  rw [operandSym, h, symField, BitVec.extractLsb'_setWidth_of_le (by decide), BitVec.extractLsb'_eq_self]

theorem operandChunk_of_fieldW (w : Word64) (k : BitVec 2) (h : fieldW w = k.setWidth 32) : operandChunk w = k := by
  rw [operandChunk, h, BitVec.extractLsb'_setWidth_of_le (by decide), BitVec.extractLsb'_eq_self]

theorem field_eq_zero_of_fits {n : Nat} (x : BitVec n) (h : x.toNat < 2 ^ 0) : 0#n = x :=
  BitVec.eq_of_toNat_eq (by simpa using (Nat.lt_one_iff.mp h).symm)

/-- Where the bits of `a` outside the operand are zero, the operand read from `a` is written back as `a`. -/
theorem aField_instrOf (m : Mnemonic) (w : Word64) (h : (fieldA w).toNat < 2 ^ m.aWidth) :
    (instrOf m w).aField = fieldA w := by
  cases m with
  | FA_SYM | LEAF_PUSH | ENC_SYM | RD_CODE | RD_CNT => exact symField_operandSym w h
  | DEC_BYTE | RD_CSR | RD_NODE => rfl
  | NOP | CLEAR | FA_FIN | BUILD | GEN | ENC_FIN | DEC_FIN => exact field_eq_zero_of_fits _ h

/-- Where the bits of `w` outside the operand are zero, the operand read from `w` is written back as `w`. -/
theorem wField_instrOf (m : Mnemonic) (w : Word64) (h : (fieldW w).toNat < 2 ^ m.wWidth) :
    (instrOf m w).wField = fieldW w := by
  cases m with
  | LEAF_PUSH => rfl
  | RD_CODE => exact setWidth_operandChunk w h
  | NOP | CLEAR | FA_SYM | FA_FIN | BUILD | GEN | ENC_SYM | ENC_FIN | DEC_BYTE | DEC_FIN | RD_CSR | RD_NODE
  | RD_CNT => exact field_eq_zero_of_fits _ h

theorem aField_lt (i : Instr) : i.aField.toNat < 2 ^ i.mnemonic.aWidth := by
  cases i with
  | faSym x | leafPush x _ | encSym x | rdCode x _ | rdCnt x => exact (symField_toNat x).trans_lt x.isLt
  | decByte b | rdCsr b | rdNode b => exact b.isLt
  | nop | clear | faFin | build | gen | encFin | decFin => exact Nat.one_pos

theorem wField_lt (i : Instr) : i.wField.toNat < 2 ^ i.mnemonic.wWidth := by
  cases i with
  | leafPush _ v => exact v.isLt
  | rdCode _ k => exact (BitVec.toNat_setWidth_of_le (by decide)).trans_lt k.isLt
  | nop | clear | faSym _ | faFin | build | gen | encSym _ | encFin | decByte _ | decFin | rdCsr _ | rdNode _
  | rdCnt _ => exact Nat.one_pos

/-- A word whose `a` and `w` hold the command's operands reads as the command (R92). -/
theorem instrOf_of_fields (i : Instr) (w : Word64) (ha : fieldA w = i.aField) (hw : fieldW w = i.wField) :
    instrOf i.mnemonic w = i := by
  cases i with
  | faSym x => exact congrArg Instr.faSym (operandSym_of_fieldA w x ha)
  | leafPush x v => exact congrArg₂ Instr.leafPush (operandSym_of_fieldA w x ha) hw
  | encSym x => exact congrArg Instr.encSym (operandSym_of_fieldA w x ha)
  | decByte b => exact congrArg Instr.decByte ha
  | rdCsr n => exact congrArg Instr.rdCsr ha
  | rdNode k => exact congrArg Instr.rdNode ha
  | rdCode x k => exact congrArg₂ Instr.rdCode (operandSym_of_fieldA w x ha) (operandChunk_of_fieldW w k hw)
  | rdCnt x => exact congrArg Instr.rdCnt (operandSym_of_fieldA w x ha)
  | nop | clear | faFin | build | gen | encFin | decFin => rfl

/-! ### Decode after encode -/

@[simp] theorem fieldA_encode (i : Instr) : fieldA (encode i) = i.aField := fieldA_commandWord _ _ _

@[simp] theorem fieldW_encode (i : Instr) : fieldW (encode i) = i.wField := fieldW_commandWord _ _ _

theorem encode_matches (i : Instr) (r : OpcodeRow) (hr : r ∈ opcodeTable) (hm : r.mnem = i.mnemonic) :
    r.matches (encode i) = true := by
  rw [matches_iff_fits r hr, hm, fieldA_encode, fieldW_encode]
  exact ⟨fieldOp_commandWord _ _ _, fieldRsv_commandWord _ _ _, aField_lt i, wField_lt i⟩

/-- Settles O2: the word satisfies the command's row, and its fields hold the command's operands. -/
theorem encodeThenDecode : Obligations.EncodeThenDecode := by
  intro i
  obtain ⟨r, hr, hm⟩ := exists_row i.mnemonic
  rw [decode_of_matches r hr _ (encode_matches i r hr hm), hm,
    instrOf_of_fields i _ (fieldA_encode i) (fieldW_encode i)]

/-! ### Encode after decode -/

/-- A word that decodes satisfies a row and decodes to that row's command (R95). -/
theorem exists_row_of_decode {w : Word64} {i : Instr} (h : decode w = .ok i) :
    ∃ r ∈ opcodeTable, r.matches w = true ∧ instrOf r.mnem w = i := by
  by_cases hrow : ∃ r ∈ opcodeTable, r.matches w = true
  · obtain ⟨r, hr, hmatch⟩ := hrow
    rw [decode_of_matches r hr w hmatch] at h
    exact ⟨r, hr, hmatch, Except.ok.inj h⟩
  · rw [decode_of_no_match w fun r hr => Bool.eq_false_iff.mpr fun hmatch => hrow ⟨r, hr, hmatch⟩] at h
    cases h

/-- Settles O3: a row fixes `op`, `rsv` and every bit of `a` and `w` that holds no operand. -/
theorem decodeThenEncode : Obligations.DecodeThenEncode := by
  intro w i h
  obtain ⟨r, hr, hmatch, rfl⟩ := exists_row_of_decode h
  obtain ⟨hop, hrsv, ha, hw⟩ := (matches_iff_fits r hr w).mp hmatch
  apply word_ext_fields
  · rw [encode, fieldOp_commandWord, mnemonic_instrOf, hop]
  · rw [encode, fieldRsv_commandWord, hrsv]
  · rw [fieldA_encode, aField_instrOf _ _ ha]
  · rw [fieldW_encode, wField_instrOf _ _ hw]

/-! ### Match and mask (R94) -/

/-- A mask has a 1 at exactly the bits that belong to no operand (R94). -/
theorem opcodeTable_mask_getLsbD :
    ∀ r ∈ opcodeTable, ∀ k < 64, r.mask.getLsbD k = !(r.mnem.operands.any fun o => o.holdsBit k) := by
  decide

theorem and_mask_eq_pattern_iff (r : OpcodeRow) (w : Word64) : w &&& r.mask = r.pattern ↔ r.matches w = true :=
  beq_iff_eq.symm

theorem matches_iff_decode (r : OpcodeRow) (hr : r ∈ opcodeTable) (w : Word64) :
    r.matches w = true ↔ ∃ i, decode w = .ok i ∧ i.mnemonic = r.mnem := by
  constructor
  · intro h
    exact ⟨_, decode_of_matches r hr w h, mnemonic_instrOf _ _⟩
  · rintro ⟨i, hdecode, hm⟩
    obtain ⟨r', hr', hmatch, rfl⟩ := exists_row_of_decode hdecode
    rw [mnemonic_instrOf] at hm
    exact opcodeTable_mnem_injective r' hr' r hr hm ▸ hmatch

/-- Two rows a word satisfies have the one opcode the word holds. -/
theorem row_unique (w : Word64) (r r' : OpcodeRow) (hr : r ∈ opcodeTable) (hr' : r' ∈ opcodeTable)
    (h : r.matches w = true) (h' : r'.matches w = true) : r = r' := by
  obtain ⟨hop, -⟩ := (matches_fields r hr w).mp h
  obtain ⟨hop', -⟩ := (matches_fields r' hr' w).mp h'
  exact opcodeTable_mnem_injective r hr r' hr' (opcodeOf_injective _ _ (hop.symm.trans hop'))

/-- Settles O4: the table's masks are read off bit by bit, and `decode` finds the one row the word satisfies. -/
theorem wordIsAtMostOneRow : Obligations.WordIsAtMostOneRow := by
  refine ⟨rfl, opcodeTable_mask_getLsbD, fun w => ⟨fun r hr => ?_, fun r hr r' hr' h h' => ?_⟩⟩
  · rw [and_mask_eq_pattern_iff, matches_iff_decode r hr]
  · rw [and_mask_eq_pattern_iff] at h h'
    exact row_unique w r r' hr hr' h h'

/-- Settles O1: each word is the encoding of its command (R91, R96), and O2 decodes it. -/
theorem knownWordsDecode : Obligations.KnownWordsDecode :=
  ⟨encodeThenDecode .nop, encodeThenDecode .clear, encodeThenDecode (.faSym 97#7), encodeThenDecode .faFin,
    encodeThenDecode (.leafPush 6#7 0xFFFFFFFF#32), encodeThenDecode .build, encodeThenDecode .gen,
    encodeThenDecode (.encSym 122#7), encodeThenDecode .encFin, encodeThenDecode (.decByte 0xFF#8),
    encodeThenDecode .decFin, encodeThenDecode (.rdCsr 11#8), encodeThenDecode (.rdNode 254#8),
    encodeThenDecode (.rdCode 1#7 3#2), encodeThenDecode (.rdCnt 65#7)⟩

end Sys2Proof

/-! ## Proofs: the frequency front end (spec/40_frequency_analyzer.md) -/

namespace Sys2Proof.Machine

open Sys2Proof

/-! ### `FA_SYM` (R111) -/

/-- The word of R111: opcode 0x10, the symbol in `a`. -/
theorem encode_faSym_toNat (x : Sym) : (encode (.faSym x)).toNat = 0x1000000000000000 + x.toNat * 2 ^ 32 := by
  simp [encode_toNat, Instr.mnemonic, opcodeOf, Instr.aField, symField_toNat, Instr.wField]

section
variable {x : Sym} {s : State} (hf : s.fault = false) (hseq : seqFrequency s)
include hf hseq

theorem execFaSym_overflow (hfull : ¬s.nsym.toNat < Config.max32) :
    execFaSym x s = .next (s.answer (rspWord .errCntovf 0#56)) := by
  rw [execFaSym, working_accepted _ _ _ hf hseq, if_neg hfull, refuse_eq]

theorem execFaSym_accepted (hlt : s.nsym.toNat < Config.max32) :
    execFaSym x s = .next (State.answer
      { s with cnt := setSym s.cnt x (getSym s.cnt x + 1#32), nsym := s.nsym + 1#32 }
      (rspWord .ok ((getSym s.cnt x + 1#32).setWidth 56))) := by
  rw [execFaSym, working_accepted _ _ _ hf hseq, if_pos hlt, respond_eq]

end

/-- Settles O14: the checks of R206 come first, then the room for one more symbol. -/
theorem faSymCountsOneOccurrence : Obligations.FaSymCountsOneOccurrence := by
  refine fun x s => ⟨encode_faSym_toNat x, fun hf => ?_, fun hf hseq => ?_, fun hf hp hn hfull => ?_,
    fun hf hp hn hlt => ?_⟩
  · exact working_faulted _ s _ hf
  · exact working_out_of_sequence _ s _ hf hseq
  · exact execFaSym_overflow hf ⟨hp, hn⟩ hfull.not_lt
  · exact execFaSym_accepted hf ⟨hp, hn⟩ hlt

/-! ### The one order of the counted symbols (R114) -/

/-- The strict order of R114, the one of `SortedCounts`: count, then symbol. -/
abbrev leafStrictlyBefore (p q : Sym × Wgt) : Prop := p.2 < q.2 ∨ (p.2 = q.2 ∧ p.1 < q.1)

theorem leafStrictlyBefore_asymm (p q : Sym × Wgt) (h : leafStrictlyBefore p q) : ¬leafStrictlyBefore q p := by
  unfold leafStrictlyBefore at *
  bv_omega

theorem leafStrictlyBefore_of_leafBefore {p q : Sym × Wgt} (h : leafBefore p q) (hne : p.1 ≠ q.1) :
    leafStrictlyBefore p q := by
  unfold leafBefore at h
  unfold leafStrictlyBefore
  bv_omega

/-- R114 leaves no choice: lists of the counted symbols in its order have the same members, so they are equal. -/
theorem SortedCounts.unique {cnt : Vector (BitVec 32) 128} {D D' : List (Sym × Wgt)} (h : SortedCounts cnt D)
    (h' : SortedCounts cnt D') : D = D' := by
  have : Std.Asymm leafStrictlyBefore := ⟨leafStrictlyBefore_asymm⟩
  obtain ⟨hsorted, hmem⟩ := h
  obtain ⟨hsorted', hmem'⟩ := h'
  exact List.Pairwise.eq_of_mem_iff (r := leafStrictlyBefore) hsorted hsorted' fun p => (hmem p).trans (hmem' p).symm

theorem mem_countedLeaves (cnt : Vector (BitVec 32) 128) (p : Sym × Wgt) :
    p ∈ countedLeaves cnt ↔ p.2 = getSym cnt p.1 ∧ p.2 ≠ 0#32 := by
  rw [(countedLeaves_perm cnt).mem_iff, List.mem_filter, List.mem_map, decide_eq_true_iff]
  refine and_congr_left fun _ => ⟨?_, fun h => ⟨p.1, mem_allSyms p.1, by rw [← h]⟩⟩
  rintro ⟨x, -, rfl⟩
  rfl

/-- A symbol stands once in the list, so the order `FA_FIN` sorts by is strict along it. -/
theorem countedLeaves_pairwise (cnt : Vector (BitVec 32) 128) :
    (countedLeaves cnt).Pairwise leafStrictlyBefore := by
  have : Std.Total leafBefore := ⟨leafBefore_total⟩
  have : IsTrans _ leafBefore := ⟨leafBefore_trans⟩
  have hsorted : (countedLeaves cnt).Pairwise leafBefore := List.pairwise_insertionSort leafBefore _
  have hdistinct : (countedLeaves cnt).Pairwise fun p q => p.1 ≠ q.1 := List.pairwise_map.mp (countedLeaves_ok cnt).nodup
  exact hsorted.imp₂ (fun _ _ => leafStrictlyBefore_of_leafBefore) hdistinct

theorem sortedCounts_countedLeaves (cnt : Vector (BitVec 32) 128) : SortedCounts cnt (countedLeaves cnt) :=
  ⟨countedLeaves_pairwise cnt, mem_countedLeaves cnt⟩

theorem countedLeaves_length_le (cnt : Vector (BitVec 32) 128) : (countedLeaves cnt).length ≤ 128 := by
  rw [(countedLeaves_perm cnt).length_eq]
  exact (List.length_filter_le _ _).trans (by simp [allSyms])

/-! ### `FA_FIN` (R113 to R116) -/

theorem leafList_of_length_ne_one {D : List (Sym × Wgt)} (h : D.length ≠ 1) : leafList D = (D, false) := by
  unfold leafList
  split
  · exact absurd rfl h
  · rfl

theorem execFaFin_accepted {s : State} (hf : s.fault = false) (hseq : seqFrequency s) {D L : List (Sym × Wgt)}
    {ph : Bool} (hD : SortedCounts s.cnt D) (hL : leafList D = (L, ph)) :
    execFaFin s = .next (State.answer
      { s with
        node := L.map fun p => NodeEntry.leaf p.1 p.2
        nleaf := L.length
        total := s.nsym
        phantom := ph || s.phantom
        phase := .leaves }
      (rspWord .ok (BitVec.ofNat 56 L.length))) := by
  rw [execFaFin, working_accepted _ _ _ hf hseq, (sortedCounts_countedLeaves s.cnt).unique hD, hL, respond_eq]

/-- Settles O15: the list `FA_FIN` sorts is the only one in the order of R114, and one distinct symbol gets the phantom leaf
(R115). -/
theorem faFinBuildsSortedLeafList : Obligations.FaFinBuildsSortedLeafList := by
  refine fun s => ⟨rfl, fun hf => ?_, fun hf hseq => ?_, ?_, fun D hD => ?_, fun D hD hf hp hn => ⟨fun hlen => ?_, ?_⟩⟩
  · exact working_faulted _ s _ hf
  · exact working_out_of_sequence _ s _ hf hseq
  · exact ⟨_, sortedCounts_countedLeaves s.cnt, fun D hD => hD.unique (sortedCounts_countedLeaves s.cnt)⟩
  · rw [hD.unique (sortedCounts_countedLeaves s.cnt)]
    exact countedLeaves_length_le s.cnt
  · exact execFaFin_accepted hf ⟨hp, hn⟩ hD (leafList_of_length_ne_one hlen)
  · rintro c n rfl
    exact execFaFin_accepted hf ⟨hp, hn⟩ hD rfl

/-! ### What `FA_SYM` and `FA_FIN` leave unchanged -/

/-- `FA_SYM` writes one counter (R111). -/
theorem Effect.getSym_cnt_faSym {x y : Sym} {s u : State} (h : Effect (.faSym x) s u) (hy : y ≠ x) :
    getSym u.cnt y = getSym s.cnt y := by
  cases h with
  | quiet => rfl
  | faSym => exact getSym_setSym_ne _ _ _ _ hy

/-- Settles O55: the fields each command writes stand in its effect. -/
theorem frequencyFrame : Obligations.FrequencyFrame := by
  refine ⟨fun x s t hexec => ?_, fun s t hexec => ?_⟩
  · obtain ⟨u, r, h, rfl⟩ := answered_of_exec hexec
    exact ⟨by cases h <;> rfl, fun y hy => h.getSym_cnt_faSym hy⟩
  · obtain ⟨u, r, h, rfl⟩ := answered_of_exec hexec
    cases h <;> rfl

end Sys2Proof.Machine

/-! ## Proofs: the commands of the tree builder and the order of its queues (spec/41_tree_builder.md) -/

namespace Sys2Proof.Machine

open Sys2Proof

/-! ### `take()` (R128) -/

section
variable (q : Queues)

theorem Queues.take_of_source_empty (h : q.sh = q.nleaf) : q.take = some q.takeTarget := by
  rw [Queues.take, if_pos h]

theorem Queues.take_of_target_empty (hs : q.sh ≠ q.nleaf) (ht : q.th = q.node.length) : q.take = some q.takeSource := by
  rw [Queues.take, if_neg hs, Queues.tt, if_pos ht]

/-- With a node in each queue the fronts' weights decide, and `source` has the tie. -/
theorem Queues.take_of_fronts (hs : q.sh ≠ q.nleaf) (ht : q.th ≠ q.node.length) {a b : NodeEntry}
    (ha : q.node[q.sh]? = some a) (hb : q.node[q.th]? = some b) :
    q.take = some (if a.wgt ≤ b.wgt then q.takeSource else q.takeTarget) := by
  rw [Queues.take, if_neg hs, Queues.tt, if_neg ht, ha, hb]

end

/-- Dequeuing moves a queue's front and leaves the node array. -/
theorem Queues.take_node {q q' : Queues} {i : NodeIdx} (h : q.take = some (i, q')) : q'.node = q.node := by
  unfold Queues.take at h
  split at h
  · cases h; rfl
  · split at h
    · cases h; rfl
    · split at h
      · split at h <;> cases h <;> rfl
      · cases h

/-- The second `take()` sees the queues as the first left them (R128, R129). -/
theorem Queues.mergeOne_of_take {q q1 q2 : Queues} {l r : NodeIdx} {a b : NodeEntry} (h1 : q.take = some (l, q1))
    (h2 : q1.take = some (r, q2)) (ha : q.node[l]? = some a) (hb : q.node[r]? = some b) :
    q.mergeOne = some { q2 with node := q.node ++ [.inner (a.wgt + b.wgt) l r] } := by
  have hnode : q2.node = q.node := (Queues.take_node h2).trans (Queues.take_node h1)
  simp [Queues.mergeOne, h1, h2, hnode, ha, hb]

/-- Settles O20: one lemma for each of the three tests of `take()` (R128), and one for the iteration. -/
theorem takePrefersSourceOnTies : Obligations.TakePrefersSourceOnTies := by
  refine fun q => ⟨q.take_of_source_empty, q.take_of_target_empty,
    fun hs ht a b ha hb => ⟨fun hle => ?_, fun hlt => ?_⟩, fun l r q1 q2 a b => Queues.mergeOne_of_take⟩
  · rw [q.take_of_fronts hs ht ha hb, if_pos (BitVec.le_def.mpr hle)]
    rfl
  · rw [q.take_of_fronts hs ht ha hb, if_neg (BitVec.not_le.mpr (BitVec.lt_def.mpr hlt))]
    rfl

/-! ### Both queues stay sorted (R131) -/

theorem weightAt_append {node : List NodeEntry} {i : Nat} (more : List NodeEntry) (h : i < node.length) :
    weightAt (node ++ more) i = weightAt node i := by
  rw [weightAt, weightAt, List.getElem?_append_left h]

/-- The `n` leaves, and the internal nodes behind them, each stand in non-decreasing order of weight. -/
structure SortedQueues (node : List NodeEntry) (n : Nat) : Prop where
  source : MonotoneOn (α := Nat) (weightAt node) (Set.Iio n)
  target : MonotoneOn (α := Nat) (weightAt node) (Set.Ico n node.length)

/-- Node `i` stands in one of the two queues (R126). -/
def Queues.Enqueued (q : Queues) (i : Nat) : Prop := (q.sh ≤ i ∧ i < q.nleaf) ∨ (q.th ≤ i ∧ i < q.node.length)

/-- The enqueued nodes are those not dequeued so far. -/
theorem Queues.Ordered.enqueued_iff {q : Queues} (h : q.Ordered) (i : Nat) :
    q.Enqueued i ↔ i < q.node.length ∧ i ∉ q.taken := by
  obtain ⟨h1, h2, h3⟩ := h
  rw [Queues.Enqueued, Queues.taken, List.mem_append, List.mem_range, List.mem_range'_1]
  omega

section
variable {q q' : Queues} {i : Nat} (h : q.Ordered) (ht : q.Takes i q')
include h ht

theorem Queues.Takes.enqueued : q.Enqueued i := by
  have hnodup : (i :: q.taken).Nodup := ht.taken.nodup_iff.mp ht.ordered.taken_nodup
  have hlt := ht.ordered.taken_lt i (ht.taken.mem_iff.mpr List.mem_cons_self)
  rw [ht.node_eq] at hlt
  exact (h.enqueued_iff i).mpr ⟨hlt, (List.nodup_cons.mp hnodup).1⟩

theorem Queues.Takes.enqueued_of_enqueued {j : Nat} (hj : q'.Enqueued j) : q.Enqueued j := by
  obtain ⟨hlt, hnot⟩ := (ht.ordered.enqueued_iff j).mp hj
  rw [ht.node_eq] at hlt
  rw [ht.taken.mem_iff, List.mem_cons, not_or] at hnot
  exact (h.enqueued_iff j).mpr ⟨hlt, hnot.2⟩

/-- With both queues sorted, `take()` removes a node of least weight among all enqueued (R131). -/
theorem Queues.Takes.weight_le (hsorted : SortedQueues q.node q.nleaf) {j : Nat} (hj : q.Enqueued j) :
    weightAt q.node i ≤ weightAt q.node j := by
  obtain ⟨hsh, hnl, hth⟩ := h
  have hsource : q.sh ≤ j ∧ j < q.nleaf → weightAt q.node q.sh ≤ weightAt q.node j := fun hj =>
    hsorted.source (Set.mem_Iio.mpr (by omega)) (Set.mem_Iio.mpr hj.2) hj.1
  have htarget : q.th ≤ j ∧ j < q.node.length → weightAt q.node q.th ≤ weightAt q.node j := fun hj =>
    hsorted.target (Set.mem_Ico.mpr (by omega)) (Set.mem_Ico.mpr (by omega)) hj.1
  have htake := ht.take_eq
  by_cases hs : q.sh = q.nleaf
  · cases (q.take_of_source_empty hs).symm.trans htake
    exact htarget (hj.resolve_left (by omega))
  by_cases htt : q.th = q.node.length
  · cases (q.take_of_target_empty hs htt).symm.trans htake
    exact hsource (hj.resolve_right (by omega))
  have ha := List.getElem?_eq_getElem (show q.sh < q.node.length by omega)
  have hb := List.getElem?_eq_getElem (show q.th < q.node.length by omega)
  have hfronts := (q.take_of_fronts hs htt ha hb).symm.trans htake
  split at hfronts
  case isTrue hle =>
    cases hfronts
    rw [BitVec.le_def, ← weightAt_of_some ha, ← weightAt_of_some hb] at hle
    exact hj.elim hsource fun hj => hle.trans (htarget hj)
  case isFalse hlt =>
    cases hfronts
    rw [BitVec.not_le, BitVec.lt_def, ← weightAt_of_some ha, ← weightAt_of_some hb] at hlt
    exact hj.elim (fun hj => hlt.le.trans (hsource hj)) htarget

end

/-- Why a new node weighs no less than those before it: some weight `m` is a lower bound of every enqueued node, and
twice `m` an upper bound of every internal node so far (R131). -/
structure Queues.Ascending (q : Queues) : Prop where
  sorted : SortedQueues q.node q.nleaf
  bound : ∃ m, (∀ i : Nat, q.Enqueued i → m ≤ weightAt q.node i) ∧
    ∀ i : Nat, q.nleaf ≤ i → i < q.node.length → weightAt q.node i ≤ 2 * m

/-- An entry that weighs no less than every internal node so far keeps both queues sorted. -/
theorem SortedQueues.concat {node : List NodeEntry} {n : Nat} (h : SortedQueues node n) (hn : n ≤ node.length)
    (e : NodeEntry) (he : ∀ i : Nat, n ≤ i → i < node.length → weightAt node i ≤ weightAt (node ++ [e]) node.length) :
    SortedQueues (node ++ [e]) n := by
  have hold {i : Nat} (hi : i < node.length) := weightAt_append [e] hi
  constructor
  case source =>
    intro i hi j hj hij
    rw [Set.mem_Iio] at hi hj
    rw [hold (by omega), hold (by omega)]
    exact h.source hi hj hij
  case target =>
    intro i hi j hj hij
    rw [Set.mem_Ico, List.length_append, List.length_singleton] at hi hj
    rcases Nat.lt_or_ge j node.length with hlt | hge
    · rw [hold (by omega), hold hlt]
      exact h.target ⟨hi.1, by omega⟩ ⟨hj.1, hlt⟩ hij
    obtain rfl : j = node.length := by omega
    rcases Nat.lt_or_ge i node.length with hlt | hge
    · rw [hold hlt]
      exact he i hi.1 hlt
    · rw [show i = node.length by omega]

/-- One iteration, by weights (R128, R129): under the new node go an enqueued node `l` and one of weight `y`, which is no
less than the weight of `l` and no more than that of any node enqueued afterwards. -/
theorem Queues.mergeOne_weights {q q' : Queues} (h : q.Ok) (hsorted : SortedQueues q.node q.nleaf)
    (hlive : q.node.length + 1 < 2 * q.nleaf) (hq : q.mergeOne = some q') :
    ∃ (e : NodeEntry) (l y : Nat), q'.Ok ∧ q'.nleaf = q.nleaf ∧ q'.node = q.node ++ [e] ∧
      q.Enqueued l ∧ weightAt q.node l ≤ y ∧ weightAt q'.node q.node.length = weightAt q.node l + y ∧
      ∀ j : Nat, q'.Enqueued j → y ≤ weightAt q'.node j := by
  have hcount := h.count
  obtain ⟨l, q1, h1⟩ := q.exists_takes h.toOrdered (by omega)
  obtain ⟨r, q2, h2⟩ := q1.exists_takes h1.ordered (by rw [h1.count, h1.nleaf_eq, h1.node_eq]; omega)
  have hl := h1.enqueued h.toOrdered
  have hr := h1.enqueued_of_enqueued h.toOrdered (h2.enqueued h1.ordered)
  have hllt := ((h.toOrdered.enqueued_iff l).mp hl).1
  have hrlt := ((h.toOrdered.enqueued_iff r).mp hr).1
  obtain ⟨e, _, hq', hok', hnleaf', hnode'⟩ := q.mergeOne_ok h hlive
  cases hq.symm.trans hq'
  cases hq.symm.trans (Queues.mergeOne_eq h1 h2 (List.getElem?_eq_getElem hllt) (List.getElem?_eq_getElem hrlt))
  cases List.append_cancel_left hnode'
  have hold {i : Nat} (hi : i < q.node.length) := weightAt_append [.inner (q.node[l].wgt + q.node[r].wgt) l r] hi
  have hnew : weightAt (q.node ++ [.inner (q.node[l].wgt + q.node[r].wgt) l r]) q.node.length =
      weightAt q.node l + weightAt q.node r := by
    rw [weightAt_eq_children (hok'.inner _ (by simp) (hnleaf' ▸ h.nleaf_le.trans h.th_le)) _
      List.getElem?_concat_length]
    simp [NodeEntry.children, hold hllt, hold hrlt]
  refine ⟨_, l, weightAt q.node r, hok', hnleaf', hnode', hl, h1.weight_le h.toOrdered hsorted hr, hnew, fun j hj => ?_⟩
  rcases Nat.lt_or_ge j q.node.length with hlt | hge
  · have hj2 : q2.Enqueued j := hj.imp_right fun hj => ⟨hj.1, by rwa [h2.node_eq, h1.node_eq]⟩
    have hle := h2.weight_le h1.ordered (by rwa [h1.node_eq, h1.nleaf_eq]) (h2.enqueued_of_enqueued h1.ordered hj2)
    rw [h1.node_eq] at hle
    exact hle.trans_eq (hold hlt).symm
  · have hjlt := ((hok'.enqueued_iff j).mp hj).1
    rw [List.length_append, List.length_singleton] at hjlt
    obtain rfl : j = q.node.length := by omega
    exact hnew ▸ Nat.le_add_left _ _

/-- One iteration keeps the queues ascending: the weight of the second node taken is the next lower bound. -/
theorem Queues.mergeOne_ascending {q q' : Queues} (h : q.Ok) (hasc : q.Ascending)
    (hlive : q.node.length + 1 < 2 * q.nleaf) (hq : q.mergeOne = some q') : q'.Ok ∧ q'.Ascending := by
  obtain ⟨m, hlow, hup⟩ := hasc.bound
  obtain ⟨e, l, y, hok', hnleaf, hnode, hl, hly, hnew, hleast⟩ := Queues.mergeOne_weights h hasc.sorted hlive hq
  have hml := hlow l hl
  have hnl : q.nleaf ≤ q.node.length := h.nleaf_le.trans h.th_le
  refine ⟨hok', ?_, y, hleast, fun i hi hlt => ?_⟩
  · rw [hnleaf, hnode]
    refine hasc.sorted.concat hnl e fun i hi hlt => ?_
    have := hup i hi hlt
    rw [← hnode]
    omega
  · rw [hnode, List.length_append, List.length_singleton] at hlt
    rw [hnleaf] at hi
    rcases Nat.lt_succ_iff_lt_or_eq.mp hlt with hlt | rfl
    · have := hup i hi hlt
      rw [hnode, weightAt_append _ hlt]
      omega
    · omega

theorem Queues.iterate_ascending (k : Nat) {q q' : Queues} (h : q.Ok) (hasc : q.Ascending)
    (hlive : q.node.length + k < 2 * q.nleaf) (hq : Queues.iterate k q = some q') : q'.Ascending := by
  induction k generalizing q with
  | zero =>
    cases hq
    exact hasc
  | succ k ih =>
    rw [Queues.iterate_succ] at hq
    obtain ⟨q1, hq1, hq⟩ := Option.bind_eq_some_iff.mp hq
    obtain ⟨e, _, hq1', -, hnleaf, hnode⟩ := q.mergeOne_ok h (by omega)
    cases hq1.symm.trans hq1'
    obtain ⟨hok1, hasc1⟩ := Queues.mergeOne_ascending h hasc (by omega) hq1
    exact ih hok1 hasc1 (by rw [hnode, hnleaf, List.length_append, List.length_singleton]; omega) hq

/-- The leaf list is sorted (R49), and `target` is empty. -/
theorem startQueues_ascending {leaves : List NodeEntry} (h : leaves.Pairwise fun a b => a.wgt ≤ b.wgt) :
    (startQueues leaves).Ascending where
  sorted := by
    refine ⟨fun i hi j hj hij => ?_, fun i hi => absurd hi.2 (Nat.not_lt.mpr hi.1)⟩
    rcases Nat.lt_or_eq_of_le hij with hlt | rfl
    · have hle := List.pairwise_iff_getElem.mp h i j (Set.mem_Iio.mp hi) (Set.mem_Iio.mp hj) hlt
      rw [startQueues, weightAt_of_some (List.getElem?_eq_getElem hi), weightAt_of_some (List.getElem?_eq_getElem hj)]
      exact BitVec.le_def.mp hle
    · exact le_rfl
  bound := ⟨0, fun _ _ => Nat.zero_le _, fun _ hi hlt => absurd hlt (Nat.not_lt.mpr hi)⟩

/-- The internal nodes the merge appends stand in non-decreasing order of weight (R131). -/
theorem Merged.sorted {leaves inner : List NodeEntry} (h : Merged leaves inner)
    (hsum : (leaves.map fun e => e.wgt.toNat).sum < 2 ^ 32) (hsorted : leaves.Pairwise fun a b => a.wgt ≤ b.wgt)
    (hn : 2 ≤ leaves.length) : SortedQueues (leaves ++ inner) leaves.length :=
  (Queues.iterate_ascending _ (startQueues_ok leaves hsum) (startQueues_ascending hsorted)
    (by simp only [startQueues]; omega) h.iterate_eq).sorted

theorem SortedQueues.wgt_le {node : List NodeEntry} {n i : Nat} {a b : NodeEntry} (h : SortedQueues node n) (hi : n ≤ i)
    (ha : node[i]? = some a) (hb : node[i + 1]? = some b) : a.wgt ≤ b.wgt := by
  have hlt := (List.getElem?_eq_some_iff.mp hb).1
  have hle := h.target (Set.mem_Ico.mpr ⟨hi, by omega⟩) (Set.mem_Ico.mpr ⟨by omega, hlt⟩) (Nat.le_succ i)
  rw [weightAt_of_some ha, weightAt_of_some hb] at hle
  exact BitVec.le_def.mpr hle

/-- Settles O19: a `BUILD` that is refused or has no leaf leaves no internal node, and the merge keeps both queues
ascending. -/
theorem targetQueueStaysSorted : Obligations.TargetQueueStaysSorted := by
  intro s t h _ hseq hexec i a b hi ha hb
  have hnode := leaves_eq_node s h (seqBuild_early hseq)
  have hlen : s.node.length = s.nleaf := hnode ▸ h.length_leaves
  have hlt := (List.getElem?_eq_some_iff.mp hb).1
  rcases execBuild_cases s t hexec with ⟨e, -, -, -, rfl⟩ | ⟨-, -, -, rfl⟩ | ⟨-, -, h0, h1, node, hbuild, rfl⟩
  · exact absurd hlt (by simp only [State.answer_node]; omega)
  · exact absurd hlt (Nat.not_lt_zero _)
  · obtain ⟨inner, hm, hbuild', -⟩ := h.buildNodes_eq hseq (by omega)
    cases hbuild.symm.trans hbuild'
    have hsum : (s.node.map fun e => e.wgt.toNat).sum < 2 ^ 32 := by
      rw [← hnode, h.sum_leaves]
      exact s.total.isLt
    obtain ⟨-, -, -, hsorted, -⟩ := h.leafList
    rw [hnode] at hsorted
    exact (hm.sorted hsum hsorted (by omega)).wgt_le (by omega) ha hb

/-! ### `BUILD` (R123, R124, R132) -/

/-- The merge reads the leaf list and nothing behind it (R126). -/
theorem buildNodes_congr {node node' : List NodeEntry} {n : Nat} (h : node.take n = node'.take n) :
    buildNodes node n = buildNodes node' n := by
  rw [buildNodes, buildNodes, h]

section
variable {s : State} (hf : s.fault = false) (hseq : seqBuild s)
include hf hseq

theorem execBuild_oneLeaf (hn : s.nleaf = 1) : execBuild s = .next (s.answer (rspWord .errNleaf 0#56)) := by
  rw [execBuild, working_accepted _ _ _ hf hseq, if_pos hn, refuse_eq]

theorem execBuild_noLeaf (hn : s.nleaf = 0) :
    execBuild s = .next (State.answer
      { s with root := none, cur := none, node := [], phase := .tree } (rspWord .ok 0xFF#56)) := by
  rw [execBuild, working_accepted _ _ _ hf hseq, if_neg (by omega), if_pos hn, respond_eq]

/-- An accepted `BUILD` that completes takes the merged node array and makes its last entry the root (R123). -/
theorem execBuild_built (h0 : s.nleaf ≠ 0) (h1 : s.nleaf ≠ 1) {t : State} (h : execBuild s = .next t) :
    buildNodes s.node s.nleaf = some t.node ∧ t.root = some (t.node.length - 1) ∧ t.cur = t.root := by
  rw [execBuild, working_accepted _ _ _ hf hseq, if_neg h1, if_neg h0] at h
  split at h
  · cases h
  · rename_i node hbuild
    rw [respond_next_iff] at h
    subst h
    exact ⟨hbuild, rfl, rfl⟩

end

/-- Settles O17: the checks of R206 come first, then the leaf count; the last clause is R61 item 12. -/
theorem buildOfNoLeafAndOfOneLeaf : Obligations.BuildOfNoLeafAndOfOneLeaf := by
  refine fun s => ⟨fun hf => ?_, fun hf hseq => ?_, execBuild_oneLeaf, execBuild_noLeaf, fun h hp => ?_⟩
  · exact working_faulted _ s _ hf
  · exact working_out_of_sequence _ s _ hf hseq
  · obtain ⟨-, -, hleaves⟩ := h.counts
    exact (hleaves hp).1

/-- Settles O21: with no leaf there is no tree, and otherwise all three are read off the merged node array. -/
theorem buildDependsOnLeafListAlone : Obligations.BuildDependsOnLeafListAlone := by
  intro s s' t t' hnleaf hleaves hf hf' hseq hseq' h1 hexec hexec'
  by_cases h0 : s.nleaf = 0
  · cases (execBuild_noLeaf hf hseq h0).symm.trans hexec
    cases (execBuild_noLeaf hf' hseq' (hnleaf ▸ h0)).symm.trans hexec'
    exact ⟨rfl, rfl, rfl⟩
  · obtain ⟨hnode, hroot, hcur⟩ := execBuild_built hf hseq h0 h1 hexec
    obtain ⟨hnode', hroot', hcur'⟩ := execBuild_built hf' hseq' (hnleaf ▸ h0) (hnleaf ▸ h1) hexec'
    rw [State.leaves, State.leaves, ← hnleaf] at hleaves
    rw [← hnleaf, ← buildNodes_congr hleaves, hnode, Option.some.injEq] at hnode'
    exact ⟨hnode', by rw [hroot, hroot', hnode'], by rw [hcur, hcur', hroot, hroot', hnode']⟩

/-! ### `LEAF_PUSH` (R121) -/

/-- The word of R121: opcode 0x20, the symbol in `a`, the weight in `w`. -/
theorem encode_leafPush_toNat (x : Sym) (v : Wgt) :
    (encode (.leafPush x v)).toNat = 0x2000000000000000 + x.toNat * 2 ^ 32 + v.toNat := by
  simp [encode_toNat, Instr.mnemonic, opcodeOf, Instr.aField, symField_toNat, Instr.wField]

theorem leavesHold_iff (s : State) (x : Sym) : s.leavesHold x = true ↔ ∃ e ∈ s.leaves, e.sym = x := by
  simp [State.leavesHold, State.leaves]

/-- The order check where the leaf list is all of `NODE`: the last entry weighs at most `v`, or there is none. -/
theorem orderOk_eq {s : State} (hlen : s.node.length = s.nleaf) (v : Wgt) :
    s.orderOk v = some (decide (∀ e ∈ s.node.getLast?, e.wgt ≤ v)) := by
  rw [State.orderOk, ← hlen, List.getLast?_eq_getElem?]
  split
  · rename_i h0
    simp [List.length_eq_zero_iff.mp h0]
  · rename_i h0
    rw [List.getElem?_eq_getElem (Nat.sub_one_lt h0)]
    simp

section
variable {x : Sym} {v : Wgt} {s : State} (h : Inv s) (hf : s.fault = false) (hseq : seqLeafPush s)
include h hf hseq

theorem execLeafPush_duplicate (hx : ∃ e ∈ s.node, e.sym = x) :
    execLeafPush x v s = .next (s.answer (rspWord .errDup 0#56)) := by
  rw [← leaves_eq_node s h (.inl hseq.1)] at hx
  rw [execLeafPush, working_accepted _ _ _ hf hseq, if_pos ((leavesHold_iff s x).mpr hx), refuse_eq]

/-- `LEAF_PUSH` of a new symbol: the order of the weights is tested, then the sum (R121). -/
theorem execLeafPush_newSymbol (hx : ∀ e ∈ s.node, e.sym ≠ x) :
    execLeafPush x v s =
      if ∀ e ∈ s.node.getLast?, e.wgt ≤ v then
        if s.total.toNat + v.toNat ≤ Config.max32 then
          respond (BitVec.ofNat 56 s.nleaf)
            { s with node := s.node ++ [.leaf x v], total := s.total + v, nleaf := s.nleaf + 1 }
        else refuse .errWovf s
      else refuse .errOrder s := by
  have hnode := leaves_eq_node s h (.inl hseq.1)
  have hhold : s.leavesHold x ≠ true := by
    rw [ne_eq, leavesHold_iff, hnode]
    exact fun ⟨e, he, hex⟩ => hx e he hex
  have htake : s.node.take s.nleaf = s.node := hnode
  rw [execLeafPush, working_accepted _ _ _ hf hseq, if_neg hhold, orderOk_eq (hnode ▸ h.length_leaves), htake]
  by_cases hle : ∀ e ∈ s.node.getLast?, e.wgt ≤ v
  · rw [if_pos hle, decide_eq_true hle]
  · rw [if_neg hle, decide_eq_false hle]

end

/-- Settles O16: the checks of R206 come first, then the three of R121. -/
theorem leafPushAppendsOneLeaf : Obligations.LeafPushAppendsOneLeaf := by
  refine fun x v s h => ⟨encode_leafPush_toNat x v, fun hf => ?_, fun hf hseq => ?_, fun hf hp hn =>
    ⟨execLeafPush_duplicate h hf ⟨hp, hn⟩, fun hx => ?_⟩⟩
  · exact working_faulted _ s _ hf
  · exact working_out_of_sequence _ s _ hf hseq
  · have hexec := execLeafPush_newSymbol (v := v) h hf ⟨hp, hn⟩ hx
    refine ⟨fun ⟨e, he, hlt⟩ => ?_, fun hle => ⟨fun hfull => ?_, fun hfits => ?_⟩⟩
    · exact hexec.trans (if_neg fun hle => BitVec.not_le.mpr hlt (hle e he))
    · exact hexec.trans ((if_pos hle).trans (if_neg (Nat.not_le.mpr hfull)))
    · exact hexec.trans ((if_pos hle).trans (if_pos hfits))

end Sys2Proof.Machine

/-! ## Proofs: codewords as paths of the tree (spec/42_code_generator.md, R170) -/

namespace Sys2Proof.Machine

open Sys2Proof

/-! ### Frame of `GEN` (R141) -/

/-- Settles O57: the effect of an accepted `GEN` writes `CODE` and `PHASE`. -/
theorem genFrame : Obligations.GenFrame := by
  intro s t hexec
  obtain ⟨u, r, heffect, rfl⟩ := answered_of_exec hexec
  cases heffect <;> rfl

/-! ### Descending the tree -/

section
variable {node : List NodeEntry} {i : NodeIdx}

theorem childOf_leaf {x : Sym} {w : Wgt} (h : node[i]? = some (.leaf x w)) (t : Bool) :
    childOf node (some i) t = none := by
  cases t <;> simp [childOf, h, NodeEntry.left, NodeEntry.right]

theorem childOf_inner {l r : NodeIdx} {w : Wgt} (h : node[i]? = some (.inner w l r)) (t : Bool) :
    childOf node (some i) t = some (if t then r else l) := by
  cases t <;> simp [childOf, h, NodeEntry.left, NodeEntry.right]

@[simp] theorem descend_nil (node : List NodeEntry) (i : NodeIdx) : descend node i [] = some i := rfl

theorem descend_cons (node : List NodeEntry) (i : NodeIdx) (t : Bool) (ts : Bits) :
    descend node i (t :: ts) = (childOf node (some i) t).bind fun c => descend node c ts := by
  rw [descend]
  cases childOf node (some i) t <;> rfl

theorem InnersOk.childOf_lt {n : Nat} (h : InnersOk node n) {i c : Nat} {t : Bool}
    (hc : childOf node (some i) t = some c) : c < i := by
  cases hi : node[i]? with
  | none => simp [childOf, hi] at hc
  | some e =>
    cases e with
    | leaf x w => simp [childOf_leaf hi] at hc
    | inner w l r =>
      obtain ⟨-, hl, hr⟩ := h.children_lt hi
      rw [childOf_inner hi] at hc
      cases t <;> cases hc <;> assumption

/-- Children have smaller indices (R48), so a descent of at least one turn ends below its start. -/
theorem InnersOk.descend_lt {n : Nat} (h : InnersOk node n) {i j : Nat} {t : Bool} {ts : Bits}
    (hd : descend node i (t :: ts) = some j) : j < i := by
  induction ts generalizing i t with
  | nil =>
    rw [descend_cons] at hd
    obtain ⟨c, hc, hd⟩ := Option.bind_eq_some_iff.mp hd
    cases hd
    exact h.childOf_lt hc
  | cons u ts ih =>
    rw [descend_cons] at hd
    obtain ⟨c, hc, hd⟩ := Option.bind_eq_some_iff.mp hd
    exact (ih hd).trans (h.childOf_lt hc)

/-! ### The leaf at the end of a path -/

/-- The path `p` from node `i` ends at a leaf of symbol `x`. -/
def LeafAt (node : List NodeEntry) (i : NodeIdx) (p : Bits) (x : Sym) : Prop :=
  ∃ j w, descend node i p = some j ∧ node[j]? = some (.leaf x w)

theorem leafAt_of_leaf {y : Sym} {w : Wgt} (h : node[i]? = some (.leaf y w)) (p : Bits) (x : Sym) :
    LeafAt node i p x ↔ p = [] ∧ x = y := by
  cases p with
  | nil => simp [LeafAt, h, eq_comm]
  | cons t p => simp [LeafAt, descend_cons, childOf_leaf h]

section
variable {l r : NodeIdx} {w : Wgt} (h : node[i]? = some (.inner w l r))
include h

theorem not_leafAt_nil_of_inner (x : Sym) : ¬LeafAt node i [] x := by
  simp [LeafAt, h]

theorem leafAt_cons_of_inner (t : Bool) (p : Bits) (x : Sym) :
    LeafAt node i (t :: p) x ↔ LeafAt node (if t then r else l) p x := by
  simp [LeafAt, descend_cons, childOf_inner h]

/-- The paths a walk from an internal node records: left before right (R142). -/
theorem walkTree_inner_nil (fuel : Nat) (L : List (Sym × Bits)) :
    walkTree node (fuel + 1) i [] = some L ↔ ∃ a b, walkTree node fuel l [] = some a ∧
      walkTree node fuel r [] = some b ∧
      L = a.map (fun x => (x.1, false :: x.2)) ++ b.map (fun x => (x.1, true :: x.2)) := by
  rw [walkTree_inner h, List.nil_append, List.nil_append, walkTree_path node fuel l, walkTree_path node fuel r]
  cases walkTree node fuel l [] <;> cases walkTree node fuel r [] <;> simp

end

theorem LeafAt.of_descend_append {j : NodeIdx} {p q : Bits} {x : Sym} (hd : descend node i p = some j) :
    LeafAt node i (p ++ q) x ↔ LeafAt node j q x := by
  simp [LeafAt, descend_append, hd]

/-- A path that ends at a leaf does not go on (R144). -/
theorem LeafAt.append_unique {p q : Bits} {x y : Sym} (hx : LeafAt node i p x) (hy : LeafAt node i (p ++ q) y) :
    q = [] ∧ x = y := by
  obtain ⟨j, w, hd, hj⟩ := hx
  obtain ⟨hq, hyx⟩ := (leafAt_of_leaf hj q y).mp ((LeafAt.of_descend_append hd).mp hy)
  exact ⟨hq, hyx.symm⟩

/-- The walk of `GEN` records exactly the paths that end at a leaf, each with the leaf's symbol (R141, R143). -/
theorem mem_walkTree_iff {fuel : Nat} {L : List (Sym × Bits)} (hL : walkTree node fuel i [] = some L) (x : Sym)
    (p : Bits) : (x, p) ∈ L ↔ LeafAt node i p x := by
  induction fuel generalizing i L p with
  | zero => cases hL
  | succ fuel ih =>
    rcases walkTree_cases hL with ⟨y, w, hi, rfl⟩ | ⟨w, l, r, -, -, hi, -⟩
    · rw [leafAt_of_leaf hi, List.mem_singleton, Prod.mk.injEq, and_comm]
    · obtain ⟨a, b, ha, hb, rfl⟩ := (walkTree_inner_nil hi fuel L).mp hL
      cases p with
      | nil => simp [not_leafAt_nil_of_inner hi]
      | cons t p =>
        rw [leafAt_cons_of_inner hi]
        cases t with
        | false => simpa using ih ha p
        | true => simpa using ih hb p

/-- Below every entry stands a leaf, children having smaller indices (R48). -/
theorem InnersOk.exists_leafAt {n : Nat} (h : InnersOk node n) {i : Nat} {e : NodeEntry} (hi : node[i]? = some e) :
    ∃ p x, LeafAt node i p x := by
  induction i using Nat.strong_induction_on generalizing e with
  | _ i ih =>
    cases e with
    | leaf x w => exact ⟨[], x, (leafAt_of_leaf hi [] x).mpr ⟨rfl, rfl⟩⟩
    | inner w l r =>
      obtain ⟨-, hl, -⟩ := h.children_lt hi
      obtain ⟨c, e', hc, he'⟩ := h.exists_child (by rw [hi]; rfl) false
      cases (childOf_inner hi false).symm.trans hc
      obtain ⟨p, x, hp⟩ := ih l hl he'
      exact ⟨false :: p, x, (leafAt_cons_of_inner hi false p x).mpr hp⟩

end

/-! ### The fields of a codeword -/

/-- Bit `k` of a codeword is bit `len` − 1 − `k` of `val` (R50). -/
theorem Codeword.bits_getElem? (c : Codeword) {k : Nat} (hk : k < c.len.toNat) :
    c.bits[k]? = some (c.val.getLsbD (c.len.toNat - 1 - k)) := by
  simp [Codeword.bits, hk]

/-- For a path of at most 127 turns `val` holds the whole value (R143). -/
theorem codewordOf_val_toNat {p : Bits} (h : p.length ≤ 127) : (codewordOf p).val.toNat = bitsValue p := by
  rw [codewordOf, BitVec.toNat_ofNat,
    Nat.mod_eq_of_lt ((bitsValue_lt p).trans_le (Nat.pow_le_pow_right Nat.two_pos h))]

/-- The shift of R253 takes the first bits of the longer codeword. -/
theorem Codeword.bits_prefix_of_ushiftRight_eq {c d : Codeword} (hle : c.len.toNat ≤ d.len.toNat)
    (h : d.val >>> (d.len.toNat - c.len.toNat) = c.val) : c.bits <+: d.bits := by
  rw [List.prefix_iff_getElem?]
  intro k hk
  rw [Codeword.bits_length] at hk
  rw [← List.getElem?_eq_getElem (by simpa using hk), c.bits_getElem? hk, d.bits_getElem? (by omega), ← h,
    BitVec.getLsbD_ushiftRight]
  congr 2
  omega

/-! ### Codewords and leaves -/

section
variable {s : State} (h : Inv s) (hphase : s.phase = .codes)
include h hphase

/-- A codeword is what `GEN` records for its bits, and these are at most `NLEAF` − 1 (R143, R145). -/
theorem Inv.codeword_eq {x : Sym} {c : Codeword} (hc : getSym s.code x = some c) :
    c = codewordOf c.bits ∧ c.bits.length ≤ s.nleaf - 1 := by
  obtain ⟨p, rfl, -, hle⟩ := h.codeword_path hphase hc
  rw [codewordOf_bits p (hle.trans (by have := nleaf_le s h; omega))]
  exact ⟨rfl, hle⟩

/-- The bits of a codeword lead from the root to a leaf of its symbol (R143). -/
theorem Inv.leafAt_codeword {x : Sym} {c : Codeword} (hc : getSym s.code x = some c) :
    ∃ r, s.root = some r ∧ LeafAt s.node r c.bits x := by
  obtain ⟨paths, hpaths, hcode⟩ := Option.map_eq_some_iff.mp (h.code.2 hphase)
  rw [← hcode] at hc
  obtain ⟨p, hp, rfl⟩ := getSym_codeTable hc
  obtain ⟨-, hle⟩ := h.path_length (.inr hphase) hpaths _ hp
  rw [codewordOf_bits p (hle.trans (by have := nleaf_le s h; omega))]
  cases hroot : s.root with
  | none =>
    rw [hroot, treePaths] at hpaths
    cases hpaths
    cases hp
  | some r =>
    rw [hroot, treePaths] at hpaths
    exact ⟨r, rfl, (mem_walkTree_iff hpaths x p).mp hp⟩

/-- Each leaf's path is a codeword, for the leaves have distinct symbols (R49, R141). -/
theorem Inv.exists_codeword_of_leafAt {r : NodeIdx} (hroot : s.root = some r) {x : Sym} {p : Bits}
    (hp : LeafAt s.node r p x) : ∃ c, getSym s.code x = some c ∧ c.bits = p := by
  obtain ⟨paths, hpaths, hperm⟩ := h.exists_treePaths (.inr hphase)
  have hcode := h.code.2 hphase
  rw [hpaths, Option.map_some, Option.some.injEq] at hcode
  have hmem : (x, p) ∈ paths := by
    rw [hroot, treePaths] at hpaths
    exact (mem_walkTree_iff hpaths x p).mpr hp
  obtain ⟨c, hc⟩ := Option.isSome_iff_exists.mp
    ((getSym_codeTable_isSome paths x).mpr (List.mem_map.mpr ⟨_, hmem, rfl⟩))
  obtain ⟨q, hq, rfl⟩ := getSym_codeTable hc
  obtain ⟨-, -, hsyms, -⟩ := h.leafList
  cases List.inj_on_of_nodup_map (hperm.nodup_iff.mpr hsyms) hmem hq rfl
  obtain ⟨-, hle⟩ := h.path_length (.inr hphase) hpaths _ hmem
  exact ⟨_, hcode ▸ hc, codewordOf_bits p (hle.trans (by have := nleaf_le s h; omega))⟩

end

/-- Settles O25: a codeword is as long as its path, and there are at most 128 leaves. -/
theorem codewordLengthBounds : Obligations.CodewordLengthBounds := by
  intro s h hphase x c hc
  obtain ⟨-, hle⟩ := h.codeword_eq hphase hc
  have hpos := List.length_pos_iff.mpr (h.codeword_bits_ne_nil hphase hc)
  have := nleaf_le s h
  rw [Codeword.bits_length] at hpos hle
  omega

/-- Settles O23: a codeword is the one `GEN` records for the path to its leaf. -/
theorem codewordIsThePathToItsLeaf : Obligations.CodewordIsThePathToItsLeaf := by
  intro s h hphase x c hc
  obtain ⟨hcode, hle⟩ := h.codeword_eq hphase hc
  obtain ⟨r, hroot, j, w, hd, hj⟩ := h.leafAt_codeword hphase hc
  have hval : c.val.toNat = bitsValue c.bits := by
    rw [hcode, codewordOf_val_toNat (by have := nleaf_le s h; omega), ← hcode]
  refine ⟨?_, hval, c.bits_length, fun k hk => c.bits_getElem? hk, r, j, w, hroot, hd, hj⟩
  rw [hval, ← c.bits_length]
  exact bitsValue_lt _

/-- Both codewords being paths from the root to a leaf, the one cannot go on as the other (R144). -/
theorem Inv.not_bits_prefix {s : State} (h : Inv s) (hphase : s.phase = .codes) {x y : Sym} {c d : Codeword}
    (hxy : x ≠ y) (hc : getSym s.code x = some c) (hd : getSym s.code y = some d) : ¬c.bits <+: d.bits := by
  rintro ⟨q, hq⟩
  obtain ⟨r, hroot, hx⟩ := h.leafAt_codeword hphase hc
  obtain ⟨r', hroot', hy⟩ := h.leafAt_codeword hphase hd
  cases hroot.symm.trans hroot'
  rw [← hq] at hy
  exact hxy (hx.append_unique hy).2

/-- Settles O24: equal codewords, and those R253 compares on their fields, would be prefixes. -/
theorem codesArePrefixFree : Obligations.CodesArePrefixFree := by
  intro s h hphase x y c d hxy hc hd
  have hprefix := h.not_bits_prefix hphase hxy hc hd
  exact ⟨hprefix, fun heq => hprefix (heq ▸ List.prefix_rfl),
    fun hle hshift => hprefix (Codeword.bits_prefix_of_ushiftRight_eq hle hshift)⟩

/-! ### Every payload decodes (R170) -/

/-- Where one more symbol has a codeword, its bits follow the message's (R160). -/
theorem payloadOf_concat {code : Vector (Option Codeword) 128} {S : List Sym} {R : Bits} {x : Sym} {c : Codeword}
    (hS : payloadOf code S = some R) (hx : getSym code x = some c) :
    payloadOf code (S ++ [x]) = some (R ++ c.bits) := by
  induction S generalizing R with
  | nil =>
    cases hS
    simp [payloadOf, hx]
  | cons y S ih =>
    rw [payloadOf] at hS
    split at hS
    · cases hS
    next d hy =>
      obtain ⟨R, hR, rfl⟩ := Option.map_eq_some_iff.mp hS
      simp [payloadOf, hy, ih hR]

section
variable {node : List NodeEntry} {r i c : NodeIdx} {t : Bool} (hc : childOf node (some i) t = some c)
include hc

theorem walkBit_to_leaf {x : Sym} {v : Wgt} (he : node[c]? = some (.leaf x v)) (notree : Bool) (S : List Sym) :
    walkBit node (some r) ⟨some i, notree, S⟩ t = some ⟨some r, notree, S ++ [x]⟩ := by
  simp [walkBit, hc, he]

theorem walkBit_to_inner {a b : NodeIdx} {v : Wgt} (he : node[c]? = some (.inner v a b)) (notree : Bool)
    (S : List Sym) : walkBit node (some r) ⟨some i, notree, S⟩ t = some ⟨some c, notree, S⟩ := by
  simp [walkBit, hc, he]

end

theorem walkBits_concat {node : List NodeEntry} {root : Option NodeIdx} {w w' : Walk} {P : Bits} {t : Bool}
    (hP : walkBits node root w P = some w') : walkBits node root w (P ++ [t]) = walkBit node root w' t := by
  rw [walkBits_append, hP, Option.bind_some, walkBits]
  cases walkBit node root w' t <;> rfl

/-- The payload `P` is the codewords of `S` and then `tail`, and the walk from the root `r` over `P` has emitted `S` and
stands where `tail` leads, at the internal node `i` (R170). -/
structure Decodes (s : State) (r : NodeIdx) (P : Bits) (S : List Sym) (tail : Bits) (i : NodeIdx) : Prop where
  payload : ∃ R, payloadOf s.code S = some R ∧ P = R ++ tail
  walk : walkBits s.node (some r) ⟨some r, false, []⟩ P = some ⟨some i, false, S⟩
  descend_eq : descend s.node r tail = some i
  inner : (s.node[i]?).map NodeEntry.isLeaf = some false

section
variable {s : State} (h : Inv s) (hphase : s.phase = .codes) {r : NodeIdx} (hroot : s.root = some r)
include h hphase hroot

theorem Inv.decodes_nil : Decodes s r [] [] [] r where
  payload := ⟨[], rfl, rfl⟩
  walk := rfl
  descend_eq := rfl
  inner := by
    obtain ⟨-, hinner⟩ := h.cursorOk_root (.inr hphase)
    exact hinner r hroot

/-- One more bit completes a codeword or makes the partial one longer. -/
theorem Inv.decodes_concat {P tail : Bits} {S : List Sym} {i : NodeIdx} (hP : Decodes s r P S tail i) (t : Bool) :
    ∃ S' tail' i', Decodes s r (P ++ [t]) S' tail' i' := by
  obtain ⟨R, hR, hPR⟩ := hP.payload
  obtain ⟨j, e, hj, he⟩ := (h.innersOk_of_built (.inr hphase)).exists_child hP.inner t
  have hdescend : descend s.node r (tail ++ [t]) = some j := by
    simp [descend_append, hP.descend_eq, descend_cons, hj]
  cases e with
  | leaf x v =>
    obtain ⟨c, hc, hbits⟩ := h.exists_codeword_of_leafAt hphase hroot ⟨j, v, hdescend, he⟩
    refine ⟨S ++ [x], [], r, ⟨_, payloadOf_concat hR hc, by simp [hPR, hbits]⟩, ?_, rfl,
      (h.decodes_nil hphase hroot).inner⟩
    rw [walkBits_concat hP.walk, walkBit_to_leaf hj he]
  | inner v a b =>
    refine ⟨S, tail ++ [t], j, ⟨R, hR, by simp [hPR]⟩, ?_, hdescend, by simp [he, NodeEntry.isLeaf]⟩
    rw [walkBits_concat hP.walk, walkBit_to_inner hj he]

theorem Inv.exists_decodes (P : Bits) : ∃ S tail i, Decodes s r P S tail i := by
  induction P using List.reverseRecOn with
  | nil => exact ⟨[], [], r, h.decodes_nil hphase hroot⟩
  | append_singleton P t ih =>
    obtain ⟨S, tail, i, hP⟩ := ih
    exact h.decodes_concat hphase hroot hP t

/-- What leads to an internal node goes on to some leaf below it, so it is a proper prefix of a codeword. -/
theorem Inv.exists_codeword_beyond {tail : Bits} {i : NodeIdx} (hd : descend s.node r tail = some i)
    (hinner : (s.node[i]?).map NodeEntry.isLeaf = some false) :
    ∃ x c, getSym s.code x = some c ∧ tail <+: c.bits ∧ tail ≠ c.bits := by
  obtain ⟨e, he, hleaf⟩ := Option.map_eq_some_iff.mp hinner
  obtain ⟨q, x, hq⟩ := (h.innersOk_of_built (.inr hphase)).exists_leafAt he
  obtain ⟨c, hc, hbits⟩ := h.exists_codeword_of_leafAt hphase hroot ((LeafAt.of_descend_append hd).mpr hq)
  refine ⟨x, c, hc, hbits ▸ List.prefix_append _ _, fun heq => ?_⟩
  obtain rfl : q = [] := by simpa [← heq] using hbits
  obtain ⟨j, w, hij, hj⟩ := hq
  cases hij
  cases he.symm.trans hj
  cases hleaf

end

/-- Settles O38: the walk decodes bit by bit; it is back at the root only with no bit over, since every turn leads to a
smaller index. -/
theorem everyPayloadIsCodewordsAndAPartialOne : Obligations.EveryPayloadIsCodewordsAndAPartialOne := by
  intro s P h hphase hne
  obtain ⟨r, hroot⟩ := Option.ne_none_iff_exists'.mp hne
  obtain ⟨S, tail, i, hP⟩ := h.exists_decodes hphase hroot P
  obtain ⟨R, hR, hPR⟩ := hP.payload
  refine ⟨S, R, tail, _, hR, hPR, h.exists_codeword_beyond hphase hroot hP.descend_eq hP.inner,
    hroot ▸ hP.walk, rfl, ?_⟩
  have hd := hP.descend_eq
  rw [hroot]
  cases tail with
  | nil => simpa using hd.symm
  | cons t ts => simpa using ((h.innersOk_of_built (.inr hphase)).descend_lt hd).ne

end Sys2Proof.Machine

/-! ## Proofs: the bit packer, encode path (spec/43_bit_packer_encode.md) -/

namespace Sys2Proof.Machine

open Sys2Proof

/-! ### `ENC_SYM` (R151 to R154) -/

/-- The word of R151: opcode 0x40, the symbol in `a`. -/
theorem encode_encSym_toNat (x : Sym) : (encode (.encSym x)).toNat = 0x4000000000000000 + x.toNat * 2 ^ 32 := by
  simp [encode_toNat, Instr.mnemonic, opcodeOf, Instr.aField, symField_toNat, Instr.wField]

/-- `ERRINFO` of a fault of `ENC_SYM` as a number (R204): opcode × 256 + symbol. -/
theorem encSym_errinfo (x : Sym) :
    (opcodeOf .ENC_SYM ++ symField x : BitVec 16) = BitVec.ofNat 16 (0x40 * 256 + x.toNat) := by
  apply BitVec.eq_of_toNat_eq
  have hx := x.isLt
  rw [BitVec.toNat_append, symField_toNat, ← Nat.shiftLeft_add_eq_or_of_lt (by omega), Nat.shiftLeft_eq,
    BitVec.toNat_ofNat, Nat.mod_eq_of_lt (by omega)]
  rfl

theorem State.faulted_encSym (s : State) (f : RspCode) (x : Sym) :
    s.faulted f (opcodeOf .ENC_SYM) (symField x) =
      { s with fault := true, errcode := f.byte, errinfo := BitVec.ofNat 16 (0x40 * 256 + x.toNat) } := by
  rw [State.faulted, encSym_errinfo]

section
variable {x : Sym} {s : State} (hf : s.fault = false) (hseq : seqEncode s)
include hf hseq

/-- R153. -/
theorem execEncSym_noCodeword (hx : getSym s.code x = none) :
    execEncSym x s = raise .fltNocode (opcodeOf .ENC_SYM) (symField x) s := by
  rw [execEncSym, working_accepted _ _ _ hf hseq, hx]

variable {c : Codeword} (hc : getSym s.code x = some c)
include hc

/-- R154. -/
theorem execEncSym_noRoom (hfull : s.b.length + c.len.toNat > s.bitbufMax.toNat) :
    execEncSym x s = raise .fltBufovf (opcodeOf .ENC_SYM) (symField x) s := by
  simp only [execEncSym, working_accepted _ _ _ hf hseq, hc]
  exact if_pos hfull

/-- R151. -/
theorem execEncSym_fits (hfits : s.b.length + c.len.toNat ≤ s.bitbufMax.toNat) :
    execEncSym x s =
      respond (BitVec.ofNat 56 (s.b.length + c.len.toNat)) { s with b := s.b ++ c.bits, act := .encoding } := by
  simp only [execEncSym, working_accepted _ _ _ hf hseq, hc]
  rw [if_neg (show ¬s.bitlen + c.len.toNat > s.bitbufMax.toNat from hfits.not_gt), List.length_append,
    Codeword.bits_length]

end

/-- Settles O27: the checks of R206 come first, then the codeword and the room for it. -/
theorem encSymAppendsTheCodeword : Obligations.EncSymAppendsTheCodeword := by
  refine fun x s => ⟨encode_encSym_toNat x, fun hf => ?_, fun hf hseq => ?_, fun hf hp ha =>
    ⟨fun hx => ?_, fun c hc => ⟨fun hfull => ?_, execEncSym_fits hf ⟨hp, ha⟩ hc⟩⟩⟩
  · exact working_faulted _ s _ hf
  · exact working_out_of_sequence _ s _ hf hseq
  · exact (execEncSym_noCodeword hf ⟨hp, ha⟩ hx).trans (by rw [raise_eq, State.faulted_encSym]; rfl)
  · exact (execEncSym_noRoom hf ⟨hp, ha⟩ hc hfull).trans (by rw [raise_eq, State.faulted_encSym]; rfl)

/-! ### The fault state (R204, R214) -/

/-- No effect but the one of a faulting `ENC_SYM` sets `FAULT`. -/
theorem Effect.eq_encSym_of_fault {i : Instr} {s u : State} (h : Effect i s u) (hs : s.fault = false)
    (hu : u.fault = true) : ∃ x, i = .encSym x := by
  cases h with
  | encFault x => exact ⟨x, rfl⟩
  | encSym x => exact ⟨x, rfl⟩
  | clear => cases hu
  | quiet | faSym | faFin | leafPush | buildNone | build | gen | encFin | decByte | decFin =>
    cases hs.symm.trans hu

/-- Settles O48: only `ENC_SYM` can set `FAULT`, and of its three outcomes only the fault does. -/
theorem onlyEncSymFaultsAndPrecisely : Obligations.OnlyEncSymFaultsAndPrecisely := by
  intro i s t hs hexec ht
  obtain ⟨u, r, heffect, rfl⟩ := answered_of_exec hexec
  obtain ⟨x, rfl⟩ := heffect.eq_encSym_of_fault hs ht
  rcases execEncSym_cases x s _ hexec with ⟨e, -, -, -, hu⟩ | ⟨-, -, f, hcode, hu⟩ | ⟨-, -, c, -, -, hu⟩
  · cases hs.symm.trans (hu ▸ ht)
  · exact ⟨x, f, rfl, hcode, by rw [hu, State.faulted_encSym]⟩
  · cases hs.symm.trans (hu ▸ ht)

/-- R206 step 3: in the fault state every working command is refused. -/
theorem exec_working_of_fault {i : Instr} (hi : i.working = true) {s : State} (hf : s.fault = true) :
    exec i s = .next (s.answer (rspWord .errFaulted 0#56)) := by
  cases i with
  | faSym _ | faFin | leafPush _ _ | build | gen | encSym _ | encFin | decByte _ | decFin =>
    exact working_faulted _ s _ hf
  | nop | clear | rdCsr _ | rdNode _ | rdCode _ _ | rdCnt _ => cases hi

theorem working_or_readOnly_of_ne_clear {i : Instr} (hi : i ≠ .clear) : i.working = true ∨ i.readOnly = true := by
  cases i with
  | clear => exact absurd rfl hi
  | faSym _ | faFin | leafPush _ _ | build | gen | encSym _ | encFin | decByte _ | decFin => exact .inl rfl
  | nop | rdCsr _ | rdNode _ | rdCode _ _ | rdCnt _ => exact .inr rfl

/-- In the fault state a command other than `CLEAR` only answers. -/
theorem exec_answers_of_fault {i : Instr} (hi : i ≠ .clear) {s : State} (hf : s.fault = true) :
    ∃ r, exec i s = .next (s.answer r) := by
  rcases working_or_readOnly_of_ne_clear hi with hi | hi
  · exact ⟨_, exec_working_of_fault hi hf⟩
  · exact exec_readOnly_cases i hi s

/-- Settles O28, by induction on the commands: each adds one response to a state that stays faulted. -/
theorem faultHoldsUntilClear : Obligations.FaultHoldsUntilClear := by
  intro is
  induction is with
  | nil => exact fun s _ _ => ⟨[], rfl, by rw [execAll, List.append_nil]⟩
  | cons i is ih =>
    intro s hf hclear
    rw [List.mem_cons, not_or] at hclear
    obtain ⟨hi, his⟩ := hclear
    obtain ⟨r, hr⟩ := exec_answers_of_fault (Ne.symm hi) hf
    obtain ⟨rs, hlen, hrun⟩ := ih (s.answer r) hf his
    refine ⟨r :: rs, congrArg Nat.succ hlen, ?_⟩
    simp only [execAll, hr, hrun, State.answer_rspOut, List.append_assoc, List.singleton_append]
    rfl

/-! ### The framed message of `ENC_FIN` (R155 to R160) -/

/-- R156: `padding` − 1 zeros, a one, and `B`. -/
theorem framed_eq (B : Bits) : framed B = List.replicate (7 - B.length % 8) false ++ [true] ++ B := by
  rw [framed, padding, Nat.sub_right_comm]

/-- The padding fills `B` up to whole bytes, by at least one bit (R155, R156). -/
theorem framed_length (B : Bits) : (framed B).length = 8 * (B.length / 8 + 1) := by
  simp only [framed_eq, List.length_append, List.length_replicate, List.length_singleton]
  omega

theorem messageBytes_eq (B : Bits) : messageBytes B = packBytes (B.length / 8 + 1) (framed B) := by
  rw [messageBytes, framed_length, Nat.mul_div_cancel_left _ (by decide)]

theorem messageBytes_length (B : Bits) : (messageBytes B).length = B.length / 8 + 1 := by
  rw [messageBytes_eq, packBytes_length]

theorem unpack_messageBytes (B : Bits) : (messageBytes B).flatMap bits8 = framed B := by
  rw [messageBytes_eq, unpack_packBytes _ _ (framed_length B)]

/-- Bytes that unpack to fewer than eight zeros and then a one do not begin with the byte 0. -/
theorem head?_ne_zero_of_unpack {bytes : List Byte} {k : Nat} {B : Bits} (hk : k ≤ 7)
    (h : bytes.flatMap bits8 = List.replicate k false ++ [true] ++ B) : bytes.head? ≠ some 0#8 := by
  intro hhead
  obtain ⟨rest, rfl⟩ := List.head?_eq_some_iff.mp hhead
  have hbit : (bits8 0#8)[k]? = some true := by
    rw [← List.getElem?_append_left (l₂ := rest.flatMap bits8) (by rw [bits8_length]; omega), ← List.flatMap_cons, h]
    simp
  exact absurd (List.mem_of_getElem? hbit) (by decide)

/-- A message of whole bytes gets the byte 0x01 in front (R159). -/
theorem messageBytes_of_whole {B : Bits} (h : B.length % 8 = 0) :
    messageBytes B = 0x01#8 :: packBytes (B.length / 8) B := by
  have hbyte : byteOf [false, false, false, false, false, false, false, true] = 0x01#8 := by decide
  rw [messageBytes_eq, framed_eq, h, packBytes, ← hbyte]
  rfl

theorem execEncFin_accepted {s : State} (hf : s.fault = false) (hseq : seqEncode s) :
    execEncFin s = .next (State.answer
      { s with outBytes := s.outBytes ++ messageBytes s.b, b := [], act := .idle }
      (rspWord .ok (BitVec.ofNat 56 (messageBytes s.b).length))) := by
  rw [execEncFin, working_accepted _ _ _ hf hseq]
  rfl

/-- Settles O29: the bytes packed from the framed message unpack to it (R72). -/
theorem encFinEmitsTheFramedMessage : Obligations.EncFinEmitsTheFramedMessage := by
  refine fun s => ⟨rfl, fun hf => ?_, fun hf hseq => ?_, fun hf hp ha => ?_⟩
  · exact working_faulted _ s _ hf
  · exact working_out_of_sequence _ s _ hf hseq
  · have hunpack := (unpack_messageBytes s.b).trans (framed_eq s.b)
    exact ⟨messageBytes s.b, execEncFin_accepted hf ⟨hp, ha⟩, messageBytes_length s.b,
      head?_ne_zero_of_unpack (by omega) hunpack, hunpack⟩

/-- Settles O30: the empty `B` is the case of no whole byte. -/
theorem wholeBytesGetAFullPaddingByte : Obligations.WholeBytesGetAFullPaddingByte := by
  refine fun s hf hp ha => ⟨fun hb => ?_, fun hlen => ?_⟩
  · have hbytes : messageBytes s.b = [0x01#8] := by rw [hb, messageBytes_of_whole rfl]; rfl
    exact (execEncFin_accepted hf ⟨hp, ha⟩).trans (by rw [hbytes, ← hb]; rfl)
  · refine ⟨_, packBytes (s.b.length / 8) s.b, execEncFin_accepted hf ⟨hp, ha⟩, ?_, unpack_packBytes _ _ (by omega)⟩
    exact congrArg (s.outBytes ++ ·) (messageBytes_of_whole hlen)

/-! ### Encoding a whole message (R160, R254) -/

theorem payloadOf_cons_eq_some {code : Vector (Option Codeword) 128} {x : Sym} {S : List Sym} {P : Bits}
    (h : payloadOf code (x :: S) = some P) :
    ∃ c Q, getSym code x = some c ∧ payloadOf code S = some Q ∧ P = c.bits ++ Q := by
  rw [payloadOf] at h
  split at h
  · cases h
  · rename_i c hc
    obtain ⟨Q, hQ, rfl⟩ := Option.map_eq_some_iff.mp h
    exact ⟨c, Q, hc, hQ, rfl⟩

/-- The payload is as long as its codewords together (R254). -/
theorem payloadOf_length {code : Vector (Option Codeword) 128} {S : List Sym} {P : Bits}
    (h : payloadOf code S = some P) :
    P.length = (S.map fun x => ((getSym code x).map fun c => c.len.toNat).getD 0).sum := by
  induction S generalizing P with
  | nil =>
    cases h
    rfl
  | cons x S ih =>
    obtain ⟨c, Q, hc, hQ, rfl⟩ := payloadOf_cons_eq_some h
    simp [hc, ih hQ]

/-- Where the whole payload fits, every `ENC_SYM` of the message completes, and together they append it. -/
theorem execOk_encSyms {S : List Sym} {s : State} {P : Bits} (hf : s.fault = false) (hseq : seqEncode s)
    (hP : payloadOf s.code S = some P) (hfits : s.b.length + P.length ≤ s.bitbufMax.toNat) :
    ∃ rs ds, ds.length = S.length ∧ execOk (S.map .encSym) s =
      some ({ s with b := s.b ++ P, act := if S = [] then s.act else .encoding, rspOut := rs }, ds) := by
  induction S generalizing s P with
  | nil =>
    cases hP
    exact ⟨s.rspOut, [], rfl, by simp [execOk]⟩
  | cons x S ih =>
    obtain ⟨c, Q, hc, hQ, rfl⟩ := payloadOf_cons_eq_some hP
    rw [List.length_append, Codeword.bits_length] at hfits
    have hhead : exec (.encSym x) s = _ := execEncSym_fits hf hseq hc (by omega)
    obtain ⟨rs, ds, hlen, hrun⟩ := ih
      (s := State.answer { s with b := s.b ++ c.bits, act := .encoding }
        (rspWord .ok (BitVec.ofNat 56 (s.b.length + c.len.toNat))))
      hf ⟨hseq.1, .inr rfl⟩ hQ (by simpa [Nat.add_assoc] using hfits)
    refine ⟨rs, BitVec.ofNat 56 (s.b.length + c.len.toNat) :: ds, congrArg Nat.succ hlen, ?_⟩
    rw [List.map_cons, execOk_cons _ _ _ _ _ hhead, hrun]
    simp [State.answer]

/-- Settles O31: the run by induction on the message, the length by induction on its payload. -/
theorem encodingAddsTheCodewordLengths : Obligations.EncodingAddsTheCodewordLengths := by
  intro S s P hf hp ha hP hfits
  obtain ⟨rs, ds, hlen, hrun⟩ := execOk_encSyms hf ⟨hp, ha⟩ hP hfits
  exact ⟨⟨_, ds, hrun, hlen, rfl⟩, payloadOf_length hP⟩

/-! ### What `ENC_SYM` and `ENC_FIN` leave unchanged -/

/-- Settles O58: the fields each command writes stand in its effect. -/
theorem encoderFrame : Obligations.EncoderFrame := by
  refine ⟨fun x s t hexec => ?_, fun s t hexec => ?_⟩
  · obtain ⟨u, r, h, rfl⟩ := answered_of_exec hexec
    cases h with
    | quiet => exact .inl rfl
    | encFault => exact .inr rfl
    | encSym => exact .inl rfl
  · obtain ⟨u, r, h, rfl⟩ := answered_of_exec hexec
    cases h <;> rfl

end Sys2Proof.Machine

/-! ## Proofs: the bit unpacker and the decode walk (spec/44_bit_unpacker_decode.md) -/

namespace Sys2Proof.Machine

open Sys2Proof

/-! ### The sentinel (R168, R169) -/

@[simp] theorem bits8_getElem (b : Byte) {k : Nat} (h : k < (bits8 b).length) : (bits8 b)[k] = b.getLsbD (7 - k) := by
  simp [bits8]

theorem true_mem_bits8_iff (b : Byte) : true ∈ bits8 b ↔ b ≠ 0#8 := by
  constructor
  · rintro h rfl
    exact absurd h (by decide)
  · intro hb
    by_contra hno
    refine hb (BitVec.eq_of_getLsbD_eq fun i hi => ?_)
    have hbit : (bits8 b)[7 - i]'(by simp; omega) = b.getLsbD i := by
      rw [bits8_getElem, Nat.sub_sub_self (by omega)]
    rw [BitVec.getLsbD_zero, ← Bool.not_eq_true]
    exact fun htrue => hno (htrue ▸ hbit ▸ List.getElem_mem _)

theorem findIdx_sentinel (p : Nat) (Q : Bits) : (List.replicate p false ++ true :: Q).findIdx id = p := by
  induction p with
  | zero => rfl
  | succ p ih => simp [List.replicate_succ, List.findIdx_cons, ih]

/-- What follows the first 1 bit is the payload (R168). -/
theorem firstPayload_of_bits8_eq {b : Byte} {p : Nat} {Q : Bits} (h : bits8 b = List.replicate p false ++ true :: Q) :
    firstPayload b = Q := by
  have hb : b ≠ 0#8 := (true_mem_bits8_iff b).mp (by simp [h])
  rw [firstPayload, if_neg hb, h, findIdx_sentinel, List.drop_append]
  simp

/-- The byte's value tells where its first 1 bit stands. -/
theorem bits8_eq_sentinel {b : Byte} {p : Nat} (hp : p < 8) (hle : 2 ^ (7 - p) ≤ b.toNat)
    (hlt : b.toNat < 2 ^ (8 - p)) : bits8 b = List.replicate p false ++ true :: (bits8 b).drop (p + 1) := by
  have hlen : p < (bits8 b).length := by rwa [bits8_length]
  have hone : (bits8 b)[p] = true := by
    rw [bits8_getElem]
    exact Nat.testBit_of_two_pow_le_and_two_pow_add_one_gt hle (by rwa [show 7 - p + 1 = 8 - p by omega])
  have hzeros : (bits8 b).take p = List.replicate p false := by
    refine List.eq_replicate_iff.mpr ⟨List.length_take_of_le hlen.le, fun t ht => ?_⟩
    obtain ⟨k, hk, rfl⟩ := List.mem_take_iff_getElem.mp ht
    rw [bits8_getElem]
    exact Nat.testBit_lt_two_pow (hlt.trans_le (Nat.pow_le_pow_right Nat.two_pos (by omega)))
  rw [← hzeros, ← hone, List.getElem_cons_drop, List.take_append_drop]

theorem firstPayload_length_le (b : Byte) : (firstPayload b).length ≤ 7 := by
  unfold firstPayload
  split <;> simp

theorem State.openByte_idle (s : State) (b : Byte) (h : s.act = .idle) :
    s.openByte b =
      ({ s with act := .decoding, nosent := decide (b = 0#8), trunc := false, dempty := false, notree := false },
        firstPayload b) := if_pos h

theorem State.openByte_not_idle (s : State) (b : Byte) (h : s.act ≠ .idle) : s.openByte b = (s, bits8 b) := if_neg h

/-- Settles O32: the bits before index `p` are zeros, so the payload is what follows that index. -/
theorem sentinelIsRemoved : Obligations.SentinelIsRemoved := by
  refine ⟨fun s b => ⟨fun h => ?_, fun h => ?_⟩, fun b => ⟨bits8_length b, fun k hk => ?_⟩, rfl,
    fun b p hp hle hlt => ?_⟩
  · rw [s.openByte_idle b h]
  · rw [s.openByte_not_idle b h]
  · rw [List.getElem?_eq_getElem (by rwa [bits8_length]), bits8_getElem]
  · have hbits := bits8_eq_sentinel hp hle hlt
    rw [firstPayload_of_bits8_eq hbits]
    exact ⟨hbits, by simp⟩

/-! ### The walk of a byte's payload (R166, R170, R174) -/

theorem walkBits_cons (node : List NodeEntry) (root : Option NodeIdx) (w : Walk) (t : Bool) (ts : Bits) :
    walkBits node root w (t :: ts) = (walkBit node root w t).bind fun w' => walkBits node root w' ts := by
  rw [walkBits]
  cases walkBit node root w t <;> rfl

/-- Everything one payload bit can do: set `NOTREE`, descend to an internal node, or emit the symbol of a leaf. -/
theorem walkBit_cases {node : List NodeEntry} {root : Option NodeIdx} {w w' : Walk} {t : Bool}
    (h : walkBit node root w t = some w') :
    (root = none ∧ w' = { w with notree := true }) ∨ (root ≠ none ∧ ∃ c, w' = { w with cur := some c }) ∨
    (root ≠ none ∧ ∃ x, w' = { w with cur := root, syms := w.syms ++ [x] }) := by
  unfold walkBit at h
  split at h
  · exact .inl ⟨rfl, (Option.some.inj h).symm⟩
  · split at h
    · cases h
    · split at h
      · cases h
      · exact .inr (.inr ⟨nofun, _, (Option.some.inj h).symm⟩)
      · exact .inr (.inl ⟨nofun, _, (Option.some.inj h).symm⟩)

/-- Each payload bit emits at most one symbol (R177). -/
theorem walkBits_syms_length_le {node : List NodeEntry} {root : Option NodeIdx} {w w' : Walk} {S : Bits}
    (h : walkBits node root w S = some w') : w'.syms.length ≤ w.syms.length + S.length := by
  induction S generalizing w with
  | nil =>
    cases h
    rfl
  | cons t ts ih =>
    obtain ⟨w₁, h₁, h₂⟩ := Option.bind_eq_some_iff.mp (walkBits_cons node root w t ts ▸ h)
    have hone : w₁.syms.length ≤ w.syms.length + 1 := by
      rcases walkBit_cases h₁ with ⟨-, rfl⟩ | ⟨-, c, rfl⟩ | ⟨-, x, rfl⟩ <;> simp
    have hrest := ih h₂
    rw [List.length_cons]
    omega

/-- `NOTREE` is set exactly where a payload bit arrives and there is no tree (R174). -/
theorem walkBits_notree_iff {node : List NodeEntry} {root : Option NodeIdx} {w w' : Walk} {S : Bits}
    (h : walkBits node root w S = some w') : w'.notree = true ↔ w.notree = true ∨ (root = none ∧ S ≠ []) := by
  induction S generalizing w with
  | nil =>
    cases h
    simp
  | cons t ts ih =>
    obtain ⟨w₁, h₁, h₂⟩ := Option.bind_eq_some_iff.mp (walkBits_cons node root w t ts ▸ h)
    rw [ih h₂]
    rcases walkBit_cases h₁ with ⟨hroot, rfl⟩ | ⟨hroot, c, rfl⟩ | ⟨hroot, x, rfl⟩ <;> simp [hroot]

/-- Without a tree a walk emits nothing and does not move (R174). -/
theorem walkBits_stays {node : List NodeEntry} {w w' : Walk} {S : Bits} (h : walkBits node none w S = some w') :
    w'.syms = w.syms ∧ w'.cur = w.cur := by
  induction S generalizing w with
  | nil =>
    cases h
    exact ⟨rfl, rfl⟩
  | cons t ts ih => exact ih (w := { w with notree := true }) h

/-- A walk in two parts, each collecting its own symbols (R176). -/
theorem walkBits_append_of {node : List NodeEntry} {root : Option NodeIdx} {w w₁ w₂ : Walk} {S T : Bits}
    (h₁ : walkBits node root w S = some w₁) (h₂ : walkBits node root { w₁ with syms := [] } T = some w₂) :
    walkBits node root w (S ++ T) = some { w₂ with syms := w₁.syms ++ w₂.syms } := by
  have hpre := walkBits_syms node root { w₁ with syms := [] } T w₁.syms
  rw [h₂, List.append_nil] at hpre
  rw [walkBits_append, h₁]
  exact hpre

/-! ### `DEC_BYTE` (R166) -/

/-- The word of R166: opcode 0x50, the byte in `a`. -/
theorem encode_decByte_toNat (b : Byte) : (encode (.decByte b)).toNat = 0x5000000000000000 + b.toNat * 2 ^ 32 := by
  simp [encode_toNat, Instr.mnemonic, opcodeOf, Instr.aField, Instr.wField]

section
variable {s : State} (hf : s.fault = false) (hp : s.phase = .tree ∨ s.phase = .codes) {b : Byte} {w : Walk}
include hf hp

/-- The first byte of a stream (R167). -/
theorem execDecByte_first (hact : s.act = .idle)
    (hw : walkBits s.node s.root { cur := s.cur, notree := false, syms := [] } (firstPayload b) = some w) :
    execDecByte b s = respond (BitVec.ofNat 56 w.syms.length)
      { s with
        cur := w.cur, notree := w.notree, outSyms := s.outSyms ++ w.syms, act := .decoding
        nosent := decide (b = 0#8), trunc := false, dempty := false } := by
  rw [execDecByte, working_accepted _ _ _ hf ⟨hp, .inl hact⟩, s.openByte_idle b hact]
  simp only [hw]
  rfl

/-- A later byte of a stream. -/
theorem execDecByte_later (hact : s.act = .decoding)
    (hw : walkBits s.node s.root { cur := s.cur, notree := s.notree, syms := [] } (bits8 b) = some w) :
    execDecByte b s = respond (BitVec.ofNat 56 w.syms.length)
      { s with cur := w.cur, notree := w.notree, outSyms := s.outSyms ++ w.syms } := by
  rw [execDecByte, working_accepted _ _ _ hf ⟨hp, .inr hact⟩, s.openByte_not_idle b (by simp [hact])]
  simp only [hw]
  rfl

end

theorem Inv.exists_walk {s : State} (h : Inv s) (hp : s.phase = .tree ∨ s.phase = .codes) (notree : Bool) (S : Bits) :
    ∃ w, walkBits s.node s.root { cur := s.cur, notree := notree, syms := [] } S = some w :=
  exists_walkBits (h.innersOk_of_built hp) (h.cursorOk_root hp) S h.cursor

/-- Settles O33: the checks of R206 come first, and by R61 the walk reads no absent entry. -/
theorem decByteWalksThePayload : Obligations.DecByteWalksThePayload := by
  refine ⟨fun node root w t ts => ⟨rfl, walkBits_cons node root w t ts⟩, walkBit_no_tree, ?_, fun b s =>
    ⟨encode_decByte_toNat b, fun hf => ?_, fun hf hseq => ?_, fun h hf hp => ⟨fun hact => ?_, fun hact => ?_⟩⟩⟩
  · rintro node root i l r wt ⟨cur, notree, S⟩ t rfl hi
    have hc := childOf_inner hi t
    exact ⟨fun x v he => walkBit_to_leaf hc he notree S, fun v l' r' he => walkBit_to_inner hc he notree S⟩
  · exact working_faulted _ s _ hf
  · exact working_out_of_sequence _ s _ hf hseq
  · obtain ⟨w, hw⟩ := h.exists_walk hp false (firstPayload b)
    exact ⟨w, hw, execDecByte_first hf hp hact hw⟩
  · obtain ⟨w, hw⟩ := h.exists_walk hp s.notree (bits8 b)
    exact ⟨w, hw, execDecByte_later hf hp hact hw⟩

/-- Settles O34: the flags `DEC_BYTE` writes by R167, and what the walk does with no tree. -/
theorem decByteSetsTheFlags : Obligations.DecByteSetsTheFlags := by
  intro b s t h hf hp hact hexec
  rcases hact with hact | hact
  · obtain ⟨w, hw⟩ := h.exists_walk hp false (firstPayload b)
    cases (execDecByte_first hf hp hact hw).symm.trans hexec
    refine ⟨fun _ => ⟨rfl, rfl, rfl, ?_⟩, fun hd => (nomatch hact.symm.trans hd), fun hroot => ?_⟩
    · simpa using walkBits_notree_iff hw
    · obtain ⟨hsyms, hcur⟩ := walkBits_stays (hroot ▸ hw)
      exact ⟨by simp [hsyms], hcur.trans (h.cursor.1.mpr hroot)⟩
  · obtain ⟨w, hw⟩ := h.exists_walk hp s.notree (bits8 b)
    cases (execDecByte_later hf hp hact hw).symm.trans hexec
    have hbits : bits8 b ≠ [] := List.ne_nil_of_length_eq_add_one (bits8_length b)
    refine ⟨fun hi => (nomatch hact.symm.trans hi), fun _ => ⟨rfl, rfl, rfl, ?_⟩, fun hroot => ?_⟩
    · simpa [hbits] using walkBits_notree_iff hw
    · obtain ⟨hsyms, hcur⟩ := walkBits_stays (hroot ▸ hw)
      exact ⟨by simp [hsyms], hcur.trans (h.cursor.1.mpr hroot)⟩

/-! ### Whole streams (R176) -/

/-- Scanning the first eight bits of the unpacked stream is scanning its first byte (R176). -/
theorem streamPayload_cons (b : Byte) (Y : List Byte) : streamPayload (b :: Y) = firstPayload b ++ Y.flatMap bits8 := by
  have hany : (bits8 b).any id = true ↔ b ≠ 0#8 := by simp [← true_mem_bits8_iff]
  have htake : (bits8 b ++ Y.flatMap bits8).take 8 = bits8 b := List.take_left' (bits8_length b)
  rw [streamPayload, List.flatMap_cons]
  simp only [htake, hany, firstPayload]
  by_cases hb : b = 0#8
  · rw [if_neg (not_not.mpr hb), if_pos hb, List.drop_left' (bits8_length b), List.nil_append]
  · have hidx : (bits8 b).findIdx id < (bits8 b).length :=
      List.findIdx_lt_length_of_exists ⟨true, (true_mem_bits8_iff b).mpr hb, rfl⟩
    rw [if_pos hb, if_neg hb, List.drop_append_of_le_length hidx]

/-- The bytes `Y`, decoded one by one from `s`, do what the walk to `w` does: its symbols,
its position and its `NOTREE`. -/
def DecodesAs (Y : List Byte) (s : State) (w : Walk) : Prop :=
  ∃ t ds, execOk (Y.map .decByte) s = some (t, ds) ∧ t.outSyms = s.outSyms ++ w.syms ∧ t.cur = w.cur ∧
    t.notree = w.notree ∧ (ds.map BitVec.toNat).sum = w.syms.length

theorem decodesAs_nil (s : State) : DecodesAs [] s { cur := s.cur, notree := s.notree, syms := [] } :=
  ⟨s, [], rfl, by simp, rfl, rfl, rfl⟩

/-- One byte ahead of others; its answer, at most 8, holds the number of its symbols. -/
theorem DecodesAs.cons {b : Byte} {Y : List Byte} {s u : State} {S : List Sym} {w : Walk} (hlen : S.length ≤ 8)
    (hexec : exec (.decByte b) s = respond (BitVec.ofNat 56 S.length) u) (hout : u.outSyms = s.outSyms ++ S)
    (h : DecodesAs Y (u.answer (rspWord .ok (BitVec.ofNat 56 S.length))) w) :
    DecodesAs (b :: Y) s { w with syms := S ++ w.syms } := by
  obtain ⟨t, ds, hrun, hsyms, hcur, hnotree, hsum⟩ := h
  refine ⟨t, BitVec.ofNat 56 S.length :: ds, ?_, ?_, hcur, hnotree, ?_⟩
  · rw [List.map_cons, execOk_cons _ _ _ _ _ hexec, hrun]
    rfl
  · rw [hsyms, State.answer_outSyms, hout, List.append_assoc]
  · have hdata : (BitVec.ofNat 56 S.length).toNat = S.length := by
      rw [BitVec.toNat_ofNat]
      omega
    rw [List.map_cons, List.sum_cons, hsum, hdata, List.length_append]

/-- The bytes after the first, by induction: `CUR` is all the walk keeps between bytes. -/
theorem Inv.decodesAs_later {s : State} (h : Inv s) (hf : s.fault = false) (hp : s.phase = .tree ∨ s.phase = .codes)
    (hact : s.act = .decoding) (Y : List Byte) :
    ∃ w, walkBits s.node s.root { cur := s.cur, notree := s.notree, syms := [] } (Y.flatMap bits8) = some w ∧
      DecodesAs Y s w := by
  induction Y generalizing s with
  | nil => exact ⟨_, rfl, decodesAs_nil s⟩
  | cons b Y ih =>
    obtain ⟨w₁, h₁⟩ := h.exists_walk hp s.notree (bits8 b)
    have hexec := execDecByte_later hf hp hact h₁
    obtain ⟨w₂, h₂, hY⟩ := ih (inv_of_exec (i := .decByte b) h hexec) hf hp hact
    exact ⟨_, walkBits_append_of h₁ h₂, hY.cons (by simpa using walkBits_syms_length_le h₁) hexec rfl⟩

/-- Settles O35: the first byte without its sentinel, then the later bytes whole. -/
theorem streamDecodesAsAWhole : Obligations.StreamDecodesAsAWhole := by
  intro Y s h hf hp hact hne
  obtain ⟨b, Y, rfl⟩ := List.exists_cons_of_ne_nil hne
  obtain ⟨w₁, h₁⟩ := h.exists_walk hp false (firstPayload b)
  have hexec := execDecByte_first hf hp hact h₁
  have hinv := inv_of_exec (i := .decByte b) h hexec
  obtain ⟨w₂, h₂, hY⟩ := hinv.decodesAs_later hf hp rfl Y
  have hlen : w₁.syms.length ≤ 8 := by
    have hbits : w₁.syms.length ≤ (firstPayload b).length := by simpa using walkBits_syms_length_le h₁
    exact hbits.trans ((firstPayload_length_le b).trans (by decide))
  obtain ⟨t, ds, hdec⟩ := hY.cons hlen hexec rfl
  have hwhole := walkBits_append_of h₁ h₂
  rw [h.cur_eq_root (.inl hact)] at hwhole
  exact ⟨_, t, ds, streamPayload_cons b Y ▸ hwhole, hdec⟩

/-! ### How much a byte can emit (R177) -/

theorem State.openByte_bits_length_le (s : State) (b : Byte) :
    (s.openByte b).2.length ≤ 8 ∧ (s.act = .idle → (s.openByte b).2.length ≤ 7) := by
  by_cases h : s.act = .idle
  · have := firstPayload_length_le b
    rw [s.openByte_idle b h]
    exact ⟨this.trans (by decide), fun _ => this⟩
  · rw [s.openByte_not_idle b h]
    exact ⟨(bits8_length b).le, fun hi => absurd hi h⟩

/-- A byte emits at most one symbol for each of its payload bits. -/
theorem execDecByte_outSyms_length_le {b : Byte} {s t : State} (hexec : exec (.decByte b) s = .next t) :
    t.outSyms.length ≤ s.outSyms.length + (s.openByte b).2.length := by
  obtain ⟨u, r, heffect, rfl⟩ := answered_of_exec hexec
  cases heffect with
  | quiet => simp
  | decByte b w hf hseq hw => simpa using walkBits_syms_length_le hw

/-- A run that answers `OK` throughout is a command that completes and such a run after it. -/
theorem exists_of_execOk_cons {i : Instr} {is : List Instr} {s t : State} {ds : List Data}
    (h : execOk (i :: is) s = some (t, ds)) : ∃ u ds', exec i s = .next u ∧ execOk is u = some (t, ds') := by
  obtain ⟨⟨u, d⟩, hhead, hrest⟩ := Option.bind_eq_some_iff.mp h
  obtain ⟨⟨t', ds'⟩, hrun, heq⟩ := Option.map_eq_some_iff.mp hrest
  cases heq
  refine ⟨u, ds', ?_, hrun⟩
  unfold okAnswer at hhead
  split at hhead
  · split at hhead
    · split at hhead <;> cases hhead
      assumption
    · cases hhead
  · cases hhead
  · cases hhead

theorem execOk_decBytes_outSyms_length_le {Y : List Byte} {s t : State} {ds : List Data}
    (h : execOk (Y.map .decByte) s = some (t, ds)) : t.outSyms.length ≤ s.outSyms.length + 8 * Y.length := by
  induction Y generalizing s ds with
  | nil =>
    cases h
    simp
  | cons b Y ih =>
    obtain ⟨u, ds', hexec, hrun⟩ := exists_of_execOk_cons h
    have := execDecByte_outSyms_length_le hexec
    have := (s.openByte_bits_length_le b).1
    have := ih hrun
    rw [List.length_cons]
    omega

/-- Settles O36: a byte has at most 8 payload bits, the first at most 7. -/
theorem decodedSymbolsAreBounded : Obligations.DecodedSymbolsAreBounded := by
  refine ⟨fun b s t hexec => ?_, fun Y s t ds hact hne hrun => ?_⟩
  · have hle := execDecByte_outSyms_length_le hexec
    obtain ⟨h8, h7⟩ := s.openByte_bits_length_le b
    exact ⟨by omega, fun hact => hle.trans (Nat.add_le_add_left (h7 hact) _)⟩
  · obtain ⟨b, Y, rfl⟩ := List.exists_cons_of_ne_nil hne
    obtain ⟨u, ds', hexec, hrun⟩ := exists_of_execOk_cons hrun
    have := execDecByte_outSyms_length_le hexec
    have := (s.openByte_bits_length_le b).2 hact
    have := execOk_decBytes_outSyms_length_le hrun
    rw [List.length_cons]
    omega

/-! ### `DEC_FIN` (R171) -/

theorem State.closeStream_idle (s : State) (h : s.act = .idle) :
    s.closeStream = { s with
      nosent := false, notree := false, dempty := true, trunc := decide (s.cur ≠ s.root), cur := s.root } := by
  simp only [State.closeStream, h, if_true]
  by_cases hcur : s.cur = s.root <;> simp [State.clearDecodeFlags, hcur]

theorem State.closeStream_not_idle (s : State) (h : s.act ≠ .idle) :
    s.closeStream = { s with trunc := decide (s.cur ≠ s.root) || s.trunc, cur := s.root, act := .idle } := by
  simp only [State.closeStream, h, if_false]
  by_cases hcur : s.cur = s.root <;> simp [hcur]

/-- `STATUS[11:8]` as a number (R171). -/
theorem State.decodeFlags_setWidth (s : State) : s.decodeFlags.setWidth 56 =
    BitVec.ofNat 56 (8 * s.notree.toNat + 4 * s.dempty.toNat + 2 * s.trunc.toNat + s.nosent.toNat) := by
  have hbits : ∀ n d t f : Bool,
      (BitVec.ofBool n ++ (BitVec.ofBool d ++ (BitVec.ofBool t ++ BitVec.ofBool f)) : BitVec 4).setWidth 56 =
        BitVec.ofNat 56 (8 * n.toNat + 4 * d.toNat + 2 * t.toNat + f.toNat) := by decide
  exact hbits _ _ _ _

theorem execDecFin_accepted {s : State} (hf : s.fault = false) (hseq : seqDecode s) :
    execDecFin s = .next (s.closeStream.answer (rspWord .ok (s.closeStream.decodeFlags.setWidth 56))) :=
  working_accepted _ _ _ hf hseq

/-- Settles O37: the checks of R206 come first, then the flags of the stream's end. -/
theorem decFinAnswersTheFlags : Obligations.DecFinAnswersTheFlags := by
  refine fun s => ⟨rfl, fun hf => ?_, fun hf hseq => ?_, fun hf hp hact => ?_, fun hf hp hact => ?_⟩
  · exact working_faulted _ s _ hf
  · exact working_out_of_sequence _ s _ hf hseq
  · refine (execDecFin_accepted hf ⟨hp, .inl hact⟩).trans ?_
    rw [State.decodeFlags_setWidth, s.closeStream_idle hact]
    rfl
  · refine (execDecFin_accepted hf ⟨hp, .inr hact⟩).trans ?_
    rw [State.decodeFlags_setWidth, s.closeStream_not_idle (by simp [hact])]

/-! ### What `DEC_BYTE` and `DEC_FIN` leave unchanged -/

/-- Settles O59: the fields each command writes stand in its effect; inside a stream no flag is cleared. -/
theorem decoderFrame : Obligations.DecoderFrame := by
  refine ⟨fun b s t hexec => ?_, fun s t hexec => ?_⟩
  · obtain ⟨u, r, h, rfl⟩ := answered_of_exec hexec
    cases h with
    | quiet => exact ⟨rfl, fun _ => ⟨rfl, rfl, rfl⟩⟩
    | decByte => exact ⟨rfl, fun hact => by simp [s.openByte_not_idle b hact]⟩
  · obtain ⟨u, r, h, rfl⟩ := answered_of_exec hexec
    cases h with
    | quiet => exact ⟨rfl, fun _ => ⟨rfl, rfl, rfl⟩⟩
    | decFin => exact ⟨rfl, fun hact => by simp [s.closeStream_not_idle hact]⟩

end Sys2Proof.Machine

/-! ## Proofs: control and read access (spec/45_control_and_access.md) -/

namespace Sys2Proof.Machine

open Sys2Proof

/-! ### `NOP` and `CLEAR` (R181, R182) -/

/-- The response `{OK, 0}` is the all-zero word (R93, R201). -/
theorem rspWord_ok_zero : rspWord .ok 0#56 = 0#64 := rfl

theorem exec_nop (s : State) : exec .nop s = .next (s.answer 0#64) := by
  rw [exec, execNop, respond_eq, rspWord_ok_zero]

theorem exec_clear (s : State) : exec .clear s = .next (s.clearState.answer 0#64) := by
  rw [exec, execClear, respond_eq, rspWord_ok_zero]

/-- Settles O12: the all-zero word decodes to `NOP` (R96). -/
theorem nopAnswersZero : Obligations.NopAnswersZero := by
  intro s
  obtain ⟨hdecode, -⟩ := knownWordsDecode
  exact ⟨exec_nop s, (runWord_of_decode_ok _ _ s hdecode).trans (exec_nop s)⟩

/-- Settles O13: `State.clearState` is that state. -/
theorem clearReturnsToReset : Obligations.ClearReturnsToReset := exec_clear

/-! ### Fields of a response as numbers (R34, R93) -/

theorem toNat_append_eq_add {m n : Nat} (x : BitVec m) (y : BitVec n) :
    (x ++ y).toNat = x.toNat * 2 ^ n + y.toNat := by
  rw [BitVec.toNat_append, ← Nat.shiftLeft_add_eq_or_of_lt y.isLt, Nat.shiftLeft_eq]

/-- A node reference reads as its index, or 255 for `NIL` (R46). -/
theorem refByte_toNat {r : Option NodeIdx} (h : ∀ i ∈ r, i < 255) : (refByte r).toNat = r.getD 0xFF := by
  cases r with
  | none => rfl
  | some i => exact Nat.mod_eq_of_lt ((h i rfl).trans (by decide))

/-- `STATUS` as a number (R34). -/
theorem State.statusWord_toNat (s : State) : s.statusWord.toNat =
    s.phase.value.toNat + 4 * s.fault.toNat + 8 * s.act.value.toNat + 32 * s.phantom.toNat +
      256 * s.nosent.toNat + 512 * s.trunc.toNat + 1024 * s.dempty.toNat + 2048 * s.notree.toNat := by
  simp only [State.statusWord, State.decodeFlags, toNat_append_eq_add, BitVec.toNat_ofBool, BitVec.toNat_ofNat]
  omega

/-- The layout of R184 as a number. -/
theorem NodeEntry.packed_toNat (e : NodeEntry) : e.packed.toNat = e.isLeaf.toNat * 2 ^ 55 + e.sym.toNat * 2 ^ 48 +
    (refByte e.left).toNat * 2 ^ 40 + (refByte e.right).toNat * 2 ^ 32 + e.wgt.toNat := by
  simp only [NodeEntry.packed, toNat_append_eq_add, BitVec.toNat_ofBool]
  omega

theorem NodeEntry.packed_leaf_toNat (x : Sym) (w : Wgt) : (NodeEntry.leaf x w).packed.toNat =
    2 ^ 55 + x.toNat * 2 ^ 48 + 0xFF * 2 ^ 40 + 0xFF * 2 ^ 32 + w.toNat := by
  have hnil : (refByte none).toNat = 0xFF := refByte_toNat (by simp)
  simp [NodeEntry.packed_toNat, NodeEntry.isLeaf, NodeEntry.sym, NodeEntry.left, NodeEntry.right, NodeEntry.wgt, hnil]

theorem NodeEntry.packed_inner_toNat (w : Wgt) {l r : NodeIdx} (hl : l < 255) (hr : r < 255) :
    (NodeEntry.inner w l r).packed.toNat = l * 2 ^ 40 + r * 2 ^ 32 + w.toNat := by
  have href {i : NodeIdx} (hi : i < 255) : (refByte (some i)).toNat = i := refByte_toNat (by simpa using hi)
  simp [NodeEntry.packed_toNat, NodeEntry.isLeaf, NodeEntry.sym, NodeEntry.left, NodeEntry.right, NodeEntry.wgt,
    href hl, href hr]

/-- Chunk `k` holds the bits 32k to 32k + 31 (R185). -/
theorem codeChunk_toNat (val : BitVec 127) (k : BitVec 2) :
    (codeChunk val k).toNat = val.toNat / 2 ^ (32 * k.toNat) % 2 ^ 32 := by
  rw [codeChunk, BitVec.extractLsb'_toNat, BitVec.toNat_setWidth_of_le (by decide), Nat.shiftRight_eq_div_pow]

theorem codeData_toNat (c : Codeword) (k : BitVec 2) : (codeData (some c) k).toNat =
    2 ^ 55 + c.len.toNat * 2 ^ 48 + c.val.toNat / 2 ^ (32 * k.toNat) % 2 ^ 32 := by
  simp only [codeData, toNat_append_eq_add, codeChunk_toNat, BitVec.toNat_ofNat]
  omega

/-! ### Bounds of the registers that are natural numbers (R38 to R41, R44) -/

theorem CursorOk.lt_length {node : List NodeEntry} {root cur : Option NodeIdx} (h : CursorOk node root cur) :
    ∀ i ∈ cur, i < node.length := by
  obtain ⟨-, hinner⟩ := h
  intro i hi
  obtain ⟨e, he, -⟩ := Option.map_eq_some_iff.mp (hinner i hi)
  exact (List.getElem?_eq_some_iff.mp he).1

/-- The phase is before `BUILD` or after it (R35). -/
theorem State.phase_early_or_built (s : State) :
    (s.phase = .load ∨ s.phase = .leaves) ∨ s.phase = .tree ∨ s.phase = .codes := by
  cases s.phase <;> simp

section
variable {s : State} (h : Inv s)
include h

theorem Inv.length_node_le : s.node.length ≤ 255 := by
  have hn := nleaf_le s h
  rcases s.phase_early_or_built with hp | hp
  · rw [← leaves_eq_node s h hp, h.length_leaves]
    omega
  · rcases h.tree_cases hp with ⟨-, hnode, -⟩ | ⟨-, htree, -⟩
    · simp [hnode]
    · rw [htree.length_eq]
      omega

theorem Inv.cur_lt : ∀ i ∈ s.cur, i < 255 := fun i hi =>
  (CursorOk.lt_length h.cursor i hi).trans_le h.length_node_le

theorem Inv.root_lt : ∀ i ∈ s.root, i < 255 := by
  rcases s.phase_early_or_built with hp | hp
  · obtain ⟨-, hroot, -⟩ := h.early hp
    simp [hroot]
  · exact fun i hi => ((h.cursorOk_root hp).lt_length i hi).trans_le h.length_node_le

theorem Inv.length_b_lt : s.b.length < 2 ^ 32 := h.buffer.2.trans_lt s.bitbufMax.isLt

end

/-! ### `RD_CSR` (R183) -/

/-- The word of R183: opcode 0x60, the register's number in `a`. -/
theorem encode_rdCsr_toNat (n : Byte) : (encode (.rdCsr n)).toNat = 0x6000000000000000 + n.toNat * 2 ^ 32 := by
  simp [encode_toNat, Instr.mnemonic, opcodeOf, Instr.aField, Instr.wField]

theorem exec_rdCsr_of_some {n : Byte} {s : State} {v : CsrWord} {m : Nat} (hv : s.csr n = some v) (hm : v.toNat = m) :
    exec (.rdCsr n) s = .next (s.answer (rspWord .ok (BitVec.ofNat 56 m))) := by
  subst hm
  simp only [exec, execRdCsr, hv, respond_eq, BitVec.ofNat_toNat]

theorem exec_rdCsr_of_none {n : Byte} {s : State} (hv : s.csr n = none) :
    exec (.rdCsr n) s = .next (s.answer (rspWord .errIndex 0#56)) := by
  simp only [exec, execRdCsr, hv, refuse_eq]

theorem State.csr_of_gt {n : Byte} (s : State) (hn : n.toNat > 11) : s.csr n = none := by
  unfold State.csr
  split
  case h_13 => rfl
  all_goals omega

/-- Settles O42: by R61 the registers the state holds as natural numbers fit their widths. -/
theorem rdCsrReadsTheRegisters : Obligations.RdCsrReadsTheRegisters := by
  intro s h
  have href {r : Option NodeIdx} (hr : ∀ i ∈ r, i < 255) : ((refByte r).setWidth 32).toNat = r.getD 0xFF :=
    (BitVec.toNat_setWidth_of_le (by decide)).trans (refByte_toNat hr)
  have hnleaf := nleaf_le s h
  have hnode := h.length_node_le
  refine ⟨encode_rdCsr_toNat, exec_rdCsr_of_some rfl rfl, exec_rdCsr_of_some rfl s.statusWord_toNat,
    exec_rdCsr_of_some rfl (Nat.mod_eq_of_lt ?_), exec_rdCsr_of_some rfl (Nat.mod_eq_of_lt ?_),
    exec_rdCsr_of_some rfl (href h.root_lt), exec_rdCsr_of_some rfl rfl, exec_rdCsr_of_some rfl rfl,
    exec_rdCsr_of_some rfl (Nat.mod_eq_of_lt h.length_b_lt), exec_rdCsr_of_some rfl (href h.cur_lt),
    exec_rdCsr_of_some rfl (BitVec.toNat_setWidth_of_le (by decide)),
    exec_rdCsr_of_some rfl (BitVec.toNat_setWidth_of_le (by decide)), exec_rdCsr_of_some rfl rfl,
    fun n hn => exec_rdCsr_of_none (s.csr_of_gt hn)⟩
  · omega
  · exact hnode.trans_lt (by decide)

/-! ### `RD_NODE` (R184) -/

/-- The word of R184: opcode 0x61, the index in `a`. -/
theorem encode_rdNode_toNat (i : Byte) : (encode (.rdNode i)).toNat = 0x6100000000000000 + i.toNat * 2 ^ 32 := by
  simp [encode_toNat, Instr.mnemonic, opcodeOf, Instr.aField, Instr.wField]

section
variable {i : Byte} {s : State}

theorem exec_rdNode_of_le (hi : s.node.length ≤ i.toNat) :
    exec (.rdNode i) s = .next (s.answer (rspWord .errIndex 0#56)) := by
  simp only [exec, execRdNode, List.getElem?_eq_none hi, refuse_eq]

theorem exec_rdNode_of_some {e : NodeEntry} {m : Nat} (he : s.node[i.toNat]? = some e) (hm : e.packed.toNat = m) :
    exec (.rdNode i) s = .next (s.answer (rspWord .ok (BitVec.ofNat 56 m))) := by
  subst hm
  simp only [exec, execRdNode, he, respond_eq, BitVec.ofNat_toNat, BitVec.setWidth_eq]

end

/-- Settles O43: `NODE` has at most 255 entries by R61, so none has the index 255. -/
theorem rdNodeReadsThePackedEntry : Obligations.RdNodeReadsThePackedEntry := by
  exact fun i s => ⟨encode_rdNode_toNat i, exec_rdNode_of_le,
    fun x w he => exec_rdNode_of_some he (NodeEntry.packed_leaf_toNat x w),
    fun w l r he hl hr => exec_rdNode_of_some he (NodeEntry.packed_inner_toNat w hl hr),
    fun h => exec_rdNode_of_le h.length_node_le⟩

/-! ### `RD_CODE` and `RD_CNT` (R185, R186) -/

/-- The word of R185: opcode 0x62, the symbol in `a`, the chunk in `w`. -/
theorem encode_rdCode_toNat (x : Sym) (k : BitVec 2) :
    (encode (.rdCode x k)).toNat = 0x6200000000000000 + x.toNat * 2 ^ 32 + k.toNat := by
  have hk : (k.setWidth 32).toNat = k.toNat := BitVec.toNat_setWidth_of_le (by decide)
  simp [-BitVec.toNat_setWidth, encode_toNat, Instr.mnemonic, opcodeOf, Instr.aField, symField_toNat, Instr.wField, hk]

theorem exec_rdCode (x : Sym) (k : BitVec 2) (s : State) :
    exec (.rdCode x k) s = .next (s.answer (rspWord .ok (codeData (getSym s.code x) k))) := rfl

/-- Settles O44: an absent entry reads as zeros, and a valid one by the layout of R185. -/
theorem rdCodeReadsAChunk : Obligations.RdCodeReadsAChunk := by
  refine fun x k s => ⟨encode_rdCode_toNat x k, fun hx => ?_, fun c hc => ?_⟩
  · rw [exec_rdCode, hx, codeData, rspWord_ok_zero]
  · rw [exec_rdCode, hc, ← codeData_toNat, BitVec.ofNat_toNat, BitVec.setWidth_eq]

/-- The word of R186: opcode 0x63, the symbol in `a`. -/
theorem encode_rdCnt_toNat (x : Sym) : (encode (.rdCnt x)).toNat = 0x6300000000000000 + x.toNat * 2 ^ 32 := by
  simp [encode_toNat, Instr.mnemonic, opcodeOf, Instr.aField, symField_toNat, Instr.wField]

/-- Settles O45: the answer is the counter, widened (R93). -/
theorem rdCntReadsTheCounter : Obligations.RdCntReadsTheCounter := by
  refine fun x s => ⟨encode_rdCnt_toNat x, ?_⟩
  rw [BitVec.ofNat_toNat]
  rfl

end Sys2Proof.Machine

/-! ## Proofs: composite operations and properties (spec/46_composite_operations_and_properties.md) -/

namespace Sys2Proof.Machine

open Sys2Proof

/-! ### Runs of commands that answer `OK` -/

/-- A command that completes at the end of a run. -/
theorem execOk_concat {is : List Instr} {i : Instr} {s u t : State} {ds : List Data} {d : Data}
    (hrun : execOk is s = some (u, ds)) (hexec : exec i u = respond d t) :
    execOk (is ++ [i]) s = some (t.answer (rspWord .ok d), ds ++ [d]) := by
  rw [execOk_append, hrun, Option.bind_some, execOk_cons _ _ _ _ _ hexec]
  rfl

/-- A run keeps the invariants, each of its commands keeping them. -/
theorem inv_of_execOk {is : List Instr} {s t : State} {ds : List Data} (h : Inv s)
    (hrun : execOk is s = some (t, ds)) : Inv t := by
  induction is generalizing s ds with
  | nil =>
    cases hrun
    exact h
  | cons i is ih =>
    obtain ⟨u, ds', hexec, hrest⟩ := exists_of_execOk_cons hrun
    exact ih (inv_of_exec h hexec) hrest

/-! ### Sums over the symbols -/

/-- A quantity that is zero outside a list of distinct symbols is summed up by the list. -/
theorem sum_allSyms_eq {M : Type} [AddCommMonoid M] (f : Sym → M) {L : List Sym} (hL : L.Nodup)
    (hf : ∀ x, x ∉ L → f x = 0) : (allSyms.map f).sum = (L.map f).sum := by
  rw [← List.sum_toFinset f allSyms_nodup, ← List.sum_toFinset f hL]
  refine (Finset.sum_subset (fun x _ => List.mem_toFinset.mpr (mem_allSyms x)) fun x _ hx => ?_).symm
  exact hf x (mt List.mem_toFinset.mpr hx)

/-- Summing over a message is summing over the symbols, each as often as it occurs. -/
theorem sum_map_eq_sum_count (S : List Sym) (f : Sym → Nat) :
    (S.map f).sum = (allSyms.map fun x => S.count x * f x).sum := by
  have houtside (x) (hx : x ∉ S.dedup) : S.count x * f x = 0 := by
    rw [List.count_eq_zero_of_not_mem (mt List.mem_dedup.mpr hx), Nat.zero_mul]
  have hset : S.dedup.toFinset = S.toFinset := by
    ext x
    simp
  rw [sum_allSyms_eq _ S.nodup_dedup houtside, ← List.sum_toFinset _ S.nodup_dedup, hset, Finset.sum_list_map_count]
  rfl

/-! ### The Kraft sum (R255) -/

/-- The sum of 2^(−len) over the paths of a walk. -/
def kraftSum (L : List (Sym × Bits)) : ℚ := (L.map fun p => (1 / 2 : ℚ) ^ p.2.length).sum

theorem kraftSum_singleton_nil (x : Sym) : kraftSum [(x, [])] = 1 := by simp [kraftSum]

theorem kraftSum_append (L L' : List (Sym × Bits)) : kraftSum (L ++ L') = kraftSum L + kraftSum L' := by
  simp [kraftSum]

/-- One more turn in front of every path halves the sum. -/
theorem kraftSum_turn (t : Bool) (L : List (Sym × Bits)) :
    kraftSum (L.map fun p => (p.1, t :: p.2)) = kraftSum L * (1 / 2) := by
  simp only [kraftSum, List.map_map, Function.comp_def, List.length_cons, pow_succ, List.sum_map_mul_right]

/-- The paths a walk records from a node have Kraft sum 1: each of the two subtrees gives one half. -/
theorem kraftSum_walkTree {node : List NodeEntry} {fuel : Nat} {i : NodeIdx} {L : List (Sym × Bits)}
    (hL : walkTree node fuel i [] = some L) : kraftSum L = 1 := by
  induction fuel generalizing i L with
  | zero => cases hL
  | succ fuel ih =>
    rcases walkTree_cases hL with ⟨x, w, -, rfl⟩ | ⟨w, l, r, -, -, hi, -⟩
    · exact kraftSum_singleton_nil x
    · obtain ⟨a, b, ha, hb, rfl⟩ := (walkTree_inner_nil hi fuel L).mp hL
      rw [kraftSum_append, kraftSum_turn, kraftSum_turn, ih ha, ih hb]
      norm_num

/-- What a code table entry adds to the Kraft sum. -/
def kraftTerm : Option Codeword → ℚ
  | some c => (1 / 2) ^ c.len.toNat
  | none => 0

/-- Settles O26: the codewords are the paths of the tree, one for each leaf. -/
theorem kraftSumIsOne : Obligations.KraftSumIsOne := by
  intro s h hphase hn
  show (allSyms.map fun x => kraftTerm (getSym s.code x)).sum = 1
  obtain ⟨paths, hpaths, hperm⟩ := h.exists_treePaths (.inr hphase)
  obtain ⟨-, -, hsyms, -⟩ := h.leafList
  obtain ⟨-, -, htree⟩ := h.tree (.inr hphase)
  obtain ⟨-, hroot⟩ := htree hn
  rw [hroot, treePaths] at hpaths
  have houtside (x) (hx : x ∉ paths.map Prod.fst) : kraftTerm (getSym s.code x) = 0 := by
    cases hc : getSym s.code x with
    | none => rfl
    | some c =>
      obtain ⟨r', hroot', hleaf⟩ := h.leafAt_codeword hphase hc
      cases hroot.symm.trans hroot'
      exact absurd (List.mem_map.mpr ⟨_, (mem_walkTree_iff hpaths x c.bits).mpr hleaf, rfl⟩) hx
  have hpath (p) (hp : p ∈ paths) : kraftTerm (getSym s.code p.1) = (1 / 2) ^ p.2.length := by
    obtain ⟨c, hc, hbits⟩ := h.exists_codeword_of_leafAt hphase hroot ((mem_walkTree_iff hpaths p.1 p.2).mp hp)
    rw [hc, ← hbits, Codeword.bits_length, kraftTerm]
  calc
    _ = ((paths.map Prod.fst).map fun x => kraftTerm (getSym s.code x)).sum :=
      sum_allSyms_eq _ (hperm.nodup_iff.mpr hsyms) houtside
    _ = kraftSum paths := by
      rw [List.map_map]
      exact congrArg List.sum (List.map_congr_left hpath)
    _ = 1 := kraftSum_walkTree hpaths

/-! ### Decoding the codewords of a message (R250) -/

theorem leafAt_nil_iff (node : List NodeEntry) (i : NodeIdx) (x : Sym) :
    LeafAt node i [] x ↔ ∃ w, node[i]? = some (.leaf x w) := by
  simp [LeafAt]

theorem leafAt_cons_iff (node : List NodeEntry) (i : NodeIdx) (t : Bool) (p : Bits) (x : Sym) :
    LeafAt node i (t :: p) x ↔ ∃ c, childOf node (some i) t = some c ∧ LeafAt node c p x := by
  rw [LeafAt, descend_cons]
  cases childOf node (some i) t <;> simp [LeafAt]

/-- A node with a child is internal (R46). -/
theorem exists_inner_of_childOf {node : List NodeEntry} {i c : NodeIdx} {t : Bool}
    (h : childOf node (some i) t = some c) : ∃ w l r, node[i]? = some (.inner w l r) := by
  cases hi : node[i]? with
  | none => simp [childOf, hi] at h
  | some e =>
    cases e with
    | leaf x w => simp [childOf_leaf hi] at h
    | inner w l r => exact ⟨w, l, r, rfl⟩

/-- Along the path to a leaf the walk emits the leaf's symbol at the last turn and returns to the root (R170). -/
theorem walkBits_of_leafAt {node : List NodeEntry} {i : NodeIdx} {t : Bool} {p : Bits} {x : Sym}
    (h : LeafAt node i (t :: p) x) (r : NodeIdx) (notree : Bool) (S : List Sym) :
    walkBits node (some r) ⟨some i, notree, S⟩ (t :: p) = some ⟨some r, notree, S ++ [x]⟩ := by
  induction p generalizing i t with
  | nil =>
    obtain ⟨c, hc, hleaf⟩ := (leafAt_cons_iff node i t [] x).mp h
    obtain ⟨w, he⟩ := (leafAt_nil_iff node c x).mp hleaf
    rw [walkBits_cons, walkBit_to_leaf hc he]
    rfl
  | cons u p ih =>
    obtain ⟨c, hc, hleaf⟩ := (leafAt_cons_iff node i t (u :: p) x).mp h
    obtain ⟨d, hd, -⟩ := (leafAt_cons_iff node c u p x).mp hleaf
    obtain ⟨w, a, b, he⟩ := exists_inner_of_childOf hd
    rw [walkBits_cons, walkBit_to_inner hc he]
    exact ih hleaf

/-- The walk from the root over the codewords of a message emits the message and ends at the root. -/
theorem Inv.walkBits_payload {s : State} (h : Inv s) (hphase : s.phase = .codes) {S : List Sym} {P : Bits}
    (hP : payloadOf s.code S = some P) (notree : Bool) (T : List Sym) :
    walkBits s.node s.root ⟨s.root, notree, T⟩ P = some ⟨s.root, notree, T ++ S⟩ := by
  induction S generalizing P T with
  | nil =>
    cases hP
    simp [walkBits]
  | cons x S ih =>
    obtain ⟨c, Q, hc, hQ, rfl⟩ := payloadOf_cons_eq_some hP
    obtain ⟨r, hroot, hleaf⟩ := h.leafAt_codeword hphase hc
    obtain ⟨t, p, hbits⟩ := List.exists_cons_of_ne_nil (h.codeword_bits_ne_nil hphase hc)
    rw [hbits] at hleaf
    have hhead := walkBits_of_leafAt hleaf r notree T
    rw [← hroot, ← hbits] at hhead
    rw [walkBits_append, hhead, Option.bind_some, ih hQ, List.append_assoc, List.singleton_append]

/-- The scan of the whole stream takes off what `ENC_FIN` put in front (R155, R176). -/
theorem streamPayload_messageBytes (B : Bits) : streamPayload (messageBytes B) = B := by
  have hU : (messageBytes B).flatMap bits8 = List.replicate (7 - B.length % 8) false ++ true :: B := by
    rw [unpack_messageBytes, framed_eq, List.append_assoc, List.singleton_append]
  have htake : (List.replicate (7 - B.length % 8) false ++ true :: B).take 8 =
      List.replicate (7 - B.length % 8) false ++ true :: B.take (B.length % 8) := by
    have hk : 8 - (7 - B.length % 8) = B.length % 8 + 1 := by omega
    rw [List.take_append, List.length_replicate, hk, List.take_succ_cons,
      List.take_of_length_le (by rw [List.length_replicate]; omega)]
  simp only [streamPayload, hU, htake, findIdx_sentinel]
  simp [List.drop_append]

/-- No message starts with a zero byte (R157). -/
theorem messageBytes_head?_ne (B : Bits) : (messageBytes B).head? ≠ some 0#8 :=
  head?_ne_zero_of_unpack (Nat.sub_le 7 (B.length % 8)) ((unpack_messageBytes B).trans (framed_eq B))

theorem messageBytes_eq_cons (B : Bits) : ∃ b Y, messageBytes B = b :: Y ∧ b ≠ 0#8 := by
  have hne : messageBytes B ≠ [] := List.ne_nil_of_length_eq_add_one (messageBytes_length B)
  obtain ⟨b, Y, hY⟩ := List.exists_cons_of_ne_nil hne
  exact ⟨b, Y, hY, fun hb => messageBytes_head?_ne B (by rw [hY, hb]; rfl)⟩

/-! ### `ENCODE` (R198) -/

/-- A message whose payload fits is emitted, and an idle encoder is idle again. -/
theorem Inv.execOk_encodeMessage {s : State} (h : Inv s) (hphase : s.phase = .codes) (hf : s.fault = false)
    (hact : s.act = .idle) {S : List Sym} {P : Bits} (hP : payloadOf s.code S = some P)
    (hfits : P.length ≤ s.bitbufMax.toNat) : ∃ t ds, execOk (encodeMessage S) s = some (t, ds) ∧
      t = { s with outBytes := s.outBytes ++ messageBytes P, rspOut := t.rspOut } := by
  have hb := h.b_eq_nil (.inl hact)
  obtain ⟨⟨u, ds, hrun, -, hu⟩, -⟩ :=
    encodingAddsTheCodewordLengths S s P hf hphase (.inl hact) hP (by simpa [hb] using hfits)
  have hseq : seqEncode u := by
    rw [hu]
    exact ⟨hphase, by simp only [hact]; split <;> simp⟩
  have hfin : exec .encFin u = _ := execEncFin_accepted (by rw [hu]; exact hf) hseq
  refine ⟨_, _, execOk_concat hrun hfin, ?_⟩
  rw [hu]
  simp [hb, hact, State.answer]

/-! ### `DECODE` (R199) -/

/-- Inside a stream a byte writes neither `ACT` nor a flag of the first byte (R166, R167). -/
theorem execDecByte_inStream {b : Byte} {s t : State} (hact : s.act = .decoding)
    (hexec : exec (.decByte b) s = .next t) :
    t = { s with cur := t.cur, notree := t.notree, outSyms := t.outSyms, rspOut := t.rspOut } := by
  obtain ⟨u, r, heffect, rfl⟩ := answered_of_exec hexec
  cases heffect with
  | quiet => rfl
  | decByte => simp [s.openByte_not_idle b (by simp [hact]), State.answer, State.emitSyms, ← hact]

theorem execOk_decBytes_inStream {Y : List Byte} {s t : State} {ds : List Data} (hact : s.act = .decoding)
    (hrun : execOk (Y.map .decByte) s = some (t, ds)) :
    t = { s with cur := t.cur, notree := t.notree, outSyms := t.outSyms, rspOut := t.rspOut } := by
  induction Y generalizing s ds with
  | nil =>
    cases hrun
    rfl
  | cons b Y ih =>
    obtain ⟨u, ds', hexec, hrest⟩ := exists_of_execOk_cons hrun
    have hu := execDecByte_inStream hact hexec
    have ht := ih (by rw [hu, hact]) hrest
    rw [hu] at ht
    exact ht

/-- A stream whose walk ends at the root is decoded whole, and `DEC_FIN` finds every flag clear (R171). -/
theorem Inv.execOk_decodeStream {s : State} (h : Inv s) (hp : s.phase = .tree ∨ s.phase = .codes)
    (hf : s.fault = false) (hact : s.act = .idle) {b : Byte} (hb : b ≠ 0#8) {Y : List Byte} {S : List Sym}
    (hw : walkBits s.node s.root ⟨s.root, false, []⟩ (streamPayload (b :: Y)) = some ⟨s.root, false, S⟩) :
    ∃ t ds, execOk (decodeStream (b :: Y)) s = some (t, ds) ∧ t.outSyms = s.outSyms ++ S ∧
      ds.getLast? = some 0#56 ∧ t.act = .idle ∧ t.cur = s.root := by
  obtain ⟨w, t, ds, hwalk, hrun, hsyms, hcur, hnotree, -⟩ :=
    streamDecodesAsAWhole (b :: Y) s h hf hp hact (List.cons_ne_nil b Y)
  cases hw.symm.trans hwalk
  obtain ⟨w₁, h₁⟩ := h.exists_walk hp false (firstPayload b)
  obtain ⟨u, ds', hexec, hrest⟩ := exists_of_execOk_cons hrun
  cases (execDecByte_first hf hp hact h₁).symm.trans hexec
  have ht := execOk_decBytes_inStream rfl hrest
  have htact : t.act = .decoding := by rw [ht]; rfl
  have htroot : t.root = s.root := by rw [ht]; rfl
  have hseq : seqDecode t := ⟨by rw [ht]; exact hp, .inr htact⟩
  have hflags : t.closeStream.decodeFlags = 0#4 := by
    rw [t.closeStream_not_idle (by simp [htact]), ht]
    simp [State.decodeFlags, hcur, hnotree, hb]
  have hfin : exec .decFin t = _ := execDecFin_accepted (by rw [ht]; exact hf) hseq
  rw [hflags, t.closeStream_eq] at hfin
  exact ⟨_, _, execOk_concat hrun hfin, hsyms, by simp, rfl, htroot⟩

/-- Settles O39: the payload of the emitted bytes is the codewords of the message, and the walk over them emits it. -/
theorem roundTrip : Obligations.RoundTrip := by
  intro S P s h hphase hf hact hP hfits
  obtain ⟨t, ds, hencode, ht⟩ := h.execOk_encodeMessage hphase hf hact hP hfits
  refine ⟨t, ds, messageBytes P, hencode, by rw [ht], messageBytes_length P, messageBytes_head?_ne P, ht, ?_⟩
  intro u hu hp huf huact hnode hroot
  obtain ⟨b, Y, hY, hb⟩ := messageBytes_eq_cons P
  have hw := h.walkBits_payload hphase hP false []
  rw [← streamPayload_messageBytes P, ← hnode, ← hroot, hY, List.nil_append] at hw
  rw [hY]
  exact hu.execOk_decodeStream hp huf huact hb hw

/-! ### Runs of the build pipeline (R195 to R197) -/

section
variable {s : State} (hlt : s.nsym.toNat < Config.max32)
include hlt

theorem nsym_add_one_toNat : (s.nsym + 1#32).toNat = s.nsym.toNat + 1 :=
  BitVec.toNat_add_of_lt (Nat.succ_lt_succ hlt)

/-- One occurrence counted; no counter wraps before `NSYM`, the sum of them all (R52, R61 item 3). -/
theorem Inv.getSym_counted_toNat (h : Inv s) (x y : Sym) :
    (getSym (setSym s.cnt x (getSym s.cnt x + 1#32)) y).toNat = (getSym s.cnt y).toNat + [x].count y := by
  obtain ⟨hsum, -⟩ := h.counts
  by_cases hyx : y = x
  · subst hyx
    have hle := getSym_le_sum s.cnt y
    rw [← hsum] at hle
    rw [getSym_setSym_same, List.count_singleton_self]
    exact BitVec.toNat_add_of_lt (Nat.succ_lt_succ (hle.trans_lt hlt))
  · rw [getSym_setSym_ne _ _ _ _ hyx, List.count_eq_zero_of_not_mem (by simpa using hyx), Nat.add_zero]

end

/-- Counting a source: each counter grows by the occurrences of its symbol, `NSYM` by the length (R195). -/
theorem Inv.execOk_faSyms {S : List Sym} {s : State} (h : Inv s) (hf : s.fault = false) (hseq : seqFrequency s)
    (hroom : s.nsym.toNat + S.length ≤ Config.max32) :
    ∃ t ds, execOk (S.map .faSym) s = some (t, ds) ∧ ds.length = S.length ∧
      t = { s with cnt := t.cnt, nsym := t.nsym, rspOut := t.rspOut } ∧ t.nsym.toNat = s.nsym.toNat + S.length ∧
      ∀ x, (getSym t.cnt x).toNat = (getSym s.cnt x).toNat + S.count x := by
  induction S generalizing s with
  | nil => exact ⟨s, [], rfl, rfl, rfl, rfl, fun x => rfl⟩
  | cons y S ih =>
    rw [List.length_cons] at hroom
    have hlt : s.nsym.toNat < Config.max32 := by omega
    have hexec : exec (.faSym y) s = _ := execFaSym_accepted hf hseq hlt
    have hnsym := nsym_add_one_toNat hlt
    obtain ⟨t, ds, hrun, hlen, ht, hn, hcnt⟩ := ih (inv_of_exec h hexec) hf hseq
      (by simp only [State.answer_nsym, hnsym]; omega)
    refine ⟨t, (getSym s.cnt y + 1#32).setWidth 56 :: ds, ?_, congrArg Nat.succ hlen, ht, ?_, fun x => ?_⟩
    · rw [List.map_cons, execOk_cons _ _ _ _ _ hexec, hrun]
      rfl
    · rw [hn, State.answer_nsym, hnsym, List.length_cons]
      omega
    · rw [hcnt, State.answer_cnt, h.getSym_counted_toNat hlt, Nat.add_assoc, ← List.count_append,
        List.singleton_append]

theorem mem_leafList {D : List (Sym × Wgt)} {p : Sym × Wgt} (hp : p ∈ D) : p ∈ (leafList D).1 := by
  unfold leafList
  split
  · exact List.mem_cons_of_mem _ hp
  · exact hp

/-- What `BUILD_FREQ` leaves of a source counted from zero (R195): its counts, and a leaf for each of its symbols. -/
structure Counted (S : List Sym) (s : State) : Prop where
  phase : s.phase = .leaves
  fault : s.fault = false
  nsym : s.nsym.toNat = S.length
  cnt : ∀ x, (getSym s.cnt x).toNat = S.count x
  leaf : ∀ x ∈ S, ∃ e ∈ s.leaves, e.sym = x

theorem Inv.execOk_buildFreq {S : List Sym} {s : State} (h : Inv s) (hf : s.fault = false) (hseq : seqFrequency s)
    (hcnt : s.cnt = Vector.replicate 128 0#32) (hnsym : s.nsym = 0#32) (hroom : S.length ≤ Config.max32) :
    ∃ t ds, execOk (buildFreq S) s = some (t, ds) ∧ ds.length = S.length + 1 ∧ Counted S t := by
  obtain ⟨u, ds, hrun, hlen, hu, hn, hc⟩ := h.execOk_faSyms (S := S) hf hseq (by simpa [hnsym] using hroom)
  have hc (x) : (getSym u.cnt x).toNat = S.count x := by simpa [hcnt] using hc x
  have huf : u.fault = false := by rw [hu, hf]
  have huseq : seqFrequency u := by rw [hu]; exact hseq
  have hfin : exec .faFin u = _ := execFaFin_accepted huf huseq (sortedCounts_countedLeaves u.cnt) rfl
  refine ⟨_, _, execOk_concat hrun hfin, by simp [hlen], rfl, huf, by simpa [hnsym] using hn, hc, fun x hx => ?_⟩
  have hne : getSym u.cnt x ≠ 0#32 := fun h0 => by
    have hpos := List.count_pos_iff.mpr hx
    rw [← hc, h0] at hpos
    exact absurd hpos (by decide)
  have hmem := mem_leafList ((mem_countedLeaves u.cnt (x, getSym u.cnt x)).mpr ⟨rfl, hne⟩)
  refine ⟨.leaf x (getSym u.cnt x), ?_, rfl⟩
  rw [State.leaves, List.take_of_length_le (by simp)]
  exact List.mem_map_of_mem hmem

/-- After `FA_FIN` there is no leaf or at least two, so `BUILD` completes (R196, R61 item 12). -/
theorem Inv.exec_build_of_leaves {s : State} (h : Inv s) (hf : s.fault = false) (hp : s.phase = .leaves) :
    ∃ node root d, exec .build s = respond d { s with node := node, root := root, cur := root, phase := .tree } := by
  by_cases h0 : s.nleaf = 0
  · exact ⟨[], none, _, execBuild_noLeaf hf (.inl hp) h0⟩
  · obtain ⟨-, -, hleaves⟩ := h.counts
    have h1 := (hleaves hp).1
    obtain ⟨inner, -, hbuild⟩ := execBuild_merged h (.inl hp) (by omega) hf
    exact ⟨_, _, _, hbuild⟩

/-- `BUILD_TREE` and `BUILD_CODES` after it give a codeword to the symbol of each leaf (R196, R197). -/
theorem Inv.execOk_buildTree_buildCodes {s : State} (h : Inv s) (hf : s.fault = false) (hp : s.phase = .leaves) :
    ∃ t ds, execOk (buildTree ++ buildCodes) s = some (t, ds) ∧ ds.length = 2 ∧
      t = { s with
        node := t.node, root := t.root, cur := t.cur, code := t.code, phase := .codes, rspOut := t.rspOut } ∧
      ∀ x, (getSym t.code x).isSome = true ↔ ∃ e ∈ s.leaves, e.sym = x := by
  obtain ⟨node, root, d, hbuild⟩ := h.exec_build_of_leaves hf hp
  have hinv := inv_of_exec h hbuild
  obtain ⟨-, hkept, -⟩ := builtOnceReadOnlyAfterward .build s _ h nofun hbuild
  obtain ⟨-, -, -, -, hleaves⟩ := hkept (by simp [hp])
  obtain ⟨-, -, hgen⟩ := genWritesOneCodePerLeaf (State.answer
    { s with node := node, root := root, cur := root, phase := .tree } (rspWord .ok d))
  obtain ⟨code, hgen, hcode⟩ := hgen hinv hf rfl
  rw [hleaves] at hcode
  exact ⟨_, _, execOk_concat (execOk_concat (is := []) rfl hbuild) hgen, rfl, rfl, hcode⟩

/-- A message has a payload where each of its symbols has a codeword (R160). -/
theorem exists_payloadOf {code : Vector (Option Codeword) 128} {S : List Sym}
    (hS : ∀ x ∈ S, (getSym code x).isSome = true) : ∃ P, payloadOf code S = some P := by
  induction S with
  | nil => exact ⟨[], rfl⟩
  | cons x S ih =>
    obtain ⟨c, hc⟩ := Option.isSome_iff_exists.mp (hS x List.mem_cons_self)
    obtain ⟨P, hP⟩ := ih fun y hy => hS y (List.mem_cons_of_mem x hy)
    exact ⟨c.bits ++ P, by simp [payloadOf, hc, hP]⟩

/-- A state `CLEAR` does not change meets the invariants as reset does (R59, R182). -/
theorem inv_of_clearState_eq {s : State} (hs : s.clearState = s) (hm : 1 ≤ s.bitbufMax.toNat) : Inv s := by
  have h := inv_resetWith s.bitbufMax hm
  rw [← hs]
  exact ⟨h.buffer, h.leafList, h.early, h.counts, h.tree, h.code, h.activity, h.cursor, h.faults⟩

/-- Settles O40: the counters of the source make a leaf for each of its symbols, and the tree a codeword for each
leaf. -/
theorem pipelineFromResetCompletes : Obligations.PipelineFromResetCompletes := by
  intro S s hs hm hroom
  have hinv := inv_of_clearState_eq hs hm
  have hf : s.fault = false := by rw [← hs]; rfl
  have hseq : seqFrequency s := by rw [← hs]; exact ⟨rfl, rfl⟩
  obtain ⟨u, ds, hfreq, hlen, hu⟩ :=
    hinv.execOk_buildFreq hf hseq (by rw [← hs]; rfl) (by rw [← hs]; rfl) hroom
  have huinv := inv_of_execOk hinv hfreq
  obtain ⟨-, -, -, -, hact⟩ := huinv.early (.inr hu.phase)
  obtain ⟨-, -, hleaves⟩ := huinv.counts
  obtain ⟨t, ds', htree, hlen', ht, hcode⟩ := huinv.execOk_buildTree_buildCodes hu.fault hu.phase
  have hrun : execOk (buildFreq S ++ buildTree ++ buildCodes) s = some (t, ds ++ ds') := by
    rw [List.append_assoc, execOk_append, hfreq, Option.bind_some, htree, Option.map_some]
  obtain ⟨P, hP⟩ := exists_payloadOf fun x hx => (hcode x).mpr (hu.leaf x hx)
  refine ⟨t, ds ++ ds', hrun, by simp [hlen, hlen'], inv_of_execOk hinv hrun, ?_, ?_, ?_, ?_, ?_, ?_, P, hP, ?_⟩
  · rw [ht]
  · rw [ht, hu.fault]
  · rw [ht, hact]
  · rw [ht, hu.nsym]
  · rw [ht, (hleaves hu.phase).2, hu.nsym]
  · rw [ht]
    exact hu.cnt
  · rw [payloadOf_length hP, sum_map_eq_sum_count]

end Sys2Proof.Machine

/-! ## Proofs: how a command word ends (spec/60_exceptions.md) -/

namespace Sys2Proof.Machine

open Sys2Proof

/-! ### Words that reach no command (R205, R225) -/

/-- Settles O7: with an empty port the step is idle. -/
theorem idleEngineHoldsState : Obligations.IdleEngineHoldsState := step_idle

/-- Settles O5: the word is taken, and no row decodes it; no state is looked at. -/
theorem unmatchedWordIsIllegal : Obligations.UnmatchedWordIsIllegal := by
  intro s w ws hport hrow
  have hdecode := decode_of_no_match w fun r hr => beq_eq_false_iff_ne.mpr (hrow r hr)
  rw [step_of_cmdIn_cons s w ws hport, runWord, hdecode]
  rfl

/-! ### The checks every working command makes first (R206) -/

/-- Settles O49: `FAULT` is the first thing a working command looks at. -/
theorem faultedEngineRefusesWorkingCommands : Obligations.FaultedEngineRefusesWorkingCommands :=
  fun _ _ hi => exec_working_of_fault hi

/-- R206 step 4: outside the fault state a working command whose condition is false is refused. -/
theorem exec_working_out_of_sequence {i : Instr} (hi : i.working = true) {s : State} (hf : s.fault = false)
    (hseq : ¬seqCond s i) : exec i s = .next (s.answer (rspWord .errSeq 0#56)) := by
  cases i with
  | faSym _ | faFin | leafPush _ _ | build | gen | encSym _ | encFin | decByte _ | decFin =>
    exact working_out_of_sequence _ s _ hf hseq
  | nop | clear | rdCsr _ | rdNode _ | rdCode _ _ | rdCnt _ => cases hi

/-- R207: the checks of R206 can refuse every working command. -/
theorem check_codes_mem_codesOf {i : Instr} (hi : i.working = true) :
    .errFaulted ∈ codesOf i.mnemonic ∧ .errSeq ∈ codesOf i.mnemonic := by
  cases i with
  | faSym _ | faFin | leafPush _ _ | build | gen | encSym _ | encFin | decByte _ | decFin =>
    simp [Instr.mnemonic, codesOf]
  | nop | clear | rdCsr _ | rdNode _ | rdCode _ _ | rdCnt _ => cases hi

/-! ### The three ways a command ends (R200) -/

/-- `Ending i s t`: command `i` ends in one of the ways of R200 and takes `s` to `t`. It completes and leaves `PHASE` and
`ACT` as R210 says, it is refused (R203), or it faults (R204); a refusal or a fault has one of its codes of R207. -/
inductive Ending (i : Instr) (s : State) : State → Prop
  | completed (u : State) (d : Data) (hseq : seqCond s i) (hphase : u.phase = phaseAfter s i)
      (hact : Inv s → u.act = actAfter s i) : Ending i s (u.answer (rspWord .ok d))
  | refused (e : RspCode) (he : e ∈ codesOf i.mnemonic) (hfault : e = .errFaulted → s.fault = true) :
      Ending i s (s.answer (rspWord e 0#56))
  | faulted (f : RspCode) (op a : Byte) (hf : f ∈ codesOf i.mnemonic) (hcode : f = .fltNocode ∨ f = .fltBufovf) :
      Ending i s ((s.faulted f op a).answer (rspWord f 0#56))

/-- Where the result is a next state, the command has ended in one of these ways. -/
def EndsIn (i : Instr) (s : State) (r : Result) : Prop := ∀ t, r = .next t → Ending i s t

section
variable {i : Instr} {s : State}

theorem endsIn_respond {u : State} (d : Data) (hseq : seqCond s i) (hphase : u.phase = phaseAfter s i)
    (hact : Inv s → u.act = actAfter s i) : EndsIn i s (respond d u) := by
  rintro t ht
  rw [(respond_next_iff _ _ _).mp ht]
  exact .completed u d hseq hphase hact

theorem endsIn_refuse {e : RspCode} (he : e ∈ codesOf i.mnemonic) (hfault : e = .errFaulted → s.fault = true) :
    EndsIn i s (refuse e s) := by
  rintro t ht
  rw [(refuse_next_iff _ _ _).mp ht]
  exact .refused e he hfault

theorem endsIn_raise {f : RspCode} (op a : Byte) (hf : f ∈ codesOf i.mnemonic)
    (hcode : f = .fltNocode ∨ f = .fltBufovf) : EndsIn i s (raise f op a s) := by
  rintro t ht
  rw [(raise_next_iff _ _ _ _ _).mp ht]
  exact .faulted f op a hf hcode

/-- A stop of the model is no ending (notes/assumptions/6.md). -/
theorem endsIn_fault (r : Fault) : EndsIn i s (.fault r) := by
  rintro t ⟨⟩

/-- Of a working command only its body is left to consider (R206). -/
theorem endsIn_working {c : Prop} [Decidable c] {body : Result} (hi : i.working = true)
    (h : c → EndsIn i s body) : EndsIn i s (working c s body) := by
  obtain ⟨hfaulted, hseq⟩ := check_codes_mem_codesOf hi
  intro t ht
  rcases working_cases c s body t ht with ⟨hf, rfl⟩ | ⟨-, -, rfl⟩ | ⟨-, hc, hbody⟩
  · exact .refused _ hfaulted fun _ => hf
  · exact .refused _ hseq nofun
  · exact h hc t hbody

end

/-- Before `BUILD` nothing is in flight (R61 item 2). -/
theorem Inv.act_idle {s : State} (h : Inv s) (hp : s.phase = .load ∨ s.phase = .leaves) : s.act = .idle := by
  obtain ⟨-, -, -, -, hact⟩ := h.early hp
  exact hact

theorem State.openByte_phase (s : State) (b : Byte) : (s.openByte b).1.phase = s.phase := by
  unfold State.openByte
  split <;> rfl

theorem State.openByte_act (s : State) (b : Byte) (h : s.act = .idle ∨ s.act = .decoding) :
    (s.openByte b).1.act = .decoding := by
  rw [s.openByte_eq b h]

theorem State.closeStream_phase (s : State) : s.closeStream.phase = s.phase := by
  rw [s.closeStream_eq]

/-! ### How each command ends -/

theorem endsIn_execFaSym (x : Sym) (s : State) : EndsIn (.faSym x) s (execFaSym x s) := by
  refine endsIn_working rfl fun hseq => ?_
  split
  · exact endsIn_respond _ hseq hseq.1 fun h => h.act_idle (.inl hseq.1)
  · exact endsIn_refuse (by simp [Instr.mnemonic, codesOf]) nofun

theorem endsIn_execLeafPush (x : Sym) (v : Wgt) (s : State) : EndsIn (.leafPush x v) s (execLeafPush x v s) := by
  refine endsIn_working rfl fun hseq => ?_
  split
  · exact endsIn_refuse (by simp [Instr.mnemonic, codesOf]) nofun
  · split
    · exact endsIn_fault _
    · exact endsIn_refuse (by simp [Instr.mnemonic, codesOf]) nofun
    · split
      · exact endsIn_respond _ hseq hseq.1 fun h => h.act_idle (.inl hseq.1)
      · exact endsIn_refuse (by simp [Instr.mnemonic, codesOf]) nofun

theorem endsIn_execBuild (s : State) : EndsIn .build s (execBuild s) := by
  refine endsIn_working rfl fun hseq => ?_
  split
  · exact endsIn_refuse (by decide) nofun
  · split
    · exact endsIn_respond _ hseq rfl fun h => h.act_idle (seqBuild_early hseq)
    · split
      · exact endsIn_fault _
      · exact endsIn_respond _ hseq rfl fun h => h.act_idle (seqBuild_early hseq)

theorem endsIn_execGen (s : State) : EndsIn .gen s (execGen s) := by
  refine endsIn_working rfl fun hseq => ?_
  split
  · exact endsIn_fault _
  · exact endsIn_respond _ hseq rfl fun _ => rfl

theorem endsIn_execEncSym (x : Sym) (s : State) : EndsIn (.encSym x) s (execEncSym x s) := by
  refine endsIn_working rfl fun hseq => ?_
  split
  · exact endsIn_raise _ _ (by simp [Instr.mnemonic, codesOf]) (.inl rfl)
  · split
    · exact endsIn_raise _ _ (by simp [Instr.mnemonic, codesOf]) (.inr rfl)
    · exact endsIn_respond _ hseq hseq.1 fun _ => rfl

theorem endsIn_execDecByte (b : Byte) (s : State) : EndsIn (.decByte b) s (execDecByte b s) := by
  refine endsIn_working rfl fun hseq => ?_
  dsimp only
  split
  · exact endsIn_fault _
  · exact endsIn_respond _ hseq (s.openByte_phase b) fun _ => s.openByte_act b hseq.2

theorem endsIn_execRdCsr (n : Byte) (s : State) : EndsIn (.rdCsr n) s (execRdCsr n s) := by
  unfold execRdCsr
  split
  · exact endsIn_respond _ trivial rfl fun _ => rfl
  · exact endsIn_refuse (by simp [Instr.mnemonic, codesOf]) nofun

theorem endsIn_execRdNode (k : Byte) (s : State) : EndsIn (.rdNode k) s (execRdNode k s) := by
  unfold execRdNode
  split
  · exact endsIn_respond _ trivial rfl fun _ => rfl
  · exact endsIn_refuse (by simp [Instr.mnemonic, codesOf]) nofun

/-- Everything a command can end in, `OK` or not (R200, R207, R210). -/
theorem endsIn_exec (i : Instr) (s : State) : EndsIn i s (exec i s) := by
  cases i with
  | faSym x => exact endsIn_execFaSym x s
  | faFin =>
    exact endsIn_working rfl fun hseq => endsIn_respond _ hseq rfl fun h => h.act_idle (.inl hseq.1)
  | leafPush x v => exact endsIn_execLeafPush x v s
  | build => exact endsIn_execBuild s
  | gen => exact endsIn_execGen s
  | encSym x => exact endsIn_execEncSym x s
  | encFin => exact endsIn_working rfl fun hseq => endsIn_respond _ hseq hseq.1 fun _ => rfl
  | decByte b => exact endsIn_execDecByte b s
  | decFin =>
    exact endsIn_working rfl fun hseq => endsIn_respond _ hseq s.closeStream_phase fun _ => rfl
  | rdCsr n => exact endsIn_execRdCsr n s
  | rdNode k => exact endsIn_execRdNode k s
  | nop | clear | rdCode _ _ | rdCnt _ => exact endsIn_respond _ trivial rfl fun _ => rfl

/-! ### The code of the last response (R201) -/

@[simp] theorem State.lastCode_answer (s : State) (e : RspCode) (d : Data) :
    (s.answer (rspWord e d)).lastCode = some e.byte := by
  rw [State.lastCode, State.answer_getLast?, Option.map_some, rspWord_code]

@[simp] theorem RspCode.byte_inj {e e' : RspCode} : e.byte = e'.byte ↔ e = e' :=
  ⟨RspCode.byte_injective e e', congrArg RspCode.byte⟩

/-- R207: `OK` is in no command's list. -/
theorem ne_ok_of_mem_codesOf {m : Mnemonic} {e : RspCode} (he : e ∈ codesOf m) : e ≠ .ok := by
  rintro rfl
  revert he
  cases m <;> decide

/-- Settles O47: the code of the response tells a refusal from the other endings. -/
theorem refusalsChangeNothing : Obligations.RefusalsChangeNothing := by
  intro i s t e hok hnocode hbufovf hexec hlast
  cases endsIn_exec i s t hexec with
  | completed u d => exact absurd (by simpa using hlast) hok.symm
  | refused e' =>
    obtain rfl : e' = e := by simpa using hlast
    rfl
  | faulted f op a hf hcode =>
    obtain rfl : f = e := by simpa using hlast
    exact (hcode.elim hnocode hbufovf).elim

/-- Settles O50: the checks of R206 refuse a command out of sequence, and only a command that completes writes `PHASE`
or `ACT`. -/
theorem sequencingTable : Obligations.SequencingTable := by
  refine fun i s hinv => ⟨fun hi => exec_working_out_of_sequence hi, fun t hexec => ?_⟩
  cases endsIn_exec i s t hexec with
  | completed u d hseq hphase hact =>
    exact ⟨fun _ => ⟨hseq, hphase, hact hinv⟩, fun hlast => absurd (by simp) hlast⟩
  | refused e he | faulted e op a he =>
    exact ⟨fun hlast => absurd (by simpa using hlast) (ne_ok_of_mem_codesOf he), fun _ => ⟨rfl, rfl⟩⟩

/-- The fault state lies in `CODES` (R61 item 10), past the build commands' conditions (R210). -/
theorem Inv.not_seqCond_of_fault {i : Instr} {s : State} (h : Inv s) (hf : s.fault = true)
    (hi : i.mnemonic ∈ [.FA_SYM, .FA_FIN, .LEAF_PUSH, .BUILD, .GEN]) : ¬seqCond s i := by
  obtain ⟨-, hfaulted⟩ := h.faults
  obtain ⟨-, hphase, -⟩ := hfaulted hf
  cases i with
  | faSym _ | faFin | leafPush _ _ | build | gen => simp [seqCond, hphase]
  | nop | clear | encSym _ | encFin | decByte _ | decFin | rdCsr _ | rdNode _ | rdCode _ _ | rdCnt _ =>
    simp [Instr.mnemonic] at hi

/-- Settles O51: each ending has a code of R207, and `ERR_FAULTED` is answered only in the fault state. -/
theorem responseCodesOfEachCommand : Obligations.ResponseCodesOfEachCommand := by
  intro i s t hexec
  cases endsIn_exec i s t hexec with
  | completed u d => exact ⟨⟨.ok, .inl rfl, by simp⟩, fun _ _ hlast => by simp at hlast⟩
  | refused e he hfault =>
    exact ⟨⟨e, .inr he, by simp⟩, fun hinv hi hlast => hinv.not_seqCond_of_fault (hfault (by simpa using hlast)) hi⟩
  | faulted f op a hf hcode =>
    refine ⟨⟨f, .inr hf, by simp⟩, fun _ _ hlast => ?_⟩
    rcases hcode with rfl | rfl <;> simp at hlast

end Sys2Proof.Machine
